-- ==== Sys2Proof/Word.lean ====
section
/-! DEFINITION. The word types of the protocol engine (spec 00_scope.md R8, R9): every register
address, register value, op code, parameter byte and FIFO element is one byte; the control port
moves 16-bit halves. Bit 0 is the least significant bit; everything is unsigned. -/

namespace Sys2Proof

/-- One byte (R8, R9). -/
abbrev Byte := BitVec 8

/-- A 16-bit number, low byte first wherever it meets a byte stream (R60). -/
abbrev Half := BitVec 16

end Sys2Proof
end

