-- ==== Sys2Proof/Machine/Bytes.lean ====
section
/-! DEFINITION. Byte order (spec 20_memory.md R60): little-endian wherever a multi-byte number meets
a byte stream. -/

namespace Sys2Proof.Machine

/-- `v[7:0]`, the byte that travels first (R60). -/
def lowByte (v : Half) : Byte := v.setWidth 8

/-- `v[15:8]`, the byte that travels second (R60). -/
def highByte (v : Half) : Byte := (v >>> 8).setWidth 8

/-- The number whose low byte is `lo` and whose high byte is `hi` (R60, R83: the concatenation with
`hi` in the high bits, that is `lo + 256 × hi`). -/
def joinBytes (lo hi : Byte) : Half := hi ++ lo

end Sys2Proof.Machine
end

