-- ==== Sys2Proof/Syntax.lean ====
section
/-! DEFINITION. The host operations (spec 30_encoding.md R82 and 45_client_extension.md R170): one
constructor for every row of opcode_table.json. The length bytes `n` are not operands of their own:
they are the lengths of the byte lists (R81, R83, R90). -/

namespace Sys2Proof

/-- The twelve host operations and the seven reserved client operations. -/
inductive Instr where
  /-- WRCMD icop, params: format HC, op code 0x01 (R121) -/
  | wrcmd (icop : Byte) (params : List Byte)
  /-- FIFOLEN: H0, 0x02 (R101) -/
  | fifolen
  /-- FIFORD n: H1, 0x03 (R104) -/
  | fiford (maxLen : Byte)
  /-- FIFOWR data: HV, 0x04 (R106) -/
  | fifowr (data : List Byte)
  /-- FIFOCLR: H0, 0x05 (R108) -/
  | fifoclr
  /-- GETSTAT: H0, 0x06 (R122) -/
  | getstat
  /-- SRESET: H0, 0x07 (R123) -/
  | sreset
  /-- REQA: H0, 0x08 (R142) -/
  | reqa
  /-- WUPA: H0, 0x09 (R143) -/
  | wupa
  /-- SELECT: H0, 0x0A (R147) -/
  | select
  /-- RDCTL idx: HR, 0x0B (R129) -/
  | rdctl (idx : Byte)
  /-- WRCTL idx, value: HW, 0x0C (R130) -/
  | wrctl (idx : Byte) (value : Half)
  /-- CONFIGURE profile: ext, 0x10 (R171) -/
  | configure (profile : Byte)
  /-- LOADKEY k0..k5: ext, 0x11 (R173) -/
  | loadkey (key : List Byte)
  /-- AUTH keyType, blockNum, uid: ext, 0x12 (R174) -/
  | auth (keyType : Byte) (blockNum : Byte) (uid : List Byte)
  /-- RDBLK blockNum: ext, 0x13 (R175) -/
  | rdblk (blockNum : Byte)
  /-- WRBLK blockNum, d0..d15: ext, 0x14 (R176) -/
  | wrblk (blockNum : Byte) (data : List Byte)
  /-- RDPAGE page: ext, 0x15 (R177) -/
  | rdpage (page : Half)
  /-- WRPAGE page, d0..d3: ext, 0x16 (R178) -/
  | wrpage (page : Half) (data : List Byte)
  deriving DecidableEq, Repr

end Sys2Proof
end

