-- ==== Sys2Proof/WellFormed.lean ====
section
/-! DEFINITION. Which instructions have an encoding (spec 30_encoding.md R81, R83 and
45_client_extension.md R170): a length byte counts at most 255 bytes, and the fixed-size operands of
the client operations have their sizes (R8). Whether an operand VALUE is legal (an index, a key type,
a UID length) is not a matter of form: PE answers BAD_ARG (R129, R130, R174). -/

namespace Sys2Proof

/-- The instruction has an encoding. -/
def Instr.wellFormed : Instr → Bool
  | .wrcmd _ params => decide (params.length ≤ 255)
  | .fifolen => true
  | .fiford _ => true
  | .fifowr data => decide (data.length ≤ 255)
  | .fifoclr => true
  | .getstat => true
  | .sreset => true
  | .reqa => true
  | .wupa => true
  | .select => true
  | .rdctl _ => true
  | .wrctl _ _ => true
  | .configure _ => true
  | .loadkey key => decide (key.length = 6)
  | .auth _ _ uid => decide (uid.length ≤ 255)
  | .rdblk _ => true
  | .wrblk _ data => decide (data.length = 16)
  | .rdpage _ => true
  | .wrpage _ data => decide (data.length = 4)

end Sys2Proof
end

