-- ==== Sys2Proof/Decode.lean ====
section
/-! DEFINITION. The decoder of host words (spec 30_encoding.md R81 to R86; 45_client_extension.md
R170), total on any byte sequence and rejecting by name, and after it the encoder written from the
same tables. The decoder knows all nineteen op codes; whether the client operations exist is the
machine's business (R85, R170). -/

namespace Sys2Proof

/-- What a byte sequence decodes to. -/
inductive Decoded where
  /-- the operation it encodes -/
  | instr (i : Instr)
  /-- no byte at all: not a host word (R80 "non-empty") -/
  | empty
  /-- the op code is in no table (R85) -/
  | badOp
  /-- the op code is in the table, the length is not the one its format requires (R86) -/
  | malformed (op : Byte)
  deriving DecidableEq, Repr

/-- Whether `op` is in the table of R82. -/
def baseOp (op : Byte) : Bool := decide (0x01 ≤ op.toNat) && decide (op.toNat ≤ 0x0C)

/-- Whether `op` is reserved for the client extension (R82, R85, R170). -/
def clientOp (op : Byte) : Bool := decide (0x10 ≤ op.toNat) && decide (op.toNat ≤ 0x16)

/-- Format H0: the op code alone. -/
def decodeH0 (op : Byte) (i : Instr) : List Byte → Decoded
  | [] => .instr i
  | _ => .malformed op

/-- Formats H1 and HR: one operand byte. -/
def decodeH1 (op : Byte) (f : Byte → Instr) : List Byte → Decoded
  | [n] => .instr (f n)
  | _ => .malformed op

/-- Format HV: a length byte and as many bytes. -/
def decodeHV (op : Byte) (f : List Byte → Instr) : List Byte → Decoded
  | n :: data => if data.length = n.toNat then .instr (f data) else .malformed op
  | _ => .malformed op

/-- Format HC: an IC opcode, a length byte and as many bytes. -/
def decodeHC (op : Byte) (f : Byte → List Byte → Instr) : List Byte → Decoded
  | icop :: n :: params =>
    if params.length = n.toNat then .instr (f icop params) else .malformed op
  | _ => .malformed op

/-- Format HW: an index and a 16-bit value, low byte first (R83). -/
def decodeHW (op : Byte) (f : Byte → Half → Instr) : List Byte → Decoded
  | [idx, lo, hi] => .instr (f idx (Machine.joinBytes lo hi))
  | _ => .malformed op

/-- LOADKEY: six key bytes (R170). -/
def decodeKey (op : Byte) : List Byte → Decoded
  | key => if key.length = 6 then .instr (.loadkey key) else .malformed op

/-- AUTH: key type, block number, a length byte and as many UID bytes (R170). -/
def decodeAuth (op : Byte) : List Byte → Decoded
  | keyType :: blockNum :: n :: uid =>
    if uid.length = n.toNat then .instr (.auth keyType blockNum uid) else .malformed op
  | _ => .malformed op

/-- WRBLK: block number and sixteen bytes (R170). -/
def decodeWrblk (op : Byte) : List Byte → Decoded
  | blockNum :: data => if data.length = 16 then .instr (.wrblk blockNum data) else .malformed op
  | _ => .malformed op

/-- RDPAGE: a page number, low byte first (R170). -/
def decodeRdpage (op : Byte) : List Byte → Decoded
  | [lo, hi] => .instr (.rdpage (Machine.joinBytes lo hi))
  | _ => .malformed op

/-- WRPAGE: a page number, low byte first, and four bytes (R170). -/
def decodeWrpage (op : Byte) : List Byte → Decoded
  | lo :: hi :: data =>
    if data.length = 4 then .instr (.wrpage (Machine.joinBytes lo hi) data) else .malformed op
  | _ => .malformed op

/-- The op code table (R82, R170), then the length rule of the format (R86). -/
def decodeOp (op : Byte) (rest : List Byte) : Decoded :=
  match op.toNat with
  | 0x01 => decodeHC op .wrcmd rest
  | 0x02 => decodeH0 op .fifolen rest
  | 0x03 => decodeH1 op .fiford rest
  | 0x04 => decodeHV op .fifowr rest
  | 0x05 => decodeH0 op .fifoclr rest
  | 0x06 => decodeH0 op .getstat rest
  | 0x07 => decodeH0 op .sreset rest
  | 0x08 => decodeH0 op .reqa rest
  | 0x09 => decodeH0 op .wupa rest
  | 0x0A => decodeH0 op .select rest
  | 0x0B => decodeH1 op .rdctl rest
  | 0x0C => decodeHW op .wrctl rest
  | 0x10 => decodeH1 op .configure rest
  | 0x11 => decodeKey op rest
  | 0x12 => decodeAuth op rest
  | 0x13 => decodeH1 op .rdblk rest
  | 0x14 => decodeWrblk op rest
  | 0x15 => decodeRdpage op rest
  | 0x16 => decodeWrpage op rest
  | _ => .badOp

/-- The operation a host word encodes (R81 to R86). -/
def decode : List Byte → Decoded
  | [] => .empty
  | op :: rest => decodeOp op rest

/-- The op code of an operation (R82, R170). -/
def Instr.opcode : Instr → Byte
  | .wrcmd _ _ => 0x01
  | .fifolen => 0x02
  | .fiford _ => 0x03
  | .fifowr _ => 0x04
  | .fifoclr => 0x05
  | .getstat => 0x06
  | .sreset => 0x07
  | .reqa => 0x08
  | .wupa => 0x09
  | .select => 0x0A
  | .rdctl _ => 0x0B
  | .wrctl _ _ => 0x0C
  | .configure _ => 0x10
  | .loadkey _ => 0x11
  | .auth _ _ _ => 0x12
  | .rdblk _ => 0x13
  | .wrblk _ _ => 0x14
  | .rdpage _ => 0x15
  | .wrpage _ _ => 0x16

/-- The operand bytes of an operation, in the order of its format (R81, R83, R170). -/
def Instr.operands : Instr → List Byte
  | .wrcmd icop params => icop :: BitVec.ofNat 8 params.length :: params
  | .fifolen => []
  | .fiford maxLen => [maxLen]
  | .fifowr data => BitVec.ofNat 8 data.length :: data
  | .fifoclr => []
  | .getstat => []
  | .sreset => []
  | .reqa => []
  | .wupa => []
  | .select => []
  | .rdctl idx => [idx]
  | .wrctl idx value => [idx, Machine.lowByte value, Machine.highByte value]
  | .configure profile => [profile]
  | .loadkey key => key
  | .auth keyType blockNum uid => keyType :: blockNum :: BitVec.ofNat 8 uid.length :: uid
  | .rdblk blockNum => [blockNum]
  | .wrblk blockNum data => blockNum :: data
  | .rdpage page => [Machine.lowByte page, Machine.highByte page]
  | .wrpage page data => Machine.lowByte page :: Machine.highByte page :: data

/-- The host word of an operation (R81, R82). -/
def encode (i : Instr) : List Byte := i.opcode :: i.operands

/-- The length a host word must have, decided by its first bytes (R86); `none` for an op code that
is in no table or a word too short to hold its length byte. -/
def wordLength : List Byte → Option Nat
  | [] => none
  | op :: rest =>
    match op.toNat with
    | 0x01 => rest[1]?.map fun n => 3 + n.toNat
    | 0x03 => some 2
    | 0x04 => rest[0]?.map fun n => 2 + n.toNat
    | 0x0B => some 2
    | 0x0C => some 4
    | 0x10 => some 2
    | 0x11 => some 7
    | 0x12 => rest[2]?.map fun n => 4 + n.toNat
    | 0x13 => some 2
    | 0x14 => some 18
    | 0x15 => some 3
    | 0x16 => some 7
    | _ => if baseOp op then some 1 else none

/-- The `nbits / 8` lowest bytes of `w`: byte k is bits 8k+7 down to 8k (R81). -/
def tableBytes (nbits w : Nat) : List Byte :=
  (List.range ((nbits + 7) / 8)).map fun k => BitVec.ofNat 8 (w / 256 ^ k)

/-- The host word whose first bits are `w`, zero above them, cut at the length R86 gives it (a word
is presented whole, so it ends where its format ends). -/
def tableWord (nbits w : Nat) : List Byte :=
  let given := tableBytes nbits w
  let long := given ++ List.replicate 260 0
  match wordLength long with
  | some n => long.take (max n given.length)
  | none => given

/-- The instruction the decoder reads from a row of opcode_table.json. -/
def decodeTableWord (nbits w : Nat) : Option Instr :=
  match decode (tableWord nbits w) with
  | .instr i => some i
  | _ => none

end Sys2Proof
end

