-- ==== Sys2Proof/Machine/Memory.lean ====
section
/-! DEFINITION. The IC register space (spec 10_state.md R35 (1)): byte cells addressed by one byte.
A memory is a list of (address, byte) pairs in ONE canonical form: addresses strictly rising and
below 256, and no pair whose byte is what an unlisted address reads as, so that equal memories are
equal lists. -/

namespace Sys2Proof.Machine

/-- The IC registers that have no name of their own in `Device`, by address. -/
abbrev Memory := List Host.Cell

/-- What an address with no pair reads as.
DESIGN CHOICE (log entry 3): 0x00, as R71 lets the reference device answer; the spec gives no value
for any real IC. -/
def Memory.blank : Byte := 0

/-- The byte held at an address. -/
def Memory.read : Memory → Nat → Byte
  | [], _ => Memory.blank
  | (b, w) :: rest, a => if a = b then w else Memory.read rest a

/-- Store one byte, keeping the canonical form: a byte equal to `Memory.blank` removes the pair. -/
def Memory.write : Memory → Nat → Byte → Memory
  | [], a, v => if v = Memory.blank then [] else [(a, v)]
  | (b, w) :: rest, a, v =>
    if a < b then (if v = Memory.blank then (b, w) :: rest else (a, v) :: (b, w) :: rest)
    else if a = b then (if v = Memory.blank then rest else (a, v) :: rest)
    else (b, w) :: Memory.write rest a v

/-- The canonical form from address `lo` on. -/
def Memory.wfFrom : Nat → Memory → Bool
  | _, [] => true
  | lo, (a, v) :: rest =>
    decide (lo ≤ a) && decide (a < 256) && decide (v ≠ Memory.blank) && Memory.wfFrom (a + 1) rest

/-- The canonical form: strictly rising addresses below 256, no blank byte listed. -/
def Memory.wf (m : Memory) : Bool := Memory.wfFrom 0 m

/-- Bring any list of pairs into canonical form: store them one after another into the empty
memory, leaving out pairs whose address is no byte. -/
def Memory.normalise (m : Memory) : Memory :=
  m.foldl (fun acc c => if c.1 < 256 then Memory.write acc c.1 c.2 else acc) []

end Sys2Proof.Machine
end

