-- ==== Sys2Proof/Machine/Device.lean ====
section
/-! DEFINITION. The device (spec 10_state.md R40 to R44), what it may do on its own between two
micro-steps (00_scope.md R12, R13), the transport port's traffic (20_memory.md R50 to R55), the
reference device of the test vectors (R70 to R74) and the host's side of the host port
(30_encoding.md R80, R92). All plain data. -/

namespace Sys2Proof.Machine

/-- The device state the spec names (R40 to R44). -/
structure Device where
  /-- `DEV.FIFO`, head first (R40). -/
  fifo   : List Byte := []
  /-- `DEV.CMD`, the opcode register at REG_COMMAND (R41). -/
  cmd    : Byte := 0
  /-- `DEV.IRQ`, the status/IRQ register at REG_IRQ (R42). -/
  irq    : Byte := 0
  /-- `DEV.STATUS`, the status byte at REG_STATUS (R43). -/
  status : Byte := 0
  /-- `DEV.FRAME`, the frame configuration register at REG_FRAME_CFG (R43). -/
  frame  : Byte := 0
  /-- Every other IC register, by address (R35 (1), R44). -/
  regs   : Memory := []
  /-- The IC's volatile key slot (R44), `none` while no key was loaded; only the client extension's
  LOADKEY writes it (R173) and no PE rule reads it. -/
  key    : Option (List Byte) := none
  deriving DecidableEq, Repr, Inhabited

/-- One step the device takes by itself (R12, R40 to R44, R63). Any finite list of them may happen
between two micro-steps; together they reach every device state R40 to R44 allow. -/
inductive DevStep where
  /-- transmitting consumes bytes from the head of the FIFO (R40) -/
  | transmit (n : Nat)
  /-- receiving appends bytes, never beyond FIFO_CAP (R40) -/
  | receive (bs : List Byte)
  /-- the device sets IRQ bits; it never clears one by itself (R42, R59) -/
  | raise (bits : Byte)
  /-- the internal state machine shows another status byte (R43) -/
  | showStatus (b : Byte)
  /-- the internal state machine changes the opcode register (R41) -/
  | showCommand (b : Byte)
  /-- the device changes its frame configuration register (R43) -/
  | showFrame (b : Byte)
  /-- the device changes another register (R44) -/
  | showRegister (a : Byte) (b : Byte)
  /-- the device is reset from outside PE (R59, R222): its whole state is unspecified (R45) -/
  | deviceReset (d : Device)
  deriving DecidableEq, Repr

/-- Everything the environment draws for ONE micro-step (R11 `draw`, R12, R55). The defaults are a
calm environment: no own step, no failure, no RESET. -/
structure EnvMove where
  /-- the device's own steps since the last micro-step (R12) -/
  steps  : List DevStep := []
  /-- whether the transport primitive fails (R55) -/
  fails  : Bool := false
  /-- how much of a failed primitive took effect all the same (93_implementation_defined.md U6):
  0 means nothing, more means that many FIFO bytes, or the whole register write -/
  landed : Nat := 0
  /-- how many bytes a bulk primitive moves or reports when not all (R53, R54, R103, R105) -/
  moved  : Option Nat := none
  /-- a register value the device answers instead of the one held, at an address under no law or
  inside the settle window (R51, U4) -/
  value  : Option Byte := none
  /-- bytes delivered beyond the valid region (U2) or inside the settle window (U4) -/
  bytes  : List Byte := []
  /-- the device state wherever the spec leaves it unspecified (R45, U3, U4) -/
  device : Device := {}
  /-- the device's own steps right after the primitive -/
  react  : List DevStep := []
  /-- whether RESET strikes right after this micro-step (70_reset_and_hazards.md R220) -/
  reset  : Bool := false
  deriving DecidableEq, Repr, Inhabited

/-- What PE does in one micro-step: one transport primitive or one `Wait` (R12, R50, R63). -/
inductive BusOp where
  /-- `TRead(a)` (R51) -/
  | read (a : Byte)
  /-- `TWrite(a, v)` (R52) -/
  | write (a : Byte) (v : Byte)
  /-- `TFifoRead(n)` (R53) -/
  | fifoRead (n : Nat)
  /-- `TFifoWrite(bs)` (R54) -/
  | fifoWrite (bs : List Byte)
  /-- `Wait(t)` (R63) -/
  | wait (t : Nat)
  deriving DecidableEq, Repr

/-- What came back from a micro-step (R50, R55). -/
inductive BusAnswer where
  /-- the primitive failed (R55) -/
  | failed
  /-- it completed and returns nothing -/
  | done
  /-- the byte `TRead` returned -/
  | value (b : Byte)
  /-- the bytes `TFifoRead` returned -/
  | bytes (bs : List Byte)
  /-- the count `TFifoWrite` returned -/
  | count (n : Nat)
  deriving DecidableEq, Repr

/-- One micro-step as the device observes it (R92). -/
structure BusStep where
  op     : BusOp
  answer : BusAnswer
  deriving DecidableEq, Repr

/-- A script entry or the pending command of the reference device (R70): latency in ticks (`none`
is `never`), the IRQ bits and the answer bytes. -/
structure ScriptEntry where
  lat  : Option Nat
  irq  : Byte
  resp : List Byte
  deriving DecidableEq, Repr

/-- The reference device's own state beside FIFO, CMD, IRQ, STATUS and FRAME (R70). -/
structure RefDevice where
  /-- PEND -/
  pend    : Option ScriptEntry := none
  /-- SCRIPT -/
  script  : List ScriptEntry := []
  /-- FAILS: the ordinal numbers, from 1, of the primitives that fail -/
  fails   : List Nat := []
  /-- how many primitives were made so far -/
  ordinal : Nat := 0
  /-- the transmitted frames, recorded when the device fired (R72) -/
  frames  : List (List Byte) := []
  deriving DecidableEq, Repr

/-- The environment behind the transport port (R13). -/
inductive Agent where
  /-- any device: the listed moves come first, after them draws under no law -/
  | any (tape : List EnvMove)
  /-- the reference device of R70 to R74 -/
  | reference (r : RefDevice)
  deriving DecidableEq, Repr

/-- What the outside does at the host port (R14, R80, R220, R226). -/
inductive HostEvent where
  /-- the host presents a host word (R80) -/
  | word (w : List Byte)
  /-- the RESET event (R220) -/
  | reset
  /-- the host lets ticks pass while PE rests (the settle delay, R226) -/
  | wait (t : Nat)
  deriving DecidableEq, Repr

end Sys2Proof.Machine
end

