-- ==== Sys2Proof/Config.lean ====
section
/-! DEFINITION. The configuration record CFG (spec 00_scope.md R7), its legality, the reference
configuration CFG_REF, the parameters of the client extension (45_client_extension.md R170 to R179),
and the free values, opaque constants nothing can evaluate. -/

namespace Sys2Proof.Machine

/-- One byte of a parameter layout of the client extension, written over the operand bytes of the
host word (the bytes after the op code, counted from 0). The layouts are not in the source
(91_not_in_source.md N12 to N15): DESIGN CHOICE, log entry 12. A layout picks bytes by their place from
the front or from the back, or all from a place on; one that orders AUTH's UID bytes otherwise as their
number changes (N14 gives neither order nor number) is no value of this type. -/
inductive ParamByte where
  /-- a fixed byte -/
  | lit (b : Byte)
  /-- operand byte `i` -/
  | operand (i : Nat)
  /-- operand byte `i` counted from the last one, which is 0 -/
  | operandFromEnd (i : Nat)
  /-- every operand byte from `i` on -/
  | operandsFrom (i : Nat)
  /-- entry number (operand byte `i`) of a table -/
  | mapped (i : Nat) (table : List Byte)
  deriving DecidableEq, Repr

/-- One call a client operation makes; R179 lists all there are. -/
inductive ClientStep where
  /-- `clearFIFO` -/
  | clear
  /-- `writeCommand(icop, params)` -/
  | command (icop : Byte) (params : List ParamByte)
  /-- POLL -/
  | poll
  /-- `readFIFO(n)`; the bytes join the answer -/
  | drain (n : Nat)
  /-- `writeFIFO(data)` -/
  | fill (params : List ParamByte)
  /-- `TRead(a)`; the byte joins the answer -/
  | readReg (a : Byte)
  /-- `TWrite(a, v)` -/
  | writeReg (a : Byte) (v : Byte)
  deriving DecidableEq, Repr

/-- The calls of a client operation that has a command of its own (R173, R174, R176, R178): the calls
before it, the command with its parameters, the calls after it. Log entry 12. -/
structure ClientPlan where
  before : List ClientStep := []
  icop   : Byte := 0
  params : List ParamByte := []
  after  : List ClientStep := []
  deriving DecidableEq, Repr

/-- One pair of a RadioConfigurator profile (R171), with the value a readback must show where the
profile specifies one. A readback of a register the table does not write is no value of this type: the
model's choice, log entry 19. -/
structure ProfilePair where
  addr   : Byte
  value  : Byte
  expect : Option Byte := none
  deriving DecidableEq, Repr

/-- The parameters of the client extension: what 45_client_extension.md says is not in the source.
CFG_REF has no value for any of them, and `Cfg.legal` asks nothing of them (log entry 12). -/
structure ClientCfg where
  /-- PROFILE (R171): profile code and its pairs in table order -/
  profiles : List (Byte × List ProfilePair) := []
  /-- LOADKEY's dedicated command (R173) over the operand bytes k0..k5 -/
  loadKey : ClientPlan := { params := [.operandsFrom 0] }
  /-- AUTH's command (R174) over keyType, blockNum, n, uid; its POLL follows the plan -/
  auth : ClientPlan := { params := [.operand 0, .operand 1, .operandsFrom 3] }
  /-- the register that reports the authenticated state (R174) -/
  authReg : Byte := 0
  /-- the bit of it; with 0, the default, no AUTH ends OK (log entry 17) -/
  authMask : Byte := 0
  /-- whether a poll that expires is reported as a rejection (R174: how the two are told apart is
  not in the source) -/
  authTimeoutRejects : Bool := false
  /-- IC opcode and parameters of a block read (R175) over blockNum -/
  rdBlkOp : Byte := 0
  rdBlkParams : List ParamByte := [.operand 0]
  /-- the calls of a block write (R176) over blockNum, d0..d15 -/
  wrBlk : ClientPlan := { params := [.operandsFrom 0] }
  /-- the acknowledgement a block write must collect, if it is looked at -/
  wrBlkAck : Option (List Byte) := none
  /-- IC opcode and parameters of a page read (R177) over page low, page high -/
  rdPageOp : Byte := 0
  rdPageParams : List ParamByte := [.operand 0, .operand 1]
  /-- the calls of a page write (R178) over page low, page high, d0..d3 -/
  wrPage : ClientPlan := { params := [.operandsFrom 0] }
  /-- the acknowledgement a page write must collect, if it is looked at -/
  wrPageAck : Option (List Byte) := none
  deriving DecidableEq, Repr

/-- CFG (R7): the field names follow the spec's. -/
structure Cfg where
  fifoCap         : Nat
  regCommand      : Byte
  regFifoControl  : Byte
  vFifoFlush      : Byte
  regFifoLength   : Byte
  regIrq          : Byte
  vIrqClear       : Byte
  mDone           : Byte
  mErrColl        : Byte
  mErrCrc         : Byte
  regStatus       : Byte
  regFrameCfg     : Byte
  vFrameShort7    : Byte
  vFrameStd       : Byte
  icCmdTransceive : Byte
  icCmdSelect     : Byte
  icCmdSoftReset  : Byte
  piccReqa        : Byte
  piccWupa        : Byte
  selCl1          : Byte
  selCl2          : Byte
  selCl3          : Byte
  ct              : Byte
  mSakCascade     : Byte
  ctFinalAccept   : Bool
  budgetDefault   : Half
  intervalDefault : Half
  tSettle         : Nat
  extClient       : Bool
  client          : ClientCfg := {}
  deriving DecidableEq, Repr

/-- The constraints a legal CFG meets (R7's constraint column; R88: bit 7 of the short-frame bytes
is 0; CT is fixed by the source). The model's choice, since R7 has no row for them: nothing is asked of
the client extension's parameters, so a legal CFG may send commands without their operands (log entry
12) and may have no authenticated state (log entry 17). -/
def Cfg.legal (c : Cfg) : Bool :=
  decide (1 ≤ c.fifoCap) && decide (c.fifoCap ≤ 255)
  && decide ([c.regCommand, c.regFifoControl, c.regFifoLength, c.regIrq, c.regStatus,
      c.regFrameCfg].Nodup)
  && decide (c.mDone ≠ 0) && decide (c.mErrColl ≠ 0) && decide (c.mErrCrc ≠ 0)
  && decide (c.mDone &&& c.mErrColl = 0) && decide (c.mDone &&& c.mErrCrc = 0)
  && decide (c.mErrColl &&& c.mErrCrc = 0)
  && decide (c.piccReqa ≠ c.piccWupa)
  && decide (c.piccReqa &&& 0x80 = 0) && decide (c.piccWupa &&& 0x80 = 0)
  && decide ([c.selCl1, c.selCl2, c.selCl3].Nodup)
  && decide (c.ct = 0x88) && decide (c.mSakCascade ≠ 0)
  && decide (1 ≤ c.intervalDefault.toNat)

/-- CFG_REF, the column of R7. -/
def Cfg.ref : Cfg where
  fifoCap := 255
  regCommand := 0x00
  regFifoControl := 0x02
  vFifoFlush := 0x10
  regFifoLength := 0x04
  regIrq := 0x06
  vIrqClear := 0x7F
  mDone := 0x04
  mErrColl := 0x01
  mErrCrc := 0x02
  regStatus := 0x0B
  regFrameCfg := 0x2E
  vFrameShort7 := 0x0F
  vFrameStd := 0x08
  icCmdTransceive := 0x07
  icCmdSelect := 0x07
  icCmdSoftReset := 0x1F
  piccReqa := 0x26
  piccWupa := 0x52
  selCl1 := 0x93
  selCl2 := 0x95
  selCl3 := 0x97
  ct := 0x88
  mSakCascade := 0x04
  ctFinalAccept := true
  budgetDefault := 50
  intervalDefault := 1
  tSettle := 0
  extClient := false

/-- Free value: what the environment does at the `n`-th micro-step that no tape fixes (R11 `draw`,
R12, R55). Log entry 1. -/
opaque Config.envMove : Nat → EnvMove

/-- Free value: COUNT where the spec states none, for the results of CONFIGURE, LOADKEY and AUTH
that carry no count (R171, R173, R174; R84 has no row for them). Log entry 13. -/
opaque Config.clientCount : Nat → Byte

/-- Free value: what the IC's key slot holds after a LOADKEY whose calls did not all complete, because a
code ended them or RESET cut them (R173, U6), or met the settle window or a reset of the device (R226,
U4, R45). Log entries 14 and 27. -/
opaque Config.keyAfterFailure : Nat → Option (List Byte)

/-- Free value: the command the reference device has pending after a primitive inside the settle window,
whose effects are draws (R226, U4). Log entry 26. -/
opaque Config.refPend : Nat → Option ScriptEntry

end Sys2Proof.Machine
end

