-- ==== Sys2Proof/Machine/State.lean ====
section
/-! DEFINITION. The state: PE's registers (spec 10_state.md R20, exactly these), the device behind
the transport port (R40 to R44), the two ports' streams, and the model's own bookkeeping for the
environment. All plain data. `State.reset` is the machine right after RESET (R45, R221). -/

namespace Sys2Proof.Machine

/-- SEQ, the sequencer position and PE's program counter (R24). The encodings 5, 6 and 7 are never
held, so they have no constructor. -/
inductive Seq where
  /-- 0: no discovery attempt is open -/
  | idle
  /-- 1: a REQA or WUPA is running, or ended with a non-zero ATQA -/
  | request
  /-- 2: a SELECT is running -/
  | select
  /-- 3: the UID and SAK are assembled -/
  | selected
  /-- 4: the attempt ended with an error result -/
  | failed
  deriving DecidableEq, Repr

/-- The result codes of R190; 12 to 15 are never produced, so they have no constructor. -/
inductive Result where
  | ok | noTag | commErr | timeout | protoCollision | protoCrc | protoShort | protoCascade
  | authRejected | badSeq | badOp | badArg
  deriving DecidableEq, Repr

/-- PE's registers (R20). -/
structure Regs where
  /-- ATQA, 16 bits (R22) -/
  atqa         : Half
  /-- UID[0..9], ten bytes (R23) -/
  uid          : Vector Byte 10
  /-- UIDLEN, 4 bits (R23) -/
  uidLen       : BitVec 4
  /-- SAK, 8 bits (R23) -/
  sak          : Byte
  /-- SEQ, 3 bits (R24) -/
  seq          : Seq
  /-- LEVEL, 2 bits (R25) -/
  level        : BitVec 2
  /-- RESULT, 4 bits (R27) -/
  result       : Result
  /-- COUNT, 8 bits (R28) -/
  count        : Byte
  /-- BUSY, 1 bit (R29) -/
  busy         : Bool
  /-- POLL_BUDGET, 16 bits (R31) -/
  pollBudget   : Half
  /-- POLL_INTERVAL, 16 bits (R31) -/
  pollInterval : Half
  /-- ELAPSED, 17 bits (R32) -/
  elapsed      : BitVec 17
  deriving DecidableEq, Repr

/-- The machine and what surrounds it. -/
structure State where
  /-- CFG (R7): fixed for the machine, written by nothing -/
  cfg    : Cfg
  /-- PE's registers (R20) -/
  pe     : Regs
  /-- the device state PE observes through the transport port (R40 to R44) -/
  dev    : Device
  /-- ticks left in which the device may not be accessed after its reset command (R226, U4) -/
  settle : Nat
  /-- the environment behind the transport port (R13) -/
  agent  : Agent
  /-- the model's counter of free values drawn so far -/
  drawn  : Nat
  /-- what the outside will do at the host port, next first (R92) -/
  host   : List HostEvent
  /-- the responses PE has sent, in order (R84, R92) -/
  sent   : List (List Byte)
  /-- the micro-steps PE has made with their answers, in order (R92) -/
  bus    : List BusStep
  deriving DecidableEq, Repr

/-- Why the machine stops with a fault. -/
inductive Fault where
  /-- raised by the operations that run POLL (REQA, WUPA, SELECT and the client operations) in a
  state whose POLL_INTERVAL is 0: there the poll loop of R125 has no bound. R33 (vi) excludes such a
  state and no step from a state that meets R33 leads to one. Safe: the model stops where a device
  could still end the loop. -/
  | pollIntervalZero
  deriving DecidableEq, Repr

/-- Why the machine refuses. -/
inductive Refusal where
  /-- raised by exec alone for an instruction that has no meaning yet (there is none). Safe. -/
  | notModelled (mnemonic : String)
  deriving DecidableEq, Repr

/-- PE's registers after RESET (R45, R221) under a configuration. -/
def Regs.afterReset (c : Cfg) : Regs where
  atqa := 0
  uid := Vector.replicate 10 0
  uidLen := 0
  sak := 0
  seq := .idle
  level := 0
  result := .ok
  count := 0
  busy := false
  pollBudget := c.budgetDefault
  pollInterval := c.intervalDefault
  elapsed := 0

/-- The machine right after RESET under a configuration, before any input. R45 leaves the device
state unspecified: the registers hold the value the log names (entry 2), and every micro-step begins
with a move of the environment, drawn under no law, before PE sees any of them. -/
def State.resetWith (c : Cfg) : State where
  cfg := c
  pe := Regs.afterReset c
  dev := {}
  settle := 0
  agent := .any []
  drawn := 0
  host := []
  sent := []
  bus := []

/-- The machine right after reset, under the spec's reference configuration (log entry 4). -/
def State.reset : State := State.resetWith Cfg.ref

end Sys2Proof.Machine
end

