-- ==== Sys2Proof/Machine/Agent.lean ====
section
/-! DEFINITION. What the device does on its own (spec 10_state.md R40 to R44), how an IC register
reads and takes a write (20_memory.md R51, R52, R56 to R59), and where the moves of the environment
come from: the listed ones, the free draws, or the reference device of R70 to R74. -/

namespace Sys2Proof.Machine

/-- A drawn device state, brought into the form a device can have: at most FIFO_CAP bytes in the
FIFO (R40), the register space in canonical form. -/
def Device.shaped (c : Cfg) (d : Device) : Device :=
  { d with fifo := d.fifo.take c.fifoCap, regs := Memory.normalise d.regs }

/-- One step of the device's own (R40 to R44). -/
def Device.takeStep (c : Cfg) (d : Device) : DevStep → Device
  | .transmit n => { d with fifo := d.fifo.drop n }
  | .receive bs => { d with fifo := (d.fifo ++ bs).take c.fifoCap }
  | .raise bits => { d with irq := d.irq ||| bits }
  | .showStatus b => { d with status := b }
  | .showCommand b => { d with cmd := b }
  | .showFrame b => { d with frame := b }
  | .showRegister a b => { d with regs := d.regs.write a.toNat b }
  | .deviceReset d' => d'.shaped c

/-- Any finite number of the device's own steps, in order (R12, R63). -/
def Device.takeSteps (c : Cfg) (d : Device) (l : List DevStep) : Device :=
  l.foldl (Device.takeStep c) d

/-- The present value of the IC register at an address (R51): the length register reads as the FIFO
occupancy (R56), the named registers as themselves, the rest as stored. -/
def Device.readReg (c : Cfg) (d : Device) (a : Byte) : Byte :=
  if a = c.regFifoLength then BitVec.ofNat 8 (min d.fifo.length 255)
  else if a = c.regIrq then d.irq
  else if a = c.regStatus then d.status
  else if a = c.regCommand then d.cmd
  else if a = c.regFrameCfg then d.frame
  else d.regs.read a.toNat

/-- Whether a law of R56 to R59 fixes what the register at an address reads as. -/
def Cfg.lawful (c : Cfg) (a : Byte) : Bool :=
  decide (a = c.regFifoLength) || decide (a = c.regIrq) || decide (a = c.regStatus)

/-- The effect of a register write on the device. FIFO flush: R57. Opcode register: R58; the reset
command leaves the rest of the device unspecified (R45, R123). IRQ clear: R59 with R7 ("to clear
every IRQ bit"). Frame configuration: R59. Any other write stores the value (R52), but bits of the
IRQ register stay set (R59) and the length register reads as the occupancy whatever is written
(R56): log entry 8. -/
def Device.writeReg (c : Cfg) (m : EnvMove) (d : Device) (a v : Byte) : Device :=
  if a = c.regFifoControl ∧ v = c.vFifoFlush then { d with fifo := [] }
  else if a = c.regIrq then
    if v = c.vIrqClear then { d with irq := 0 } else { d with irq := d.irq ||| m.value.getD v }
  else if a = c.regCommand then
    if v = c.icCmdSoftReset then { m.device.shaped c with cmd := v } else { d with cmd := v }
  else if a = c.regFrameCfg then { d with frame := v }
  else if a = c.regStatus then { d with status := v }
  else if a = c.regFifoLength then d
  else { d with regs := d.regs.write a.toNat v }

/-- The never-completing entry an empty script stands for (R72). -/
def ScriptEntry.never : ScriptEntry := { lat := none, irq := 0, resp := [] }

/-- What completing does to the device (R73). -/
def ScriptEntry.complete (e : ScriptEntry) : List DevStep := [.receive e.resp, .raise e.irq]

/-- Firing (R72): given CMD and the FIFO content after the primitive, the device's reaction and its
state. It is tried where R71 tries it, after a write of the opcode register and after a bulk write, and
nowhere else (DEDUCED, log entry 26). -/
def RefDevice.fire (c : Cfg) (cmd : Byte) (fifo : List Byte) (r : RefDevice) :
    List DevStep × RefDevice :=
  if (cmd = c.icCmdTransceive ∨ cmd = c.icCmdSelect) ∧ r.pend = none ∧ fifo ≠ [] then
    let e := r.script.headD ScriptEntry.never
    let r' := { r with script := r.script.tail, frames := r.frames ++ [fifo] }
    if e.lat = some 0 then (.transmit fifo.length :: e.complete, r')
    else ([.transmit fifo.length], { r' with pend := some e })
  else ([], r)

/-- Ticks passing (R73): the pending command's latency runs down; at 0 it completes. The model's choice: a
command that is pending with latency 0 before the `Wait`, which R70 lets a vector start with and R73 does
not speak of, completes in the next `Wait` (log entry 26). -/
def RefDevice.tick (t : Nat) (r : RefDevice) : List DevStep × RefDevice :=
  match r.pend with
  | some e =>
    match e.lat with
    | some k => if k ≤ t then (e.complete, { r with pend := none })
                else ([], { r with pend := some { e with lat := some (k - t) } })
    | none => ([], r)
  | none => ([], r)

/-- The reference device's answer to one micro-step outside the settle window (R71 to R73): its move,
and its state after. The primitive whose ordinal is in FAILS fails and changes nothing. The model's
choice: its moves never carry RESET, which R70 to R74 do not speak of, so against it RESET falls between
two host words only; RESET inside an operation (R220) is a listed or a free move. The model's choice too:
where a configuration gives IC_CMD_SOFTRESET the value of a firing opcode, writing it resets and does not
fire, whatever the FIFO held (R72 states both). Both: log entry 26. -/
def RefDevice.answer (c : Cfg) (d : Device) (r : RefDevice) (op : BusOp) : EnvMove × RefDevice :=
  match op with
  | .wait t => let p := r.tick t; ({ react := p.1 }, p.2)
  | op =>
    let r := { r with ordinal := r.ordinal + 1 }
    if r.fails.contains r.ordinal then ({ fails := true }, r)
    else match op with
      | .read a => ({ value := if c.lawful a then none else some 0 }, r)
      | .write a v =>
        if a = c.regCommand then
          let r := { r with pend := none }
          if v = c.icCmdSoftReset then
            ({ device := { d with fifo := [], cmd := v, irq := 0, frame := 0 } }, r)
          else let p := r.fire c v d.fifo; ({ react := p.1 }, p.2)
        else if a = c.regFrameCfg ∨ a = c.regIrq ∨ (a = c.regFifoControl ∧ v = c.vFifoFlush) then
          ({ value := some 0 }, r)
        else ({ react := [.showStatus d.status, .showRegister a (d.regs.read a.toNat)] }, r)
      | .fifoWrite bs => let p := r.fire c d.cmd (d.fifo ++ bs); ({ react := p.1 }, p.2)
      | .fifoRead _ => ({}, r)
      | .wait _ => ({}, r)

/-- Whether a micro-step accesses the device inside the settle window (R226, U4). -/
def State.inWindow (op : BusOp) (s : State) : Bool :=
  match op with
  | .wait _ => false
  | _ => s.settle != 0

/-- The reference device after a primitive inside the settle window: it was made, what it left pending
is a free value (R226, U4; log entry 26). -/
def RefDevice.unsettled (n : Nat) (r : RefDevice) : RefDevice :=
  { r with ordinal := r.ordinal + 1, pend := Config.refPend n }

/-- The move of the environment for the micro-step PE makes next (R12, R55): the next listed one, a
free draw when none is listed (log entry 1), or the reference device's answer. An access inside the
settle window is a draw against the reference device too, never a normal access (R226, U4). -/
def State.moveFor (op : BusOp) (s : State) : EnvMove :=
  match s.agent with
  | .any [] => Config.envMove s.drawn
  | .any (m :: _) => m
  | .reference r =>
    if s.inWindow op then { Config.envMove s.drawn with reset := false }
    else (r.answer s.cfg s.dev op).1

/-- The state once the environment has made the steps it takes before this micro-step (R12). -/
def State.arrive (op : BusOp) (s : State) : State :=
  let dev := s.dev.takeSteps s.cfg (s.moveFor op).steps
  match s.agent with
  | .any [] => { s with dev := dev, drawn := s.drawn + 1 }
  | .any (_ :: rest) => { s with dev := dev, agent := .any rest }
  | .reference r =>
    if s.inWindow op then
      { s with dev := dev, agent := .reference (r.unsettled s.drawn), drawn := s.drawn + 1 }
    else { s with dev := dev, agent := .reference (r.answer s.cfg s.dev op).2 }

end Sys2Proof.Machine
end

