-- ==== Sys2Proof/Machine/Flags.lean ====
section
/-! DEFINITION. The codes of SEQ (spec 10_state.md R24) and RESULT (60_exceptions.md R190), the bytes
of a response (30_encoding.md R84), and the tests of the device's IRQ bits (42_command_engine.md
R125, R126). PE has no arithmetic flags (R29). -/

namespace Sys2Proof.Machine

/-- The encoding of SEQ (R24). -/
def Seq.code : Seq → BitVec 3
  | .idle => 0
  | .request => 1
  | .select => 2
  | .selected => 3
  | .failed => 4

/-- The encoding of RESULT (R190). -/
def Result.code : Result → BitVec 4
  | .ok => 0
  | .noTag => 1
  | .commErr => 2
  | .timeout => 3
  | .protoCollision => 4
  | .protoCrc => 5
  | .protoShort => 6
  | .protoCascade => 7
  | .authRejected => 8
  | .badSeq => 9
  | .badOp => 10
  | .badArg => 11

/-- What a host operation answers: the result code, the count and the DATA bytes (R84). -/
structure Response where
  code  : Result
  count : Byte
  data  : List Byte
  deriving DecidableEq, Repr

/-- The response as it travels: `[RESULT, COUNT] ++ DATA`, the code in bits 3..0 of byte 0 (R84). -/
def Response.bytes (r : Response) : List Byte := r.code.code.setWidth 8 :: r.count :: r.data

/-- The terminal condition one read of the IRQ register shows, in the order of R126: collision,
then framing or CRC, then completion; `none` when no terminal bit is set. -/
def irqVerdict (c : Cfg) (v : Byte) : Option Result :=
  if v &&& c.mErrColl ≠ 0 then some .protoCollision
  else if v &&& c.mErrCrc ≠ 0 then some .protoCrc
  else if v &&& c.mDone ≠ 0 then some .ok
  else none

end Sys2Proof.Machine
end

