-- ==== Sys2Proof/Machine/Ops.lean ====
section
/-! DEFINITION. The shared operations: the replies of PE's procedures, RESET (spec
70_reset_and_hazards.md R220), the four transport primitives and `Wait` as micro-steps
(00_scope.md R12, 20_memory.md R50 to R55, R63), sending a response, and ending an operation with a
non-OK code (60_exceptions.md R196 with `fail`, 43_iso14443a_sequencer.md R150). There is no return
from such an ending (R200): PE is ready for the next host word. -/

namespace Sys2Proof.Machine

/-- How a procedure ends: with its value, with a result code other than OK (R11 `raise`), or cut
short by RESET (R220). Each carries the state it leaves. -/
inductive Reply (α : Type) where
  | ok (a : α) (s : State)
  | err (c : Result) (s : State)
  | cut (s : State)
  deriving DecidableEq, Repr

/-- Go on with the value; a code or a RESET ends everything after it (R11, R192). -/
def Reply.bind {α β : Type} (r : Reply α) (f : α → State → Reply β) : Reply β :=
  match r with
  | .ok a s => f a s
  | .err c s => .err c s
  | .cut s => .cut s

/-- The state a reply carries. -/
def Reply.state {α : Type} : Reply α → State
  | .ok _ s => s
  | .err _ s => s
  | .cut s => s

/-- RESET (R220, R221): every PE register gets its reset value, no primitive is issued, no response
is sent; the device and everything outside PE stay as they are. -/
def State.resetPe (s : State) : State := { s with pe := Regs.afterReset s.cfg }

/-- RESET after a micro-step abandons the operation (R220). -/
def conclude {α : Type} (m : EnvMove) (r : Reply α) : Reply α :=
  if m.reset then .cut r.state.resetPe else r

/-- The micro-step enters the stream the device observes (R92), and the device reacts (R12). -/
def State.record (m : EnvMove) (op : BusOp) (ans : BusAnswer) (s : State) : State :=
  { s with dev := s.dev.takeSteps s.cfg m.react, bus := s.bus ++ [{ op := op, answer := ans }] }

/-- The byte `TRead` returns: the register's present value (R51); inside the settle window (U4) and
at an address under no law the device may answer any value. -/
def State.readValue (m : EnvMove) (a : Byte) (s : State) : Byte :=
  if s.settle ≠ 0 ∨ s.cfg.lawful a = false then m.value.getD (s.dev.readReg s.cfg a)
  else s.dev.readReg s.cfg a

/-- `TRead(a)` (R51): one micro-step; a failure is COMM_ERR (R55, R192). -/
def tRead (a : Byte) (s : State) : Reply Byte :=
  let m := s.moveFor (.read a)
  let s := s.arrive (.read a)
  if m.fails then conclude m (.err .commErr (s.record m (.read a) .failed))
  else
    let v := s.readValue m a
    conclude m (.ok v (s.record m (.read a) (.value v)))

/-- The settle window after a write: the reset command opens it for T_SETTLE ticks (R226). -/
def settleAfter (c : Cfg) (a v : Byte) (left : Nat) : Nat :=
  if a = c.regCommand ∧ v = c.icCmdSoftReset then c.tSettle else left

/-- What a register write leaves behind: its effect (R52), nothing when it failed before it took
effect (U6), any device state inside the settle window (U4). -/
def State.written (m : EnvMove) (a v : Byte) (s : State) : State :=
  if s.settle ≠ 0 then
    { s with dev := m.device.shaped s.cfg, settle := settleAfter s.cfg a v s.settle }
  else if m.fails = true ∧ m.landed = 0 then s
  else { s with dev := s.dev.writeReg s.cfg m a v, settle := settleAfter s.cfg a v s.settle }

/-- `TWrite(a, v)` (R52): one micro-step; a failure is COMM_ERR (R55, R192). -/
def tWrite (a v : Byte) (s : State) : Reply Unit :=
  let m := s.moveFor (.write a v)
  let s := (s.arrive (.write a v)).written m a v
  if m.fails then conclude m (.err .commErr (s.record m (.write a v) .failed))
  else conclude m (.ok () (s.record m (.write a v) .done))

/-- `n` bytes under no law (R53 "draws"). -/
def drawnBytes (m : EnvMove) (n : Nat) : List Byte :=
  (List.range n).map fun i => m.bytes.getD i 0

/-- The bytes a completed `TFifoRead(n)` returns: `take(n, FIFO)`, draws beyond the valid region
(R53, U2), fewer when the transport moves fewer (R103); anything inside the settle window (U4). -/
def State.fifoBytes (m : EnvMove) (n : Nat) (s : State) : List Byte :=
  if s.settle ≠ 0 then m.bytes.take n
  else
    (s.dev.fifo ++ drawnBytes m (n - s.dev.fifo.length)).take (min n (m.moved.getD n))

/-- What `TFifoRead(n)` leaves in the device: the bytes delivered are gone (R53); after a failure
any number up to `n` may be gone (U6); any device state inside the settle window (U4). -/
def State.fifoTaken (m : EnvMove) (n : Nat) (s : State) : State :=
  if s.settle ≠ 0 then { s with dev := m.device.shaped s.cfg }
  else if m.fails then { s with dev := { s.dev with fifo := s.dev.fifo.drop (min m.landed n) } }
  else { s with dev := { s.dev with fifo := s.dev.fifo.drop (min n (m.moved.getD n)) } }

/-- `TFifoRead(n)` (R53): one micro-step; a failure is COMM_ERR (R55, R192). -/
def tFifoRead (n : Nat) (s : State) : Reply (List Byte) :=
  let m := s.moveFor (.fifoRead n)
  let s := s.arrive (.fifoRead n)
  if m.fails then conclude m (.err .commErr ((s.fifoTaken m n).record m (.fifoRead n) .failed))
  else
    let d := s.fifoBytes m n
    conclude m (.ok d ((s.fifoTaken m n).record m (.fifoRead n) (.bytes d)))

/-- What `TFifoWrite(bs)` leaves in the device: the bytes appended (R54), fewer when the transport
moves fewer (R105); after a failure any prefix of them (U6); any FIFO content when there was no room
for all (R54, U3); any device state inside the settle window (U4). -/
def State.fifoFilled (m : EnvMove) (bs : List Byte) (s : State) : State :=
  if s.settle ≠ 0 then { s with dev := m.device.shaped s.cfg }
  else if m.fails then
    { s with dev := { s.dev with fifo := (s.dev.fifo ++ bs.take m.landed).take s.cfg.fifoCap } }
  else if bs.length ≤ s.cfg.fifoCap - s.dev.fifo.length then
    { s with dev := { s.dev with fifo := s.dev.fifo ++ bs.take (m.moved.getD bs.length) } }
  else { s with dev := { s.dev with fifo := m.device.fifo.take s.cfg.fifoCap } }

/-- The count a completed `TFifoWrite(bs)` returns: `len(bs)` (R54), or what the transport reports
when it moves fewer (R105) or the call has no meaning (U3, U4). -/
def fifoReported (m : EnvMove) (bs : List Byte) : Nat := m.moved.getD bs.length

/-- `TFifoWrite(bs)` (R54): one micro-step; a failure is COMM_ERR (R55, R192). -/
def tFifoWrite (bs : List Byte) (s : State) : Reply Nat :=
  let m := s.moveFor (.fifoWrite bs)
  let s := (s.arrive (.fifoWrite bs)).fifoFilled m bs
  if m.fails then conclude m (.err .commErr (s.record m (.fifoWrite bs) .failed))
  else
    let k := fifoReported m bs
    conclude m (.ok k (s.record m (.fifoWrite bs) (.count k)))

/-- `Wait(t)` (R63): `t` ticks pass, PE does nothing else; the settle window runs down. -/
def waitTicks (t : Nat) (s : State) : Reply Unit :=
  let m := s.moveFor (.wait t)
  let s := s.arrive (.wait t)
  conclude m (.ok () ({ s with settle := s.settle - t }.record m (.wait t) .done))

/-- Send a response and become ready: RESULT and COUNT are written (R27, R28), the bytes go out
(R84), BUSY falls (R80). -/
def State.respond (r : Response) (s : State) : State :=
  { s with
    pe := { s.pe with result := r.code, count := r.count, busy := false }
    sent := s.sent ++ [r.bytes] }

/-- Send a response without writing RESULT and COUNT: RDCTL and WRCTL (R84, R129, R130). -/
def State.answer (r : Response) (s : State) : State :=
  { s with pe := { s.pe with busy := false }, sent := s.sent ++ [r.bytes] }

/-- End an operation with a non-OK code (R196): RESULT and COUNT 0 are written, `[c, 0]` is sent,
BUSY falls; nothing else changes. -/
def State.raiseCode (c : Result) (s : State) : State :=
  s.respond { code := c, count := 0, data := [] }

/-- Clear the Tag registers (R141, R150, R123). -/
def Regs.clearTag (p : Regs) : Regs :=
  { p with atqa := 0, uid := Vector.replicate 10 0, uidLen := 0, sak := 0 }

/-- `fail(c)` (R150): SEQ becomes FAILED, the Tag registers are cleared, LEVEL keeps its value, and
the operation ends with the code. -/
def State.fail (c : Result) (s : State) : State :=
  { s with pe := { s.pe.clearTag with seq := .failed } }.raiseCode c

/-- The end of an operation outside the sequencer: its response, its code (R196), or nothing after
RESET (R220). -/
def Reply.finish : Reply Response → State
  | .ok r s => s.respond r
  | .err c s => s.raiseCode c
  | .cut s => s

/-- The end of a sequencer operation: as `Reply.finish`, but a code goes through `fail` (R196). -/
def Reply.finishAttempt : Reply Response → State
  | .ok r s => s.respond r
  | .err c s => s.fail c
  | .cut s => s

end Sys2Proof.Machine
end

