-- ==== Sys2Proof/Machine/Engine.lean ====
section
/-! DEFINITION. PE's internal procedures, which have no op code: the FIFO controller's (spec
41_fifo_controller.md R100, R102, R105, R107), `writeCommand`, POLL and XCHG
(42_command_engine.md R120, R124, R125, R128). They write no PE register but ELAPSED. -/

namespace Sys2Proof.Machine

/-- `fifoLength()` (R100): one read of the length register, clamped to FIFO_CAP. -/
def fifoLength (s : State) : Reply Nat :=
  (tRead s.cfg.regFifoLength s).bind fun raw s => .ok (min raw.toNat s.cfg.fifoCap) s

/-- `readFIFO(maxLen)` (R102, R103): never more than the reported occupancy, no bulk read for 0
bytes, a short return believed. -/
def readFifo (maxLen : Nat) (s : State) : Reply (List Byte) :=
  (fifoLength s).bind fun occ s =>
    let n := min maxLen occ
    if n = 0 then .ok [] s
    else (tFifoRead n s).bind fun d s => .ok (d.take n) s

/-- `writeFIFO(data)` (R105): the overflow guard; the first bytes that fit, no bulk write for 0
bytes, a short write believed. -/
def writeFifo (data : List Byte) (s : State) : Reply Nat :=
  (fifoLength s).bind fun occ s =>
    let w := min data.length (s.cfg.fifoCap - occ)
    if w = 0 then .ok 0 s
    else (tFifoWrite (data.take w) s).bind fun k s => .ok (min k w) s

/-- `clearFIFO()` (R107): one blind write. -/
def clearFifo (s : State) : Reply Unit := tWrite s.cfg.regFifoControl s.cfg.vFifoFlush s

/-- `writeCommand(icop, params)` (R120): the opcode register first, the parameters second; with no
parameters the FIFO is not even queried. -/
def writeCommand (icop : Byte) (params : List Byte) (s : State) : Reply Nat :=
  (tWrite s.cfg.regCommand icop s).bind fun _ s =>
    if params.length = 0 then .ok 0 s else writeFifo params s

/-- The loop of POLL (R125) with budget `b` and interval `i`. The fuel only makes the recursion
structural: with `i ≥ 1` and the fuel `pollReads b i` the budget test ends the loop first (R127). -/
def pollLoop (b i : Half) : Nat → State → Reply Unit
  | 0, s => .err .timeout s
  | fuel + 1, s =>
    (tRead s.cfg.regIrq s).bind fun v s =>
      match irqVerdict s.cfg v with
      | some .ok => .ok () s
      | some c => .err c s
      | none =>
        if b.setWidth 17 < s.pe.elapsed then .err .timeout s
        else (waitTicks i.toNat s).bind fun _ s =>
          pollLoop b i fuel { s with pe := { s.pe with elapsed := s.pe.elapsed + i.setWidth 17 } }

/-- `N = floor(POLL_BUDGET / POLL_INTERVAL) + 2` (R127). -/
def pollReads (b i : Half) : Nat := b.toNat / i.toNat + 2

/-- POLL (R124, R125): both poll registers are read once, at the start; ELAPSED starts at 0. -/
def poll (s : State) : Reply Unit :=
  pollLoop s.pe.pollBudget s.pe.pollInterval (pollReads s.pe.pollBudget s.pe.pollInterval)
    { s with pe := { s.pe with elapsed := 0 } }

/-- XCHG (R128): clear, configure, clear the IRQ bits, issue, poll, drain. -/
def xchg (fc icop : Byte) (params : List Byte) (need : Nat) (s : State) : Reply (List Byte) :=
  (clearFifo s).bind fun _ s =>
  (tWrite s.cfg.regFrameCfg fc s).bind fun _ s =>
  (tWrite s.cfg.regIrq s.cfg.vIrqClear s).bind fun _ s =>
  (writeCommand icop params s).bind fun k s =>
    if k < params.length then .err .protoShort s
    else (poll s).bind fun _ s => readFifo need s

end Sys2Proof.Machine
end

