-- ==== Sys2Proof/Machine/FifoController.lean ====
section
/-! DEFINITION. The FIFO controller's host operations FIFOLEN, FIFORD, FIFOWR, FIFOCLR (spec
41_fifo_controller.md R101, R104, R106, R108). -/

namespace Sys2Proof.Machine

/-- The response of an operation that returns a count and no data. -/
def countResponse (k : Nat) : Response := { code := .ok, count := BitVec.ofNat 8 k, data := [] }

/-- The response of an operation that returns bytes and their number. -/
def dataResponse (d : List Byte) : Response :=
  { code := .ok, count := BitVec.ofNat 8 d.length, data := d }

/-- FIFOLEN (R101). -/
def execFifolen (s : State) : Host.Outcome State Fault Refusal :=
  .next ((fifoLength s).bind fun k s => .ok (countResponse k) s).finish

/-- FIFORD (R104). -/
def execFiford (maxLen : Byte) (s : State) : Host.Outcome State Fault Refusal :=
  .next ((readFifo maxLen.toNat s).bind fun d s => .ok (dataResponse d) s).finish

/-- FIFOWR (R106). -/
def execFifowr (data : List Byte) (s : State) : Host.Outcome State Fault Refusal :=
  .next ((writeFifo data s).bind fun k s => .ok (countResponse k) s).finish

/-- FIFOCLR (R108). -/
def execFifoclr (s : State) : Host.Outcome State Fault Refusal :=
  .next ((clearFifo s).bind fun _ s => .ok (countResponse 0) s).finish

end Sys2Proof.Machine
end

