-- ==== Sys2Proof/Machine/Operands.lean ====
section
/-! DEFINITION. Operand forms: the control-register index space (spec 10_state.md R30), the UID
registers' indices (R23), the cascade level's select code (30_encoding.md R88), the assembly of ATQA
(20_memory.md R60) and the parameter layouts of the client extension. -/

namespace Sys2Proof.Machine

/-- `zext_16(CR[idx])` for every index of R30, `none` for any other index. -/
def ctlRead (s : State) (idx : Byte) : Option Half :=
  match idx.toNat with
  | 0x00 => some s.pe.pollBudget
  | 0x01 => some s.pe.pollInterval
  | 0x02 => some (s.pe.seq.code.setWidth 16)
  | 0x03 => some (s.pe.level.setWidth 16)
  | 0x04 => some (s.pe.result.code.setWidth 16)
  | 0x05 => some (s.pe.count.setWidth 16)
  | 0x06 => some s.pe.atqa
  | 0x07 => some (s.pe.sak.setWidth 16)
  | 0x08 => some (s.pe.uidLen.setWidth 16)
  | 0x09 => some ((BitVec.ofNat 8 s.cfg.fifoCap).setWidth 16)
  | n => if 0x10 ≤ n then s.pe.uid[n - 0x10]?.map (fun b => b.setWidth 16) else none

/-- `UID[at ..] <- bs`: the bytes in order, none beyond UID[9] (R23, R147). -/
def uidWrite (u : Vector Byte 10) (i : Nat) : List Byte → Vector Byte 10
  | [] => u
  | b :: bs => uidWrite (u.setIfInBounds i b) (i + 1) bs

/-- `SEL_CL(L)` (R147). -/
def selectCode (c : Cfg) (level : Nat) : Byte :=
  if level = 1 then c.selCl1 else if level = 2 then c.selCl2 else c.selCl3

/-- The bytes one layout entry gives, over the operand bytes of the host word. -/
def ParamByte.bytes (operands : List Byte) : ParamByte → List Byte
  | .lit b => [b]
  | .operand i => operands[i]?.toList
  | .operandFromEnd i => operands.reverse[i]?.toList
  | .operandsFrom i => operands.drop i
  | .mapped i table => (operands[i]?.bind fun b => table[b.toNat]?).toList

/-- The bytes a layout gives. -/
def layoutBytes (operands : List Byte) (l : List ParamByte) : List Byte :=
  l.flatMap (ParamByte.bytes operands)

/-- All calls of a plan, in order. -/
def ClientPlan.steps (p : ClientPlan) : List ClientStep :=
  p.before ++ .command p.icop p.params :: p.after

/-- Whether a call of a plan resets the device: it writes the reset command (R58, R123). -/
def ClientStep.resetsDevice (c : Cfg) : ClientStep → Bool
  | .command icop _ => icop == c.icCmdSoftReset
  | .writeReg a v => a == c.regCommand && v == c.icCmdSoftReset
  | _ => false

/-- Whether every primitive of a plan begun in this state falls outside the settle window (R226): the
window is closed and no call resets the device. -/
def ClientPlan.settled (p : ClientPlan) (s : State) : Bool :=
  s.settle == 0 && p.steps.all fun call => !call.resetsDevice s.cfg

end Sys2Proof.Machine
end

