-- ==== Sys2Proof/Machine/Sequencer.lean ====
section
/-! DEFINITION. The ISO 14443-A sequencer: REQA, WUPA, SELECT (spec 43_iso14443a_sequencer.md R140 to
R150). -/

namespace Sys2Proof.Machine

/-- Opening an attempt (R141): whatever came before is discarded, then SEQ is REQUEST. -/
def State.openAttempt (s : State) : State :=
  { s with pe := { s.pe.clearTag with seq := .request, level := 0 } }

/-- The reading of a completed request exchange (R144, R145): two bytes are ATQA, no byte is ATQA 0,
a single byte is PROTO_SHORT. A zero ATQA is NO_TAG and closes the attempt. -/
def requestOutcome (d : List Byte) (s : State) : Reply Response :=
  match d with
  | [d0, d1] =>
    let atqa := joinBytes d0 d1
    if atqa = 0 then
      .ok { code := .noTag, count := 2, data := [0, 0] }
        { s with pe := { s.pe with atqa := atqa, seq := .idle } }
    else
      .ok { code := .ok, count := 2, data := [d0, d1] } { s with pe := { s.pe with atqa := atqa } }
  | [] =>
    .ok { code := .noTag, count := 2, data := [0, 0] }
      { s with pe := { s.pe with atqa := 0, seq := .idle } }
  | _ => .err .protoShort s

/-- `request(cmd)` (R144). -/
def request (cmd : Byte) (s : State) : Reply Response :=
  (xchg s.cfg.vFrameShort7 s.cfg.icCmdTransceive [cmd] 2 s.openAttempt).bind requestOutcome

/-- A sequencer or client operation that polls: a state with POLL_INTERVAL 0, which R33 (vi)
excludes, has no bounded POLL, and the operation stops there by name. -/
def polling (s : State) (t : State) : Host.Outcome State Fault Refusal :=
  if s.pe.pollInterval = 0 then .fault .pollIntervalZero else .next t

/-- REQA (R142). -/
def execReqa (s : State) : Host.Outcome State Fault Refusal :=
  polling s (request s.cfg.piccReqa s).finishAttempt

/-- WUPA (R143): as REQA but for the byte it sends. -/
def execWupa (s : State) : Host.Outcome State Fault Refusal :=
  polling s (request s.cfg.piccWupa s).finishAttempt

/-- A continuing level (R147, R149): the tag byte is dropped, three UID bytes are kept. -/
def State.keepFragment (f1 f2 f3 : Byte) (s : State) : State :=
  { s with pe := { s.pe with
      uid := uidWrite s.pe.uid s.pe.uidLen.toNat [f1, f2, f3]
      uidLen := s.pe.uidLen + 3 } }

/-- The final level (R147, R149): four UID bytes and the SAK are kept, SEQ is SELECTED. -/
def State.keepFinal (f0 f1 f2 f3 sak : Byte) (s : State) : State :=
  { s with pe := { s.pe with
      uid := uidWrite s.pe.uid s.pe.uidLen.toNat [f0, f1, f2, f3]
      uidLen := s.pe.uidLen + 4
      sak := sak
      seq := .selected } }

/-- The response of a completed SELECT: `UID[0 .. UIDLEN-1] ++ [SAK]` (R147). -/
def selectResponse (s : State) : Response :=
  { code := .ok
    count := s.pe.uidLen.setWidth 8
    data := s.pe.uid.toList.take s.pe.uidLen.toNat ++ [s.pe.sak] }

/-- What one level's answer leads to (the table of R148). -/
inductive LevelOutcome where
  /-- go on with the next level, keeping three bytes -/
  | next (f1 f2 f3 : Byte)
  /-- the UID is complete -/
  | final (f0 f1 f2 f3 sak : Byte)
  /-- fewer than five bytes came (R147) -/
  | short
  /-- the SAK and the tag byte, or the SAK and the level, do not fit (R148) -/
  | cascade
  deriving DecidableEq, Repr

/-- The cascade decision (R147, R148) at a level: the SAK's cascade bit is authoritative. -/
def levelOutcome (c : Cfg) (level : Nat) : List Byte → LevelOutcome
  | f0 :: f1 :: f2 :: f3 :: sak :: _ =>
    if sak &&& c.mSakCascade ≠ 0 then
      if level = 3 ∨ f0 ≠ c.ct then .cascade else .next f1 f2 f3
    else if f0 = c.ct ∧ c.ctFinalAccept = false then .cascade
    else .final f0 f1 f2 f3 sak
  | _ => .short

/-- The cascade loop of R147 over the levels still to run, first the next one. -/
def selectLevels : List Nat → State → Reply Response
  | [], s => .err .protoCascade s
  | level :: more, s =>
    (xchg s.cfg.vFrameStd s.cfg.icCmdSelect [selectCode s.cfg level] 5
        { s with pe := { s.pe with level := BitVec.ofNat 2 level } }).bind fun d s =>
      match levelOutcome s.cfg level d with
      | .short => .err .protoShort s
      | .cascade => .err .protoCascade s
      | .next f1 f2 f3 => selectLevels more (s.keepFragment f1 f2 f3)
      | .final f0 f1 f2 f3 sak =>
        let s := s.keepFinal f0 f1 f2 f3 sak
        .ok (selectResponse s) s

/-- SELECT (R146, R147): admitted only from REQUEST, refused with BAD_SEQ otherwise. -/
def execSelect (s : State) : Host.Outcome State Fault Refusal :=
  if s.pe.seq = .request then
    polling s (selectLevels [1, 2, 3]
      { s with pe := { s.pe with seq := .select } }).finishAttempt
  else .next (s.raiseCode .badSeq)

end Sys2Proof.Machine
end

