-- ==== Sys2Proof/Machine/Client.lean ====
section
/-! DEFINITION. The client extension EXT_CLIENT (spec 45_client_extension.md R170 to R179): CONFIGURE,
LOADKEY, AUTH, RDBLK, WRBLK, RDPAGE, WRPAGE. With EXT_CLIENT = false each answers BAD_OP. With
EXT_CLIENT = true each has the effect its contract states; its micro-sequence, which the source does
not give (91_not_in_source.md N12 to N15), is read from CFG. They write RESULT and COUNT and leave
SEQ and the Tag registers untouched (R170). -/

namespace Sys2Proof.Machine

/-- The factory default key (R173). -/
def keyFactoryDefault : List Byte := [0xFF, 0xFF, 0xFF, 0xFF, 0xFF, 0xFF]

/-- The NDEF key (R173). -/
def keyNdef : List Byte := [0xD3, 0xF7, 0xD3, 0xF7, 0xD3, 0xF7]

/-- The calls of a client operation, in order (R179), over the operand bytes of its host word; the
answer collects what is read. A code ends it. A command whose parameters the overflow guard cuts is
PROTO_SHORT (R194); that a `writeFIFO` it cuts is PROTO_SHORT too is the model's choice (R190 "a
read/write returned less data than required"): log entry 19. -/
def runClient (operands : List Byte) : List ClientStep → List Byte → State → Reply (List Byte)
  | [], acc, s => .ok acc s
  | .clear :: more, acc, s => (clearFifo s).bind fun _ s => runClient operands more acc s
  | .command icop params :: more, acc, s =>
    (writeCommand icop (layoutBytes operands params) s).bind fun k s =>
      if k < (layoutBytes operands params).length then .err .protoShort s
      else runClient operands more acc s
  | .poll :: more, acc, s => (poll s).bind fun _ s => runClient operands more acc s
  | .drain n :: more, acc, s =>
    (readFifo n s).bind fun d s => runClient operands more (acc ++ d) s
  | .fill params :: more, acc, s =>
    (writeFifo (layoutBytes operands params) s).bind fun k s =>
      if k < (layoutBytes operands params).length then .err .protoShort s
      else runClient operands more acc s
  | .readReg a :: more, acc, s =>
    (tRead a s).bind fun b s => runClient operands more (acc ++ [b]) s
  | .writeReg a v :: more, acc, s =>
    (tWrite a v s).bind fun _ s => runClient operands more acc s

/-- The response of a client operation whose COUNT the spec does not state: a free value. -/
def freeCount (c : Result) (s : State) : Reply Response :=
  .ok { code := c, count := Config.clientCount s.drawn, data := [] }
    { s with drawn := s.drawn + 1 }

/-- An operation that polls only if its sequence has a POLL: see `polling`. -/
def pollingPlan (plan : List ClientStep) (s t : State) : Host.Outcome State Fault Refusal :=
  if plan.contains .poll then polling s t else .next t

/-- A client operation: BAD_OP when the extension is off (R170), its meaning when it is on. -/
def ifClient (s : State) (f : Host.Outcome State Fault Refusal) :
    Host.Outcome State Fault Refusal :=
  if s.cfg.extClient then f else .next (s.raiseCode .badOp)

/-- The pairs of a profile written in table order (R171). -/
def writePairs : List ProfilePair → State → Reply Unit
  | [], s => .ok () s
  | p :: more, s => (tWrite p.addr p.value s).bind fun _ s => writePairs more s

/-- The readback where the profile specifies one: a mismatch is COMM_ERR (R171, U12). The model's choice,
where R171 is silent: the registers are read back in table order, once for each pair that carries an
expected value, and nothing is read after the first mismatch (log entry 19). -/
def checkPairs : List ProfilePair → State → Reply Unit
  | [], s => .ok () s
  | p :: more, s =>
    match p.expect with
    | none => checkPairs more s
    | some e =>
      (tRead p.addr s).bind fun v s => if v = e then checkPairs more s else .err .commErr s

/-- The table of a profile code, if it is known (R171). -/
def profilePairs (c : Cfg) (profile : Byte) : Option (List ProfilePair) :=
  (c.client.profiles.find? fun p => p.1 = profile).map (·.2)

/-- CONFIGURE (R171). -/
def execConfigure (profile : Byte) (s : State) : Host.Outcome State Fault Refusal :=
  ifClient s (.next (match profilePairs s.cfg profile with
    | none => s.raiseCode .badArg
    | some pairs =>
      ((writePairs pairs s).bind fun _ s =>
        (checkPairs pairs s).bind fun _ s => freeCount .ok s).finish))

/-- The key slot where the spec leaves open what LOADKEY put into it: a free value (log entries 14,
27). -/
def State.keyLost (s : State) : State :=
  { s with dev := { s.dev with key := Config.keyAfterFailure s.drawn }, drawn := s.drawn + 1 }

/-- What LOADKEY leaves (R173): OK or COMM_ERR only; the IC keeps the key. `held` says that no primitive
fell into a settle window (`ClientPlan.settled`): otherwise each was a draw (R226, U4) and the slot holds
a free value (log entry 27). It holds one too when a code or RESET ended the calls early, also when the
guard cut the key short (log entries 14, 18). The model's choice: a reset the device makes on its own
between the calls (R45) leaves the key in the slot (log entry 27). -/
def loadKeyEnd (held : Bool) (key : List Byte) : Reply (List Byte) → Reply Response
  | .ok _ s =>
    freeCount .ok (if held then { s with dev := { s.dev with key := some key } } else s.keyLost)
  | .err c s => if c = .commErr then .err .commErr s.keyLost else freeCount .ok s.keyLost
  | .cut s => .cut s.keyLost

/-- LOADKEY (R173). -/
def execLoadkey (key : List Byte) (s : State) : Host.Outcome State Fault Refusal :=
  ifClient s (pollingPlan s.cfg.client.loadKey.steps s
    (loadKeyEnd (s.cfg.client.loadKey.settled s) key
      (runClient (Instr.loadkey key).operands s.cfg.client.loadKey.steps [] s)).finish)

/-- How a code met while authenticating is reported (R174: OK, AUTH_REJECTED, COMM_ERR, TIMEOUT are
the only results; R193: TIMEOUT comes from a POLL alone). The model's choice, log entry 17: an error
bit seen while polling (PROTO_COLLISION, PROTO_CRC) and an authenticate command whose parameters the
overflow guard cut (PROTO_SHORT, no POLL made) are AUTH_REJECTED; an expired POLL is what CFG says. -/
def authCode (c : Cfg) : Result → Result
  | .commErr => .commErr
  | .timeout => if c.client.authTimeoutRejects then .authRejected else .timeout
  | _ => .authRejected

/-- The verdict after the poll (R174): the authenticated state is OK, anything else a rejection. -/
def authVerdict (s : State) : Reply Response :=
  (tRead s.cfg.client.authReg s).bind fun v s =>
    if v &&& s.cfg.client.authMask ≠ 0 then freeCount .ok s else freeCount .authRejected s

/-- The end of AUTH: AUTH_REJECTED is a normal negative whose COUNT is a free value (R190, R195). -/
def authEnd : Reply Response → Reply Response
  | .ok r s => .ok r s
  | .err c s =>
    if authCode s.cfg c = .authRejected then freeCount .authRejected s
    else .err (authCode s.cfg c) s
  | .cut s => .cut s

/-- Whether a key type and a UID length are the ones R170 and R174 allow. -/
def authArgsLegal (keyType : Byte) (uid : List Byte) : Bool :=
  decide (keyType.toNat ≤ 1) && (uid.length == 4 || uid.length == 7 || uid.length == 10)

/-- AUTH (R174). -/
def execAuth (keyType blockNum : Byte) (uid : List Byte) (s : State) :
    Host.Outcome State Fault Refusal :=
  ifClient s (if authArgsLegal keyType uid then
    polling s (authEnd
      ((runClient (Instr.auth keyType blockNum uid).operands s.cfg.client.auth.steps [] s).bind
        fun _ s => (poll s).bind fun _ s => authVerdict s)).finish
  else .next (s.raiseCode .badArg))

/-- A read of `need` bytes by one exchange (R175, R177): fewer is PROTO_SHORT. -/
def clientRead (icop : Byte) (params : List Byte) (need : Nat) (s : State) : Reply Response :=
  (xchg s.cfg.vFrameStd icop params need s).bind fun d s =>
    if d.length < need then .err .protoShort s else .ok (dataResponse d) s

/-- A write of `n` bytes (R176, R178): `writtenLen` is `n` on success; a collected answer that is
not the expected acknowledgement is PROTO_SHORT, the one PROTO code R194 reserves neither to IRQ bits
nor to SELECT (log entry 19). -/
def clientWrite (operands : List Byte) (plan : List ClientStep) (ack : Option (List Byte)) (n : Nat)
    (s : State) : Reply Response :=
  (runClient operands plan [] s).bind fun answer s =>
    match ack with
    | none => .ok (countResponse n) s
    | some a => if answer = a then .ok (countResponse n) s else .err .protoShort s

/-- RDBLK (R175). -/
def execRdblk (blockNum : Byte) (s : State) : Host.Outcome State Fault Refusal :=
  ifClient s (polling s (clientRead s.cfg.client.rdBlkOp
    (layoutBytes (Instr.rdblk blockNum).operands s.cfg.client.rdBlkParams) 16 s).finish)

/-- WRBLK (R176). -/
def execWrblk (blockNum : Byte) (data : List Byte) (s : State) :
    Host.Outcome State Fault Refusal :=
  ifClient s (pollingPlan s.cfg.client.wrBlk.steps s
    (clientWrite (Instr.wrblk blockNum data).operands s.cfg.client.wrBlk.steps
      s.cfg.client.wrBlkAck 16 s).finish)

/-- RDPAGE (R177). -/
def execRdpage (page : Half) (s : State) : Host.Outcome State Fault Refusal :=
  ifClient s (polling s (clientRead s.cfg.client.rdPageOp
    (layoutBytes (Instr.rdpage page).operands s.cfg.client.rdPageParams) 4 s).finish)

/-- WRPAGE (R178). -/
def execWrpage (page : Half) (data : List Byte) (s : State) :
    Host.Outcome State Fault Refusal :=
  ifClient s (pollingPlan s.cfg.client.wrPage.steps s
    (clientWrite (Instr.wrpage page data).operands s.cfg.client.wrPage.steps
      s.cfg.client.wrPageAck 4 s).finish)

end Sys2Proof.Machine
end

