-- ==== Sys2Proof/Machine/CommandEngine.lean ====
section
/-! DEFINITION. The command engine's host operations WRCMD, GETSTAT, SRESET, RDCTL, WRCTL (spec
42_command_engine.md R121, R122, R123, R129, R130). -/

namespace Sys2Proof.Machine

/-- WRCMD (R121): any opcode byte, passed through unchecked. -/
def execWrcmd (icop : Byte) (params : List Byte) (s : State) : Host.Outcome State Fault Refusal :=
  .next ((writeCommand icop params s).bind fun k s => .ok (countResponse k) s).finish

/-- GETSTAT (R122): the status byte, uninterpreted. -/
def execGetstat (s : State) : Host.Outcome State Fault Refusal :=
  .next ((tRead s.cfg.regStatus s).bind fun b s =>
    .ok { code := .ok, count := 1, data := [b] } s).finish

/-- What SRESET does to PE's registers whatever became of its write (R123): the sequencer position
and the Tag registers are cleared, the poll registers stay. -/
def State.dropAttempt (s : State) : State :=
  { s with pe := { s.pe.clearTag with seq := .idle, level := 0 } }

/-- SRESET (R123): the reset command; PE's sequencer is cleared also on COMM_ERR. -/
def execSreset (s : State) : Host.Outcome State Fault Refusal :=
  .next (match writeCommand s.cfg.icCmdSoftReset [] s with
    | .ok _ s => s.dropAttempt.respond { code := .ok, count := 0, data := [] }
    | .err c s => s.dropAttempt.raiseCode c
    | .cut s => s)

/-- RDCTL (R129): RESULT and COUNT are not written. -/
def execRdctl (idx : Byte) (s : State) : Host.Outcome State Fault Refusal :=
  .next (match ctlRead s idx with
    | some v => s.answer { code := .ok, count := 2, data := [lowByte v, highByte v] }
    | none => s.answer { code := .badArg, count := 0, data := [] })

/-- WRCTL (R130): only POLL_BUDGET and POLL_INTERVAL are writable, the interval never with 0;
RESULT and COUNT are not written. -/
def execWrctl (idx : Byte) (value : Half) (s : State) : Host.Outcome State Fault Refusal :=
  .next (
    if idx = 0x00 then
      { s with pe := { s.pe with pollBudget := value } }.answer
        { code := .ok, count := 0, data := [] }
    else if idx = 0x01 ∧ value ≠ 0 then
      { s with pe := { s.pe with pollInterval := value } }.answer
        { code := .ok, count := 0, data := [] }
    else s.answer { code := .badArg, count := 0, data := [] })

end Sys2Proof.Machine
end

