-- ==== Sys2Proof/Machine/Dispatch.lean ====
section
/-! DEFINITION. The dispatch of the host operations: one arm per constructor of Instr. -/

namespace Sys2Proof.Machine

def exec (i : Instr) (s : State) : Host.Outcome State Fault Refusal :=
  match i with
  | .wrcmd icop params => Sys2Proof.Machine.execWrcmd icop params s
  | .fifolen => Sys2Proof.Machine.execFifolen s
  | .fiford maxLen => Sys2Proof.Machine.execFiford maxLen s
  | .fifowr data => Sys2Proof.Machine.execFifowr data s
  | .fifoclr => Sys2Proof.Machine.execFifoclr s
  | .getstat => Sys2Proof.Machine.execGetstat s
  | .sreset => Sys2Proof.Machine.execSreset s
  | .reqa => Sys2Proof.Machine.execReqa s
  | .wupa => Sys2Proof.Machine.execWupa s
  | .select => Sys2Proof.Machine.execSelect s
  | .rdctl idx => Sys2Proof.Machine.execRdctl idx s
  | .wrctl idx value => Sys2Proof.Machine.execWrctl idx value s
  | .configure profile => Sys2Proof.Machine.execConfigure profile s
  | .loadkey key => Sys2Proof.Machine.execLoadkey key s
  | .auth keyType blockNum uid => Sys2Proof.Machine.execAuth keyType blockNum uid s
  | .rdblk blockNum => Sys2Proof.Machine.execRdblk blockNum s
  | .wrblk blockNum data => Sys2Proof.Machine.execWrblk blockNum data s
  | .rdpage page => Sys2Proof.Machine.execRdpage page s
  | .wrpage page data => Sys2Proof.Machine.execWrpage page data s

end Sys2Proof.Machine
end

