-- ==== Sys2Proof/Machine/Port.lean ====
section
/-! DEFINITION. The host port (spec 30_encoding.md R80, R85, R86): accepting a host word, and the
answers to words that encode no operation (60_exceptions.md R199: the op code first, the length
second). -/

namespace Sys2Proof.Machine

/-- Acceptance of a host word (R80): BUSY rises. -/
def State.accepted (s : State) : State := { s with pe := { s.pe with busy := true } }

/-- Run the operation a host word encodes. An op code in no table, or a client op code while the
extension is off, is BAD_OP whatever follows it (R85, R170); a wrong length is BAD_ARG (R86). The
empty sequence is no host word and is not accepted (R80). -/
def present (w : List Byte) (s : State) : Host.Outcome State Fault Refusal :=
  match decode w with
  | .instr i => exec i s.accepted
  | .empty => .next s
  | .badOp => .next (s.accepted.raiseCode .badOp)
  | .malformed op =>
    if clientOp op ∧ s.cfg.extClient = false then .next (s.accepted.raiseCode .badOp)
    else .next (s.accepted.raiseCode .badArg)

/-- Ticks pass while PE rests (R226): only the device's settle window runs down. -/
def State.idleTicks (t : Nat) (s : State) : State := { s with settle := s.settle - t }

/-- One event at the host port: a word is not accepted while BUSY = 1 and is not queued (R80); RESET
may come at any time (R220). -/
def State.hostEvent (e : HostEvent) (s : State) : Host.Outcome State Fault Refusal :=
  match e with
  | .word w => if s.pe.busy then .next s else present w s
  | .reset => .next s.resetPe
  | .wait t => .next (s.idleTicks t)

end Sys2Proof.Machine
end

