-- ==== Sys2Proof/Machine/Step.lean ====
section
/-! DEFINITION. One step: the next event at the host port, and all a word's operation does until PE
is ready again (spec 00_scope.md R12, 30_encoding.md R80, R92). With nothing presented PE waits
(R221). -/

namespace Sys2Proof.Machine

/-- One step of the machine. -/
def step (s : State) : Host.Outcome State Fault Refusal :=
  match s.host with
  | [] => .next s
  | e :: rest => { s with host := rest }.hostEvent e

/-- `s` with a row's instruction presented next at the host port and BUSY = 0, so that the very next
step accepts and runs it (log entry 5). -/
def State.withFetchWord (s : State) (nbits w : Nat) : State :=
  { s with pe := { s.pe with busy := false }, host := .word (tableWord nbits w) :: s.host }

end Sys2Proof.Machine
end

