-- ==== Sys2Proof/Safety.lean ====
section
/-! DEFINITION. What a safe machine looks like between two steps: the rest rules of spec 10_state.md
R33, the form of the device state (R40), and the environments in whose terms results are stated. -/

namespace Sys2Proof.Machine

/-- The device state has the form a device can have: at most FIFO_CAP bytes in the FIFO (R40), the
register space in canonical form. -/
abbrev Device.wf (c : Cfg) (d : Device) : Prop := d.fifo.length ≤ c.fifoCap ∧ d.regs.wf = true

/-- R33 (i) to (vi), word for word, over PE's registers at rest. -/
abbrev Regs.atRest (p : Regs) : Prop :=
  (p.seq = .idle ∨ p.seq = .request ∨ p.seq = .selected ∨ p.seq = .failed)
  ∧ (p.seq = .request → p.atqa ≠ 0 ∧ p.uidLen = 0 ∧ p.sak = 0 ∧ p.level = 0)
  ∧ (p.seq = .selected → p.atqa ≠ 0 ∧ (p.uidLen = 4 ∨ p.uidLen = 7 ∨ p.uidLen = 10) ∧
      (p.level = 1 ∨ p.level = 2 ∨ p.level = 3) ∧ p.uidLen.toNat = 3 * p.level.toNat + 1)
  ∧ (p.seq = .idle ∨ p.seq = .failed →
      p.atqa = 0 ∧ p.uidLen = 0 ∧ p.sak = 0 ∧ ∀ i : Fin 10, p.uid[i] = 0)
  ∧ (∀ i : Fin 10, p.uidLen.toNat ≤ i.val → p.uid[i] = 0)
  ∧ 1 ≤ p.pollInterval.toNat

/-- The invariant of the machine between two steps: a legal configuration (R7), PE at rest with the
rules of R33, and a device state of the form R40 gives it. -/
abbrev State.Inv (s : State) : Prop :=
  s.cfg.legal = true ∧ s.pe.busy = false ∧ s.pe.atRest ∧ s.dev.wf s.cfg

/-- The environment does nothing but let the primitive through. -/
def EnvMove.quiet : EnvMove := {}

/-- The environment behind the port does what `ms` lists next, then what `rest` lists, and the IC is
settled (R226). -/
abbrev State.Meets (s : State) (ms rest : List EnvMove) : Prop :=
  s.agent = .any (ms ++ rest) ∧ s.settle = 0

/-- How many transport primitives a stretch of traffic holds (`Wait` is none, R50, R131). -/
def primitives (l : List BusStep) : Nat :=
  (l.filter fun b => match b.op with | .wait _ => false | _ => true).length

/-- How many reads of REG_IRQ a stretch of traffic holds (R127). -/
def irqReads (c : Cfg) (l : List BusStep) : Nat :=
  (l.filter fun b => b.op == .read c.regIrq).length

/-- How many waits a stretch of traffic holds (R127). -/
def waits (l : List BusStep) : Nat :=
  (l.filter fun b => match b.op with | .wait _ => true | _ => false).length

/-- How many primitives an exchange with `n` parameter bytes makes before its POLL (R128, R120). -/
def preparation (n : Nat) : Nat := if n = 0 then 4 else 6

/-- An environment for one exchange (R128) with `n` parameter bytes: the device stays silent for
`quiet` polls, then transmits the parameters, receives `d` and raises `irq`; nothing fails. -/
def exchangeMoves (n quiet : Nat) (d : List Byte) (irq : Byte) : List EnvMove :=
  List.replicate (preparation n + 2 * quiet) EnvMove.quiet
    ++ [{ steps := [.transmit n, .receive d, .raise irq] }]

/-- The micro-steps of a POLL that waits `quiet` times and ends at the read after (R125). -/
def pollOps (c : Cfg) (interval : Half) (quiet : Nat) : List BusOp :=
  (List.replicate quiet [BusOp.read c.regIrq, .wait interval.toNat]).flatten ++ [.read c.regIrq]

/-- The micro-steps of an exchange up to its length query (R128): clear, configure, clear the IRQ bits,
opcode; the query is made only where there are parameters (R120). -/
def openingOps (c : Cfg) (fc icop : Byte) (params : List Byte) : List BusOp :=
  [.write c.regFifoControl c.vFifoFlush, .write c.regFrameCfg fc, .write c.regIrq c.vIrqClear,
    .write c.regCommand icop] ++ if params = [] then [] else [.read c.regFifoLength]

/-- The micro-steps of an exchange that completes (R128): the opening, the parameters, POLL, length
query, and a bulk read unless nothing is drained. -/
def exchangeOps (c : Cfg) (interval : Half) (fc icop : Byte) (params : List Byte)
    (quiet drained : Nat) : List BusOp :=
  openingOps c fc icop params ++ (if params = [] then [] else [.fifoWrite params])
  ++ pollOps c interval quiet ++ [.read c.regFifoLength]
  ++ (if drained = 0 then [] else [.fifoRead drained])

/-- The response and the state of a control read that found `v` (R84, R129). -/
def controlValue (s : State) (v : Half) : State :=
  { s with
    pe := { s.pe with busy := false }
    sent := s.sent ++ [[0x00, 0x02, v.extractLsb' 0 8, v.extractLsb' 8 8]] }

/-- The response and the state of a refused control access (R129, R130). -/
def controlRefused (s : State) : State :=
  { s with pe := { s.pe with busy := false }, sent := s.sent ++ [[0x0B, 0x00]] }

/-- The bound of R131 on the transport primitives of a host operation of the block. -/
def primitiveBound (i : Instr) (p : Regs) : Nat :=
  let n := p.pollBudget.toNat / p.pollInterval.toNat + 2
  match i with
  | .fifolen | .fifoclr | .getstat | .sreset => 1
  | .fiford _ | .fifowr _ => 2
  | .wrcmd _ _ => 3
  | .reqa | .wupa => 8 + n
  | .select => 3 * (8 + n)
  | _ => 0

/-- The Tag registers as an attempt opens (R141). -/
def openedRegs (p : Regs) : Regs :=
  { p with atqa := 0, uid := Vector.replicate 10 0, uidLen := 0, sak := 0, level := 0 }

/-- The card command byte of an operation that opens an attempt (R142, R143). -/
def requestByte (c : Cfg) (i : Instr) : Byte := if i = .reqa then c.piccReqa else c.piccWupa

/-- REQA or WUPA against a device that stays silent for `quiet` polls and then raises `irq` having
received `d` (hypotheses on the state alone). -/
structure RequestRun (i : Instr) (s : State) (quiet : Nat) (d : List Byte) (irq : Byte)
    (rest : List EnvMove) : Prop where
  instr    : i = .reqa ∨ i = .wupa
  legal    : s.cfg.legal = true
  opcode   : s.cfg.icCmdTransceive ≠ s.cfg.icCmdSoftReset
  answer   : d.length ≤ s.cfg.fifoCap
  interval : s.pe.pollInterval ≠ 0
  inTime   : quiet ≤ s.pe.pollBudget.toNat / s.pe.pollInterval.toNat + 1
  moves    : s.Meets (exchangeMoves 1 quiet d irq) rest

/-- What a device does in one exchange it completes: how many polls it stays silent for, and the bytes
it has received then. -/
structure Answer where
  quiet : Nat
  bytes : List Byte
  deriving DecidableEq, Repr

/-- A select answer at a level that continues (R147): behind the cascade tag three UID bytes and a SAK,
and whatever the device received beyond them; and how many polls it was silent for. -/
structure Continuing where
  f1    : Byte
  f2    : Byte
  f3    : Byte
  sak   : Byte
  more  : List Byte := []
  quiet : Nat := 0
  deriving DecidableEq, Repr

/-- The answer of a continuing level. -/
def Continuing.answer (c : Cfg) (k : Continuing) : Answer :=
  { quiet := k.quiet, bytes := c.ct :: k.f1 :: k.f2 :: k.f3 :: k.sak :: k.more }

/-- ELAPSED after a POLL that waited `n` times (R32). -/
def Regs.waited (p : Regs) (n : Nat) : BitVec 17 := BitVec.ofNat 17 (n * p.pollInterval.toNat)

/-- ELAPSED after continuing levels: what the last of them left, or what was there before any. -/
def Regs.afterLevels (p : Regs) (conts : List Continuing) : BitVec 17 :=
  match conts.getLast? with
  | some k => p.waited k.quiet
  | none => p.elapsed

/-- The environment of a SELECT: one answered exchange for each answer. -/
def selectMoves (c : Cfg) (answers : List Answer) : List EnvMove :=
  answers.flatMap fun a =>
    exchangeMoves 1 a.quiet a.bytes c.mDone ++ (if a.bytes = [] then [.quiet] else [.quiet, .quiet])

/-- The micro-steps of a SELECT whose levels are answered so (R147): level 1, 2, 3 sends SEL_CL1,
SEL_CL2, SEL_CL3 in a standard frame and drains at most five bytes. -/
def selectOps (c : Cfg) (interval : Half) (answers : List Answer) : List BusOp :=
  (List.zipWith (fun code a =>
      exchangeOps c interval c.vFrameStd c.icCmdSelect [code] a.quiet (min 5 a.bytes.length))
    [c.selCl1, c.selCl2, c.selCl3] answers).flatten

/-- A SELECT from REQUEST whose levels the device answers with `answers`, each in its own time. -/
structure SelectRun (s : State) (answers : List Answer) (rest : List EnvMove) : Prop where
  legal    : s.cfg.legal = true
  opcode   : s.cfg.icCmdSelect ≠ s.cfg.icCmdSoftReset
  fits     : ∀ a ∈ answers, a.bytes.length ≤ s.cfg.fifoCap
  seq      : s.pe.seq = .request
  fresh    : s.pe.uidLen = 0
  cleared  : s.pe.uid = Vector.replicate 10 0
  interval : s.pe.pollInterval ≠ 0
  inTime   : ∀ a ∈ answers, a.quiet ≤ s.pe.pollBudget.toNat / s.pe.pollInterval.toNat + 1
  moves    : s.Meets (selectMoves s.cfg answers) rest

/-- How the overflow guard keeps the one parameter byte of an exchange out (R105, R128): the
environment's moves, what the FIFO holds then, and whether the bulk write was made. -/
inductive ParameterCut (c : Cfg) : List EnvMove → List Byte → Bool → Prop where
  /-- the device has filled the FIFO before the length query -/
  | full (bs : List Byte) : c.fifoCap ≤ bs.length →
      ParameterCut c (List.replicate 4 .quiet ++ [{ steps := [.receive bs] }]) (bs.take c.fifoCap)
        false
  /-- the transport reports no byte written -/
  | short : ParameterCut c (List.replicate 5 .quiet ++ [{ moved := some 0 }]) [] true

/-- How an exchange with `n` parameter bytes ends with a code of POLL or of a primitive, or because the
overflow guard cut the parameters (R126 to R128, R192, R194), under a configuration and the poll
registers `b`, `i`: the environment's moves, the code, and how many waits the POLL made, `none` where it
was not reached. -/
inductive ExchangeEnds (c : Cfg) (b i : Half) (n : Nat) :
    List EnvMove → Result → Option Nat → Prop where
  /-- an IRQ read shows an error bit -/
  | errorBit (quiet : Nat) (d : List Byte) (irq : Byte) (code : Result) : n ≤ c.fifoCap →
      quiet ≤ b.toNat / i.toNat + 1 → d.length ≤ c.fifoCap → irqVerdict c irq = some code →
      code ≠ .ok → ExchangeEnds c b i n (exchangeMoves n quiet d irq) code (some quiet)
  /-- no terminal bit shows in time -/
  | expired : n ≤ c.fifoCap → ExchangeEnds c b i n
      (List.replicate (preparation n + 2 * (b.toNat / i.toNat + 1) + 1) .quiet) .timeout
      (some (b.toNat / i.toNat + 1))
  /-- one of the primitives before the POLL fails -/
  | failedBefore (k landed : Nat) : k < preparation n → ExchangeEnds c b i n
      (List.replicate k .quiet ++ [{ fails := true, landed := landed }]) .commErr none
  /-- an IRQ read fails -/
  | failedPoll (quiet landed : Nat) : n ≤ c.fifoCap → quiet ≤ b.toNat / i.toNat + 1 →
      ExchangeEnds c b i n
        (List.replicate (preparation n + 2 * quiet) .quiet ++ [{ fails := true, landed := landed }])
        .commErr (some quiet)
  /-- the length query after the POLL fails -/
  | failedLength (quiet landed : Nat) (d : List Byte) : n ≤ c.fifoCap →
      quiet ≤ b.toNat / i.toNat + 1 → d.length ≤ c.fifoCap → ExchangeEnds c b i n
        (exchangeMoves n quiet d c.mDone ++ [{ fails := true, landed := landed }]) .commErr
        (some quiet)
  /-- the bulk read fails -/
  | failedDrain (quiet landed : Nat) (d : List Byte) : n ≤ c.fifoCap →
      quiet ≤ b.toNat / i.toNat + 1 → d.length ≤ c.fifoCap → d ≠ [] → ExchangeEnds c b i n
        (exchangeMoves n quiet d c.mDone ++ [.quiet, { fails := true, landed := landed }]) .commErr
        (some quiet)
  /-- the device has received `bs` before the length query and leaves too little room -/
  | cut (bs : List Byte) : n ≠ 0 → c.fifoCap < min bs.length c.fifoCap + n → ExchangeEnds c b i n
      (List.replicate 4 .quiet ++ { steps := [.receive bs] } ::
        (if c.fifoCap ≤ bs.length then [] else [.quiet])) .protoShort none
  /-- the transport reports fewer bytes written -/
  | short (k : Nat) : k < n → n ≤ c.fifoCap → ExchangeEnds c b i n
      (List.replicate 5 .quiet ++ [{ moved := some k }]) .protoShort none

/-- The codes R84 and R191 allow each host operation of the block, and R170 to R178 each client
operation; RDCTL and WRCTL write no RESULT. -/
def allowedCodes (c : Cfg) : Instr → List Result
  | .wrcmd _ _ | .fifolen | .fiford _ | .fifowr _ | .fifoclr | .getstat | .sreset => [.ok, .commErr]
  | .reqa | .wupa =>
    [.ok, .noTag, .commErr, .timeout, .protoCollision, .protoCrc, .protoShort]
  | .select =>
    [.ok, .badSeq, .commErr, .timeout, .protoCollision, .protoCrc, .protoShort, .protoCascade]
  | .rdctl _ | .wrctl _ _ => []
  | .configure _ => if c.extClient then [.ok, .commErr, .badArg] else [.badOp]
  | .loadkey _ => if c.extClient then [.ok, .commErr] else [.badOp]
  | .auth _ _ _ =>
    if c.extClient then [.ok, .authRejected, .commErr, .timeout, .badArg] else [.badOp]
  | .rdblk _ | .wrblk _ _ | .rdpage _ | .wrpage _ _ =>
    if c.extClient then [.ok, .commErr, .timeout, .protoCollision, .protoCrc, .protoShort]
    else [.badOp]

/-- The opcode, the parameters and the size of a client read (R175, R177). -/
def clientReadOf (c : Cfg) : Instr → Byte × List Byte × Nat
  | .rdblk b => (c.client.rdBlkOp, layoutBytes [b] c.client.rdBlkParams, 16)
  | .rdpage p => (c.client.rdPageOp,
      layoutBytes [p.extractLsb' 0 8, p.extractLsb' 8 8] c.client.rdPageParams, 4)
  | _ => (0, [], 0)

/-- The calls, the acknowledgement and the size of a client write (R176, R178). -/
def clientWriteOf (c : Cfg) : Instr → List ClientStep × Option (List Byte) × Nat
  | .wrblk _ _ => (c.client.wrBlk.steps, c.client.wrBlkAck, 16)
  | .wrpage _ _ => (c.client.wrPage.steps, c.client.wrPageAck, 4)
  | _ => ([], none, 0)

/-- The first micro-step of a call of the client extension (R179). -/
def ClientStep.firstOp (c : Cfg) : ClientStep → BusOp
  | .clear => .write c.regFifoControl c.vFifoFlush
  | .command icop _ => .write c.regCommand icop
  | .poll => .read c.regIrq
  | .drain _ => .read c.regFifoLength
  | .fill _ => .read c.regFifoLength
  | .readReg a => .read a
  | .writeReg a v => .write a v

/-- The calls of a client operation made one after the other against a device that lets every
primitive through and completes what is polled for (R179): over the operand bytes, the calls, the
device before, the environment's moves, the micro-steps, the device after, the bytes collected. `b` and
`i` are the poll registers. -/
inductive ClientRun (c : Cfg) (b i : Half) (operands : List Byte) :
    List ClientStep → Device → List EnvMove → List BusOp → Device → List Byte → Prop where
  | done (d : Device) : ClientRun c b i operands [] d [] [] d []
  | clear {more d ms ops e a} :
      ClientRun c b i operands more { d with fifo := [] } ms ops e a →
      ClientRun c b i operands (.clear :: more) d (.quiet :: ms)
        (.write c.regFifoControl c.vFifoFlush :: ops) e a
  | command {more d ms ops e a} (icop : Byte) (params : List ParamByte) (bs : List Byte) :
      bs = layoutBytes operands params → icop ≠ c.icCmdSoftReset →
      d.fifo.length + bs.length ≤ c.fifoCap →
      ClientRun c b i operands more { d with cmd := icop, fifo := d.fifo ++ bs } ms ops e a →
      ClientRun c b i operands (.command icop params :: more) d
        (.quiet :: (if bs = [] then [] else [.quiet, .quiet]) ++ ms)
        (.write c.regCommand icop ::
          (if bs = [] then [] else [.read c.regFifoLength, .fifoWrite bs]) ++ ops) e a
  | poll {more d ms ops e a} (quiet : Nat) :
      quiet ≤ b.toNat / i.toNat + 1 → irqVerdict c d.irq = none →
      ClientRun c b i operands more { d with irq := d.irq ||| c.mDone } ms ops e a →
      ClientRun c b i operands (.poll :: more) d
        (List.replicate (2 * quiet) .quiet ++ { steps := [.raise c.mDone] } :: ms)
        (pollOps c i quiet ++ ops) e a
  | pollDone {more d ms ops e a} :
      irqVerdict c d.irq = some .ok → ClientRun c b i operands more d ms ops e a →
      ClientRun c b i operands (.poll :: more) d (.quiet :: ms) (.read c.regIrq :: ops) e a
  | drain {more d ms ops e a} (n : Nat) :
      d.fifo.length ≤ c.fifoCap →
      ClientRun c b i operands more { d with fifo := d.fifo.drop n } ms ops e a →
      ClientRun c b i operands (.drain n :: more) d
        ((if min n d.fifo.length = 0 then [.quiet] else [.quiet, .quiet]) ++ ms)
        (.read c.regFifoLength ::
          (if min n d.fifo.length = 0 then [] else [.fifoRead (min n d.fifo.length)]) ++ ops)
        e (d.fifo.take n ++ a)
  | fill {more d ms ops e a} (params : List ParamByte) (bs : List Byte) :
      bs = layoutBytes operands params → d.fifo.length + bs.length ≤ c.fifoCap →
      ClientRun c b i operands more { d with fifo := d.fifo ++ bs } ms ops e a →
      ClientRun c b i operands (.fill params :: more) d
        (.quiet :: (if bs = [] then [] else [.quiet]) ++ ms)
        (.read c.regFifoLength :: (if bs = [] then [] else [.fifoWrite bs]) ++ ops) e a
  | readReg {more d ms ops e a} (r : Byte) :
      ClientRun c b i operands more d ms ops e a →
      ClientRun c b i operands (.readReg r :: more) d (.quiet :: ms) (.read r :: ops) e
        (d.readReg c r :: a)
  | writeReg {more d ms ops e a} (r v : Byte) :
      ¬ (r = c.regCommand ∧ v = c.icCmdSoftReset) →
      ClientRun c b i operands more (d.writeReg c .quiet r v) ms ops e a →
      ClientRun c b i operands (.writeReg r v :: more) d (.quiet :: ms) (.write r v :: ops) e a

/-- How a `writeFIFO` of `bs` ends with a code or is cut (R105, R192; a cut one is PROTO_SHORT: R194,
log entry 19), from a device: the environment's moves, the code, the micro-steps. -/
inductive FillEnds (c : Cfg) : Device → List Byte → List EnvMove → Result → List BusOp → Prop where
  /-- the length query fails -/
  | lengthFailed (d : Device) (bs : List Byte) (landed : Nat) :
      FillEnds c d bs [{ fails := true, landed := landed }] .commErr [.read c.regFifoLength]
  /-- the bulk write fails -/
  | writeFailed (d : Device) (bs : List Byte) (landed : Nat) :
      d.fifo.length < c.fifoCap → bs ≠ [] →
      FillEnds c d bs [.quiet, { fails := true, landed := landed }] .commErr
        [.read c.regFifoLength, .fifoWrite (bs.take (c.fifoCap - d.fifo.length))]
  /-- the FIFO is full: there is no bulk write -/
  | full (d : Device) (bs : List Byte) : c.fifoCap ≤ d.fifo.length → bs ≠ [] →
      FillEnds c d bs [.quiet] .protoShort [.read c.regFifoLength]
  /-- fewer bytes fit, or the transport reports fewer -/
  | short (d : Device) (bs : List Byte) (moved : Option Nat) :
      d.fifo.length < c.fifoCap → bs ≠ [] →
      (c.fifoCap < d.fifo.length + bs.length ∨ ∃ k, moved = some k ∧ k < bs.length) →
      FillEnds c d bs [.quiet, { moved := moved }] .protoShort
        [.read c.regFifoLength, .fifoWrite (bs.take (c.fifoCap - d.fifo.length))]

/-- How one call of a client operation ends the operation with a code (R179, R192 to R194), from a
device: the environment's moves, the code, the micro-steps. -/
inductive ClientEnds (c : Cfg) (b i : Half) (operands : List Byte) :
    ClientStep → Device → List EnvMove → Result → List BusOp → Prop where
  /-- its first primitive fails -/
  | failed (step : ClientStep) (d : Device) (landed : Nat) :
      ClientEnds c b i operands step d [{ fails := true, landed := landed }] .commErr
        [step.firstOp c]
  /-- a command's parameters do not go through -/
  | command {d : Device} {ms : List EnvMove} {code : Result} {ops : List BusOp} (icop : Byte)
      (params : List ParamByte) : icop ≠ c.icCmdSoftReset → layoutBytes operands params ≠ [] →
      FillEnds c { d with cmd := icop } (layoutBytes operands params) ms code ops →
      ClientEnds c b i operands (.command icop params) d (.quiet :: ms) code
        (.write c.regCommand icop :: ops)
  /-- a `writeFIFO` does not go through -/
  | fill {d : Device} {ms : List EnvMove} {code : Result} {ops : List BusOp}
      (params : List ParamByte) : FillEnds c d (layoutBytes operands params) ms code ops →
      ClientEnds c b i operands (.fill params) d ms code ops
  /-- the bulk read of a drain fails -/
  | drainFailed (n : Nat) (d : Device) (landed : Nat) :
      d.fifo.length ≤ c.fifoCap → min n d.fifo.length ≠ 0 →
      ClientEnds c b i operands (.drain n) d [.quiet, { fails := true, landed := landed }] .commErr
        [.read c.regFifoLength, .fifoRead (min n d.fifo.length)]
  /-- an IRQ read fails -/
  | pollFailed (quiet : Nat) (d : Device) (landed : Nat) :
      quiet ≤ b.toNat / i.toNat + 1 → (quiet = 0 ∨ irqVerdict c d.irq = none) →
      ClientEnds c b i operands .poll d
        (List.replicate (2 * quiet) .quiet ++ [{ fails := true, landed := landed }]) .commErr
        (pollOps c i quiet)
  /-- a POLL expires -/
  | expired (d : Device) :
      irqVerdict c d.irq = none →
      ClientEnds c b i operands .poll d
        (List.replicate (2 * (b.toNat / i.toNat + 1) + 1) .quiet) .timeout
        (pollOps c i (b.toNat / i.toNat + 1))
  /-- an IRQ read shows an error bit, set before or by what the device did since the last read -/
  | errorBit (quiet : Nat) (d : Device) (steps : List DevStep) (code : Result) :
      quiet ≤ b.toNat / i.toNat + 1 → (quiet = 0 ∨ irqVerdict c d.irq = none) →
      irqVerdict c (d.takeSteps c steps).irq = some code → code ≠ .ok →
      ClientEnds c b i operands .poll d
        (List.replicate (2 * quiet) .quiet ++ [{ steps := steps }]) code (pollOps c i quiet)

end Sys2Proof.Machine
end

