-- ==== Sys2Proof/Certificates/Slice0/Obligations.lean ====
section
/-! DEFINITION. The statements for the provers. `exec i s = .next { s with … }` states an
instruction's whole effect: every register, the device's FIFO and every IC register it does not name
is unchanged. `State.Meets s ms rest` says what the environment does next; `EnvMove.quiet` lets one
primitive through. -/

open Sys2Proof Sys2Proof.Machine

/-! ## Encoding (30_encoding.md) -/

/-- R81 to R83, R170: decoding the encoding of a well-formed operation gives it back, with every
operand at every value the encoding admits. -/
def Obligations.DecodeEncodeRoundTrip : Prop :=
  ∀ i : Instr, i.wellFormed = true → decode (encode i) = .instr i

/-- R81 to R83: a host word that decodes is the encoding of exactly the operation it decodes to, and
that operation is well-formed: no two words share an operation. -/
def Obligations.EncodeDecodeRoundTrip : Prop :=
  ∀ (w : List Byte) (i : Instr), decode w = .instr i → encode i = w ∧ i.wellFormed = true

/-- R86: a word whose op code is in the tables decodes exactly when its length is the one its first
bytes require, and is malformed otherwise; the lengths of the client op codes are those of R170. That an
AUTH word whose length fits its own length byte decodes for every value of that byte, not only R170's 4,
7 and 10, is DEDUCED (log entry 17). -/
def Obligations.DecodingFollowsLengthRule : Prop :=
  ∀ (op : Byte) (rest : List Byte), (baseOp op || clientOp op) = true →
    ((∃ i, decode (op :: rest) = .instr i) ↔ wordLength (op :: rest) = some (rest.length + 1)) ∧
    (wordLength (op :: rest) ≠ some (rest.length + 1) → decode (op :: rest) = .malformed op)

/-- R82, R83, R90, R173: the spec's own example words and the two well-known keys. -/
def Obligations.ExampleWordsDecode : Prop :=
  decode [0x01, 0x07, 0x01, 0x26] = .instr (.wrcmd 0x07 [0x26]) ∧
  decode [0x03, 0x05] = .instr (.fiford 5) ∧
  decode [0x04, 0x03, 0x01, 0x02, 0x03] = .instr (.fifowr [1, 2, 3]) ∧
  decode [0x0A] = .instr .select ∧
  decode [0x0C, 0x00, 0x2C, 0x01] = .instr (.wrctl 0 300) ∧
  decode [0x11, 0xFF, 0xFF, 0xFF, 0xFF, 0xFF, 0xFF] = .instr (.loadkey keyFactoryDefault) ∧
  decode [0x11, 0xD3, 0xF7, 0xD3, 0xF7, 0xD3, 0xF7] = .instr (.loadkey keyNdef) ∧
  decode [0x0D] = .badOp ∧ decode [0x08, 0x00] = .malformed 0x08

/-! ## The host port (30_encoding.md R80, R85, R86; 70_reset_and_hazards.md R220) -/

/-- R80: when BUSY = 0 and the next host word encodes an operation, one step is that operation's
meaning on the state in which the word is consumed and BUSY is 1. -/
def Obligations.StepRunsDecodedInstruction : Prop :=
  ∀ (s : State) (w : List Byte) (more : List HostEvent) (i : Instr),
    s.host = .word w :: more → s.pe.busy = false → decode w = .instr i →
    step s = exec i { s with host := more, pe := { s.pe with busy := true } }

/-- R85: an illegal op code, or a reserved one while EXT_CLIENT = false, answers BAD_OP whatever
bytes follow it; RESULT and COUNT are written and nothing else changes. -/
def Obligations.IllegalOpcodeAnswersBadOp : Prop :=
  ∀ (s : State) (op : Byte) (rest : List Byte) (more : List HostEvent),
    s.host = .word (op :: rest) :: more → s.pe.busy = false →
    baseOp op = false → (clientOp op = true → s.cfg.extClient = false) →
    step s = .next { s with
      host := more
      pe := { s.pe with result := .badOp, count := 0 }
      sent := s.sent ++ [[0x0A, 0x00]] }

/-- R86: a word whose op code is legal but whose length is not the required one answers BAD_ARG,
also a malformed RDCTL or WRCTL; RESULT and COUNT are written and nothing else changes. -/
def Obligations.MalformedWordAnswersBadArg : Prop :=
  ∀ (s : State) (op : Byte) (rest : List Byte) (more : List HostEvent),
    s.host = .word (op :: rest) :: more → s.pe.busy = false →
    (baseOp op = true ∨ (clientOp op = true ∧ s.cfg.extClient = true)) →
    wordLength (op :: rest) ≠ some (rest.length + 1) →
    step s = .next { s with
      host := more
      pe := { s.pe with result := .badArg, count := 0 }
      sent := s.sent ++ [[0x0B, 0x00]] }

/-- R80: a host word presented while BUSY = 1 is not accepted, not queued and has no effect. -/
def Obligations.BusyPortIgnoresWords : Prop :=
  ∀ (s : State) (w : List Byte) (more : List HostEvent),
    s.host = .word w :: more → s.pe.busy = true → step s = .next { s with host := more }

/-- R45, R220, R221: RESET gives every PE register its reset value and touches nothing else: no
primitive is issued, no response is sent, the device stays as it is. -/
def Obligations.ResetEventResetsPeOnly : Prop :=
  ∀ (s : State) (more : List HostEvent), s.host = .reset :: more →
    step s = .next { s with
      host := more
      pe := { atqa := 0, uid := Vector.replicate 10 0, uidLen := 0, sak := 0, seq := .idle, level := 0,
              result := .ok, count := 0, busy := false, pollBudget := s.cfg.budgetDefault,
              pollInterval := s.cfg.intervalDefault, elapsed := 0 } }

/-- R80, R220: an operation that runs to its end sends exactly one response and leaves BUSY = 0; the
only other end is RESET, which sends none and leaves every PE register at its reset value. -/
def Obligations.OneResponseUnlessReset : Prop :=
  ∀ (i : Instr) (s t : State), exec i s = .next t →
    (∃ r, t.sent = s.sent ++ [r] ∧ t.pe.busy = false) ∨
    (t.sent = s.sent ∧ t.pe = Regs.afterReset s.cfg)

/-- R27, R28, R84, R196: the response of every operation but RDCTL and WRCTL starts with the RESULT
and COUNT it leaves, and a code other than OK, NO_TAG and AUTH_REJECTED comes with COUNT 0 and no
data. -/
def Obligations.ResponseMirrorsResultAndCount : Prop :=
  ∀ (i : Instr) (s t : State) (r : List Byte), (∀ idx, i ≠ .rdctl idx) →
    (∀ idx v, i ≠ .wrctl idx v) → exec i s = .next t → t.sent = s.sent ++ [r] →
    ∃ data, r = t.pe.result.code.setWidth 8 :: t.pe.count :: data ∧
      (t.pe.result ≠ .ok → t.pe.result ≠ .noTag → t.pe.result ≠ .authRejected →
        t.pe.count = 0 ∧ data = [])

/-! ## The FIFO controller (41_fifo_controller.md) -/

/-- R100, R101: against any device, one read of the length register whose failure is COMM_ERR and
whose value, clamped to FIFO_CAP, is COUNT; SEQ, the Tag registers and the FIFO are untouched but by
the device's own steps. -/
def Obligations.FifolenReportsOccupancy : Prop :=
  ∀ s : State, s.cfg.legal = true → s.settle = 0 →
    let m := s.moveFor (.read s.cfg.regFifoLength)
    let d := s.dev.takeSteps s.cfg m.steps
    m.reset = false →
    ∃ t, exec .fifolen s = .next t ∧ t.dev = d.takeSteps s.cfg m.react ∧ t.host = s.host ∧
      t.cfg = s.cfg ∧ t.settle = 0 ∧
      (m.fails = true →
        t.pe = { s.pe with result := .commErr, count := 0, busy := false } ∧
        t.sent = s.sent ++ [[0x02, 0x00]] ∧
        t.bus = s.bus ++ [⟨.read s.cfg.regFifoLength, .failed⟩]) ∧
      (m.fails = false →
        t.pe = { s.pe with
          result := .ok, count := BitVec.ofNat 8 (min d.fifo.length s.cfg.fifoCap), busy := false } ∧
        t.sent = s.sent ++ [[0x00, BitVec.ofNat 8 (min d.fifo.length s.cfg.fifoCap)]] ∧
        t.bus = s.bus ++
          [⟨.read s.cfg.regFifoLength, .value (BitVec.ofNat 8 (min d.fifo.length 255))⟩])

/-- R102, R104, R110 (a): with no device step in between, FIFORD returns exactly the first
`min(n, occupancy)` bytes, leaves the rest, and issues no bulk read for none. -/
def Obligations.FifordDrainsOccupancy : Prop :=
  ∀ (s : State) (n : Byte) (rest : List EnvMove), s.cfg.legal = true →
    s.dev.fifo.length ≤ s.cfg.fifoCap →
    s.Meets (if min n.toNat s.dev.fifo.length = 0 then [.quiet] else [.quiet, .quiet]) rest →
    ∃ l, l.map (·.op) = BusOp.read s.cfg.regFifoLength ::
        (if min n.toNat s.dev.fifo.length = 0 then []
         else [.fifoRead (min n.toNat s.dev.fifo.length)]) ∧
      exec (.fiford n) s = .next { s with
        pe := { s.pe with
          result := .ok, count := BitVec.ofNat 8 (min n.toNat s.dev.fifo.length), busy := false }
        dev := { s.dev with fifo := s.dev.fifo.drop n.toNat }
        agent := .any rest
        sent := s.sent ++ [0x00 :: BitVec.ofNat 8 (min n.toNat s.dev.fifo.length) ::
          s.dev.fifo.take n.toNat]
        bus := s.bus ++ l }

/-- R103, R104, R191: against any device FIFORD answers OK with at most `n` bytes and their number, or
COMM_ERR with none, and no PE register but RESULT and COUNT changes. -/
def Obligations.FifordNeverExceedsRequest : Prop :=
  ∀ (s t : State) (n : Byte), exec (.fiford n) s = .next t → t.sent ≠ s.sent →
    (∃ d, d.length ≤ n.toNat ∧ t.sent = s.sent ++ [0x00 :: BitVec.ofNat 8 d.length :: d] ∧
      t.pe = { s.pe with
        result := .ok, count := BitVec.ofNat 8 d.length, busy := false }) ∨
    (t.sent = s.sent ++ [[0x02, 0x00]] ∧
      t.pe = { s.pe with result := .commErr, count := 0, busy := false })

/-- R105, R106, R110 (b): with no device step in between, FIFOWR appends exactly the first bytes that
fit, drops the rest, answers OK with their number, and issues no bulk write for none. -/
def Obligations.FifowrKeepsOverflowGuard : Prop :=
  ∀ (s : State) (data : List Byte) (rest : List EnvMove), s.cfg.legal = true →
    s.dev.fifo.length ≤ s.cfg.fifoCap →
    let w := min data.length (s.cfg.fifoCap - s.dev.fifo.length)
    s.Meets (if w = 0 then [.quiet] else [.quiet, .quiet]) rest →
    ∃ l, l.map (·.op) = BusOp.read s.cfg.regFifoLength ::
        (if w = 0 then [] else [.fifoWrite (data.take w)]) ∧
      exec (.fifowr data) s = .next { s with
        pe := { s.pe with result := .ok, count := BitVec.ofNat 8 w, busy := false }
        dev := { s.dev with fifo := s.dev.fifo ++ data.take w }
        agent := .any rest
        sent := s.sent ++ [[0x00, BitVec.ofNat 8 w]]
        bus := s.bus ++ l }

/-- R57, R107, R108: FIFOCLR is one blind write; the FIFO is empty afterwards and no other device
state and no register but RESULT and COUNT changes. -/
def Obligations.FifoclrEmptiesFifo : Prop :=
  ∀ (s : State) (rest : List EnvMove), s.cfg.legal = true → s.Meets [.quiet] rest →
    exec .fifoclr s = .next { s with
      pe := { s.pe with result := .ok, count := 0, busy := false }
      dev := { s.dev with fifo := [] }
      agent := .any rest
      sent := s.sent ++ [[0x00, 0x00]]
      bus := s.bus ++ [⟨.write s.cfg.regFifoControl s.cfg.vFifoFlush, .done⟩] }

/-! ## The command engine (42_command_engine.md) -/

/-- R120, R121, R229: WRCMD writes the opcode register first and the parameters second, through the
overflow guard; with no parameters it issues exactly one micro-step; a truncation is OK with a small
COUNT. -/
def Obligations.WrcmdWritesOpcodeFirst : Prop :=
  ∀ (s : State) (icop : Byte) (params : List Byte) (rest : List EnvMove), s.cfg.legal = true →
    icop ≠ s.cfg.icCmdSoftReset → s.dev.fifo.length ≤ s.cfg.fifoCap →
    let w := min params.length (s.cfg.fifoCap - s.dev.fifo.length)
    s.Meets (if params = [] then [.quiet] else if w = 0 then [.quiet, .quiet]
      else [.quiet, .quiet, .quiet]) rest →
    ∃ l, l.map (·.op) = BusOp.write s.cfg.regCommand icop ::
        (if params = [] then [] else BusOp.read s.cfg.regFifoLength ::
          (if w = 0 then [] else [.fifoWrite (params.take w)])) ∧
      exec (.wrcmd icop params) s = .next { s with
        pe := { s.pe with result := .ok, count := BitVec.ofNat 8 w, busy := false }
        dev := { s.dev with cmd := icop, fifo := s.dev.fifo ++ params.take w }
        agent := .any rest
        sent := s.sent ++ [[0x00, BitVec.ofNat 8 w]]
        bus := s.bus ++ l }

/-- R121, R58: any opcode byte is passed through unchecked, the reset command too: WRCMD without
parameters is exactly one write of the opcode register, and PE's other registers do not follow it. -/
def Obligations.WrcmdPassesAnyOpcode : Prop :=
  ∀ (s : State) (icop : Byte),
    let m := s.moveFor (.write s.cfg.regCommand icop)
    let c : Result := if m.fails then .commErr else .ok
    m.reset = false →
    ∃ t, exec (.wrcmd icop []) s = .next t ∧ t.host = s.host ∧ t.cfg = s.cfg ∧
      t.pe = { s.pe with result := c, count := 0, busy := false } ∧
      t.sent = s.sent ++ [[c.code.setWidth 8, 0x00]] ∧
      t.bus = s.bus ++ [⟨.write s.cfg.regCommand icop, if m.fails then .failed else .done⟩]

/-- R122: against any device, GETSTAT is one read of the status register, returned uninterpreted;
its failure is COMM_ERR. -/
def Obligations.GetstatReturnsStatus : Prop :=
  ∀ s : State, s.cfg.legal = true → s.settle = 0 →
    let m := s.moveFor (.read s.cfg.regStatus)
    let d := s.dev.takeSteps s.cfg m.steps
    m.reset = false →
    ∃ t, exec .getstat s = .next t ∧ t.dev = d.takeSteps s.cfg m.react ∧ t.host = s.host ∧
      t.cfg = s.cfg ∧ t.settle = 0 ∧
      (m.fails = true →
        t.pe = { s.pe with result := .commErr, count := 0, busy := false } ∧
        t.sent = s.sent ++ [[0x02, 0x00]] ∧ t.bus = s.bus ++ [⟨.read s.cfg.regStatus, .failed⟩]) ∧
      (m.fails = false →
        t.pe = { s.pe with result := .ok, count := 1, busy := false } ∧
        t.sent = s.sent ++ [[0x00, 0x01, d.status]] ∧
        t.bus = s.bus ++ [⟨.read s.cfg.regStatus, .value d.status⟩])

/-- R123: against any device, SRESET issues one write of the reset command; SEQ, LEVEL and the Tag
registers are cleared also when it fails; the poll registers and ELAPSED keep their values. -/
def Obligations.SresetClearsAttempt : Prop :=
  ∀ s : State,
    let m := s.moveFor (.write s.cfg.regCommand s.cfg.icCmdSoftReset)
    let c : Result := if m.fails then .commErr else .ok
    m.reset = false →
    ∃ t, exec .sreset s = .next t ∧ t.host = s.host ∧ t.cfg = s.cfg ∧
      t.pe = { s.pe with
        seq := .idle, level := 0, atqa := 0, uid := Vector.replicate 10 0, uidLen := 0, sak := 0,
        result := c, count := 0, busy := false } ∧
      t.sent = s.sent ++ [[c.code.setWidth 8, 0x00]] ∧
      t.bus = s.bus ++ [⟨.write s.cfg.regCommand s.cfg.icCmdSoftReset,
        if m.fails then .failed else .done⟩]

/-- Model's reading of R226 and U4 (log entries 7, 11): after a SRESET that reached a settled IC the
settle window is open for T_SETTLE ticks, and ticks the host lets pass close it; RDCTL is answered
all the same. -/
def Obligations.SettleWindowOpensAndCloses : Prop :=
  ∀ (s t : State) (ticks : Nat) (more : List HostEvent),
    (s.moveFor (.write s.cfg.regCommand s.cfg.icCmdSoftReset)).fails = false →
    exec .sreset s = .next t → t.host = .wait ticks :: more →
    t.settle = s.cfg.tSettle ∧
      step t = .next { t with host := more, settle := s.cfg.tSettle - ticks } ∧
      ∀ idx, ∃ u, exec (.rdctl idx) t = .next u ∧ u.settle = t.settle ∧ u.dev = t.dev ∧ u.bus = t.bus

/-- R30, R129: RDCTL reads every index of the map, zero-extended, low byte first; any other index is
BAD_ARG; RESULT and COUNT are not written and no primitive is issued. -/
def Obligations.RdctlReadsControlMap : Prop :=
  ∀ s : State,
    exec (.rdctl 0x00) s = .next (controlValue s s.pe.pollBudget) ∧
    exec (.rdctl 0x01) s = .next (controlValue s s.pe.pollInterval) ∧
    exec (.rdctl 0x02) s = .next (controlValue s (s.pe.seq.code.setWidth 16)) ∧
    exec (.rdctl 0x03) s = .next (controlValue s (s.pe.level.setWidth 16)) ∧
    exec (.rdctl 0x04) s = .next (controlValue s (s.pe.result.code.setWidth 16)) ∧
    exec (.rdctl 0x05) s = .next (controlValue s (s.pe.count.setWidth 16)) ∧
    exec (.rdctl 0x06) s = .next (controlValue s s.pe.atqa) ∧
    exec (.rdctl 0x07) s = .next (controlValue s (s.pe.sak.setWidth 16)) ∧
    exec (.rdctl 0x08) s = .next (controlValue s (s.pe.uidLen.setWidth 16)) ∧
    (s.cfg.legal = true →
      exec (.rdctl 0x09) s = .next (controlValue s (BitVec.ofNat 16 s.cfg.fifoCap))) ∧
    (∀ i : Fin 10, exec (.rdctl (BitVec.ofNat 8 (0x10 + i.val))) s
      = .next (controlValue s (s.pe.uid[i].setWidth 16))) ∧
    (∀ idx : Byte, (0x0A ≤ idx.toNat ∧ idx.toNat ≤ 0x0F) ∨ 0x1A ≤ idx.toNat →
      exec (.rdctl idx) s = .next (controlRefused s))

/-- R130: WRCTL writes POLL_BUDGET with any value and POLL_INTERVAL with any value but 0; every other
index, and 0 for the interval, is BAD_ARG; nothing else changes. -/
def Obligations.WrctlWritesPollRegisters : Prop :=
  ∀ (s : State) (v : Half),
    exec (.wrctl 0x00 v) s = .next { s with
      pe := { s.pe with pollBudget := v, busy := false }, sent := s.sent ++ [[0x00, 0x00]] } ∧
    (1 ≤ v.toNat → exec (.wrctl 0x01 v) s = .next { s with
      pe := { s.pe with pollInterval := v, busy := false }, sent := s.sent ++ [[0x00, 0x00]] }) ∧
    exec (.wrctl 0x01 0) s = .next (controlRefused s) ∧
    (∀ idx : Byte, 2 ≤ idx.toNat → exec (.wrctl idx v) s = .next (controlRefused s))

/-- R125, R126: the verdict on one IRQ read: collision before framing or CRC before completion; bits
of no mask are ignored. -/
def Obligations.IrqPriority : Prop :=
  ∀ (c : Cfg) (v : Byte), c.legal = true →
    (irqVerdict c v = some .protoCollision ↔ v &&& c.mErrColl ≠ 0) ∧
    (irqVerdict c v = some .protoCrc ↔ v &&& c.mErrColl = 0 ∧ v &&& c.mErrCrc ≠ 0) ∧
    (irqVerdict c v = some .ok ↔
      v &&& c.mErrColl = 0 ∧ v &&& c.mErrCrc = 0 ∧ v &&& c.mDone ≠ 0) ∧
    (irqVerdict c v = none ↔ v &&& (c.mErrColl ||| c.mErrCrc ||| c.mDone) = 0)

/-- R127: against any device, and unless RESET strikes, a POLL makes at most N reads of REG_IRQ and at
most N - 1 waits; it returns TIMEOUT exactly when N reads were made and none showed a terminal bit or
failed, and then ELAPSED is the first multiple of the interval that exceeds the budget. -/
def Obligations.PollBound : Prop :=
  ∀ s : State, s.pe.pollInterval ≠ 0 → (∀ t, poll s ≠ .cut t) →
    let n := s.pe.pollBudget.toNat / s.pe.pollInterval.toNat + 2
    ∃ l, (poll s).state.bus = s.bus ++ l ∧ irqReads s.cfg l ≤ n ∧ waits l ≤ n - 1 ∧
      ((∃ t, poll s = .err .timeout t) ↔
        irqReads s.cfg l = n ∧
        ∀ b ∈ l, b.op = .read s.cfg.regIrq →
          ∃ v, b.answer = .value v ∧ irqVerdict s.cfg v = none) ∧
      (∀ t, poll s = .err .timeout t → waits l = n - 1 ∧
        t.pe.elapsed.toNat = (s.pe.pollBudget.toNat / s.pe.pollInterval.toNat + 1)
          * s.pe.pollInterval.toNat)

/-- R32: against any device, and unless RESET strikes, ELAPSED at the end of a POLL is exactly the
interval times the waits made, as natural numbers, so the 17-bit counter has not wrapped; and it does
not exceed POLL_BUDGET + POLL_INTERVAL. -/
def Obligations.ElapsedNeverWraps : Prop :=
  ∀ s : State, s.pe.pollInterval ≠ 0 → (∀ t, poll s ≠ .cut t) →
    ∃ l, (poll s).state.bus = s.bus ++ l ∧
      (poll s).state.pe.elapsed.toNat = waits l * s.pe.pollInterval.toNat ∧
      (poll s).state.pe.elapsed.toNat ≤ s.pe.pollBudget.toNat + s.pe.pollInterval.toNat

/-- R131: every host operation of the block ends within its bound of transport primitives, whatever
the device does. -/
def Obligations.OperationsAreBounded : Prop :=
  ∀ (i : Instr) (s t : State), baseOp i.opcode = true → exec i s = .next t →
    ∃ l, t.bus = s.bus ++ l ∧ primitives l ≤ primitiveBound i s.pe

/-! ## The sequencer (43_iso14443a_sequencer.md) -/

/-- R142 to R145: a request the device answers with at least two bytes, not both zero, reads the first
two as ATQA, low byte first, and rests in REQUEST; what came before is discarded; its micro-steps are
exactly those of one exchange with the short frame and the card command byte. That REG_IRQ then holds
M_DONE alone rests on the clear of the whole register (DEDUCED, log entry 20). -/
def Obligations.RequestReadsAtqa : Prop :=
  ∀ (i : Instr) (s : State) (quiet : Nat) (d0 d1 : Byte) (more : List Byte) (rest : List EnvMove),
    RequestRun i s quiet (d0 :: d1 :: more) s.cfg.mDone (.quiet :: .quiet :: rest) →
    ¬ (d0 = 0 ∧ d1 = 0) →
    ∃ l, l.map (·.op) = exchangeOps s.cfg s.pe.pollInterval s.cfg.vFrameShort7 s.cfg.icCmdTransceive
        [requestByte s.cfg i] quiet 2 ∧
      exec i s = .next { s with
        pe := { openedRegs s.pe with
          seq := .request, atqa := d1 ++ d0, result := .ok, count := 2, busy := false
          elapsed := BitVec.ofNat 17 (quiet * s.pe.pollInterval.toNat) }
        dev := { s.dev with
          fifo := more, cmd := s.cfg.icCmdTransceive, irq := s.cfg.mDone, frame := s.cfg.vFrameShort7 }
        agent := .any rest
        sent := s.sent ++ [[0x00, 0x02, d0, d1]]
        bus := s.bus ++ l }

/-- R144, R145 (a), (b): a completed request with no byte, or whose first two bytes are zero whatever
follows them, is NO_TAG: COUNT is 2, ATQA is 0 and SEQ is IDLE; bytes beyond the first two stay in the
FIFO. That REG_IRQ then holds M_DONE alone rests on the clear of the whole register (DEDUCED, log entry
20). -/
def Obligations.RequestWithoutTag : Prop :=
  ∀ (i : Instr) (s : State) (quiet : Nat) (d : List Byte) (rest : List EnvMove),
    (d = [] ∨ ∃ more, d = 0 :: 0 :: more) →
    RequestRun i s quiet d s.cfg.mDone (List.replicate (if d = [] then 1 else 2) .quiet ++ rest) →
    ∃ l, l.map (·.op) = exchangeOps s.cfg s.pe.pollInterval s.cfg.vFrameShort7 s.cfg.icCmdTransceive
        [requestByte s.cfg i] quiet (min 2 d.length) ∧
      exec i s = .next { s with
        pe := { openedRegs s.pe with
          seq := .idle, result := .noTag, count := 2, busy := false
          elapsed := BitVec.ofNat 17 (quiet * s.pe.pollInterval.toNat) }
        dev := { s.dev with
          fifo := d.drop 2, cmd := s.cfg.icCmdTransceive, irq := s.cfg.mDone
          frame := s.cfg.vFrameShort7 }
        agent := .any rest
        sent := s.sent ++ [[0x01, 0x02, 0x00, 0x00]]
        bus := s.bus ++ l }

/-- R145 (c), R150: a completed request with exactly one byte is PROTO_SHORT and FAILED. That REG_IRQ
then holds M_DONE alone rests on the clear of the whole register (DEDUCED, log entry 20). -/
def Obligations.RequestShortAnswerFails : Prop :=
  ∀ (i : Instr) (s : State) (quiet : Nat) (b : Byte) (rest : List EnvMove),
    RequestRun i s quiet [b] s.cfg.mDone (.quiet :: .quiet :: rest) →
    ∃ l, exec i s = .next { s with
      pe := { openedRegs s.pe with
        seq := .failed, result := .protoShort, count := 0, busy := false
        elapsed := BitVec.ofNat 17 (quiet * s.pe.pollInterval.toNat) }
      dev := { s.dev with
        fifo := [], cmd := s.cfg.icCmdTransceive, irq := s.cfg.mDone, frame := s.cfg.vFrameShort7 }
      agent := .any rest
      sent := s.sent ++ [[0x06, 0x00]]
      bus := s.bus ++ l }

/-- R126, R150, R194: an error bit ends a request with its code at the read that shows it, whatever
else the device received; SEQ is FAILED, the Tag registers are clear, the FIFO and the IRQ bits stay
as they are and nothing more is issued. That REG_IRQ holds no earlier bit rests on the clear of the whole
register (DEDUCED, log entry 20). -/
def Obligations.RequestErrorBitFails : Prop :=
  ∀ (i : Instr) (s : State) (quiet : Nat) (d : List Byte) (irq : Byte) (c : Result)
    (rest : List EnvMove),
    RequestRun i s quiet d irq rest → irqVerdict s.cfg irq = some c → c ≠ .ok →
    ∃ l, l.map (·.op) = [BusOp.write s.cfg.regFifoControl s.cfg.vFifoFlush,
          .write s.cfg.regFrameCfg s.cfg.vFrameShort7, .write s.cfg.regIrq s.cfg.vIrqClear,
          .write s.cfg.regCommand s.cfg.icCmdTransceive, .read s.cfg.regFifoLength,
          .fifoWrite [requestByte s.cfg i]] ++ pollOps s.cfg s.pe.pollInterval quiet ∧
      exec i s = .next { s with
        pe := { openedRegs s.pe with
          seq := .failed, result := c, count := 0, busy := false
          elapsed := BitVec.ofNat 17 (quiet * s.pe.pollInterval.toNat) }
        dev := { s.dev with
          fifo := d, cmd := s.cfg.icCmdTransceive, irq := irq, frame := s.cfg.vFrameShort7 }
        agent := .any rest
        sent := s.sent ++ [[c.code.setWidth 8, 0x00]]
        bus := s.bus ++ l }

/-- R127, R193: a request whose completion never shows yields TIMEOUT after N reads, with ELAPSED at
the first multiple of the interval beyond the budget and SEQ = FAILED; PE does nothing more to the
device. That REG_IRQ is then 0 rests on the clear of the whole register (DEDUCED, log entry 20). -/
def Obligations.SilentDeviceTimesOut : Prop :=
  ∀ (i : Instr) (s : State) (rest : List EnvMove), (i = .reqa ∨ i = .wupa) →
    s.cfg.legal = true → s.cfg.icCmdTransceive ≠ s.cfg.icCmdSoftReset → s.pe.pollInterval ≠ 0 →
    let q := s.pe.pollBudget.toNat / s.pe.pollInterval.toNat + 1
    s.Meets (List.replicate (6 + 2 * q + 1) .quiet) rest →
    ∃ l, exec i s = .next { s with
      pe := { openedRegs s.pe with
        seq := .failed, result := .timeout, count := 0, busy := false
        elapsed := BitVec.ofNat 17 (q * s.pe.pollInterval.toNat) }
      dev := { s.dev with
        fifo := [requestByte s.cfg i], cmd := s.cfg.icCmdTransceive, irq := 0
        frame := s.cfg.vFrameShort7 }
      agent := .any rest
      sent := s.sent ++ [[0x03, 0x00]]
      bus := s.bus ++ l } ∧ irqReads s.cfg l = q + 1

/-- R192, R196: a sequencer operation whose first primitive fails ends at once with COMM_ERR, SEQ =
FAILED and clear Tag registers, after exactly that one primitive. -/
def Obligations.FirstFailureEndsAttempt : Prop :=
  ∀ (i : Instr) (s : State), (i = .reqa ∨ i = .wupa ∨ (i = .select ∧ s.pe.seq = .request)) →
    s.pe.pollInterval ≠ 0 →
    let op := BusOp.write s.cfg.regFifoControl s.cfg.vFifoFlush
    (s.moveFor op).fails = true → (s.moveFor op).reset = false →
    ∃ t, exec i s = .next t ∧ t.bus = s.bus ++ [⟨op, .failed⟩] ∧
      t.sent = s.sent ++ [[0x02, 0x00]] ∧
      t.pe = { openedRegs s.pe with
        seq := .failed, level := if i = .select then 1 else 0
        result := .commErr, count := 0, busy := false }

/-- R146: SELECT is admitted from REQUEST, where it never ends with BAD_SEQ; in any other state it is
refused with BAD_SEQ: RESULT and COUNT are written, no primitive is issued, and SEQ, LEVEL and the Tag
registers keep their values. -/
def Obligations.SelectRefusedOutOfSequence : Prop :=
  ∀ s : State,
    (s.pe.seq ≠ .request → exec .select s = .next { s with
      pe := { s.pe with result := .badSeq, count := 0, busy := false }
      sent := s.sent ++ [[0x09, 0x00]] }) ∧
    (∀ t, s.pe.seq = .request → exec .select s = .next t → t.sent ≠ s.sent → t.pe.result ≠ .badSeq)

/-- R148: the table of the cascade decision, over an answer `[f0, f1, f2, f3, sak]` at a level. -/
def Obligations.CascadeDecisionTable : Prop :=
  ∀ (c : Cfg) (f0 f1 f2 f3 sak : Byte),
    (sak &&& c.mSakCascade ≠ 0 → f0 = c.ct →
      levelOutcome c 1 [f0, f1, f2, f3, sak] = .next f1 f2 f3 ∧
      levelOutcome c 2 [f0, f1, f2, f3, sak] = .next f1 f2 f3) ∧
    (∀ level, sak &&& c.mSakCascade = 0 → f0 ≠ c.ct →
      levelOutcome c level [f0, f1, f2, f3, sak] = .final f0 f1 f2 f3 sak) ∧
    (∀ level, sak &&& c.mSakCascade = 0 → f0 = c.ct →
      levelOutcome c level [f0, f1, f2, f3, sak] =
        if c.ctFinalAccept then .final f0 f1 f2 f3 sak else .cascade) ∧
    (∀ level, sak &&& c.mSakCascade ≠ 0 → f0 ≠ c.ct →
      levelOutcome c level [f0, f1, f2, f3, sak] = .cascade) ∧
    (sak &&& c.mSakCascade ≠ 0 → levelOutcome c 3 [f0, f1, f2, f3, sak] = .cascade)

/-- R147, R149, R88: a SELECT whose first levels (none, one or two) continue with the cascade tag and
whose last is final, each answered in its own time, sends SEL_CL1, SEL_CL2, SEL_CL3 level by level,
assembles the UID of 4, 7 or 10 bytes in level order, with no tag of a continuing level in it, stores
the final SAK, rests in SELECTED, and answers UID and SAK. That REG_IRQ then holds M_DONE alone rests on
the clear of the whole register (DEDUCED, log entry 20). -/
def Obligations.SelectAssemblesUid : Prop :=
  ∀ (s : State) (quiet : Nat) (conts : List Continuing) (f0 f1 f2 f3 sak : Byte) (more : List Byte)
    (rest : List EnvMove),
    conts.length ≤ 2 →
    (∀ k ∈ conts, k.sak &&& s.cfg.mSakCascade ≠ 0) →
    sak &&& s.cfg.mSakCascade = 0 → (f0 ≠ s.cfg.ct ∨ s.cfg.ctFinalAccept = true) →
    let answers := conts.map (·.answer s.cfg) ++ [⟨quiet, f0 :: f1 :: f2 :: f3 :: sak :: more⟩]
    SelectRun s answers rest →
    let uid := conts.flatMap (fun k => [k.f1, k.f2, k.f3]) ++ [f0, f1, f2, f3]
    ∃ t l, exec .select s = .next t ∧
      t.bus = s.bus ++ l ∧ l.map (·.op) = selectOps s.cfg s.pe.pollInterval answers ∧
      t.pe.uid.toList = uid ++ List.replicate (10 - uid.length) 0 ∧
      t.pe = { s.pe with
        uid := t.pe.uid, uidLen := BitVec.ofNat 4 uid.length, sak := sak, seq := .selected
        level := BitVec.ofNat 2 (conts.length + 1), result := .ok
        count := BitVec.ofNat 8 uid.length, busy := false, elapsed := s.pe.waited quiet } ∧
      t.sent = s.sent ++ [[0x00, BitVec.ofNat 8 uid.length] ++ uid ++ [sak]] ∧
      t.dev = { s.dev with
        fifo := more, cmd := s.cfg.icCmdSelect, irq := s.cfg.mDone, frame := s.cfg.vFrameStd } ∧
      t.agent = .any rest ∧ t.host = s.host ∧ t.cfg = s.cfg

/-- R147, R148, R150: a completed level that does not fit ends the SELECT after any number of continuing
levels, each answered in its own time: fewer than five bytes, none included, with PROTO_SHORT, a cascade
mismatch with PROTO_CASCADE; SEQ is FAILED, the Tag registers are clear, LEVEL is the level that failed;
the micro-steps are those of the levels run, each with its own select code. That REG_IRQ then holds
M_DONE alone rests on the clear of the whole register (DEDUCED, log entry 20). -/
def Obligations.SelectFailsAtLevel : Prop :=
  ∀ (s : State) (quiet : Nat) (conts : List Continuing) (d : List Byte) (c : Result)
    (rest : List EnvMove),
    conts.length ≤ 2 → (∀ k ∈ conts, k.sak &&& s.cfg.mSakCascade ≠ 0) →
    ((d.length < 5 ∧ c = .protoShort) ∨
      (levelOutcome s.cfg (conts.length + 1) d = .cascade ∧ c = .protoCascade)) →
    let answers := conts.map (·.answer s.cfg) ++ [⟨quiet, d⟩]
    SelectRun s answers rest →
    ∃ t l, exec .select s = .next t ∧ t.sent = s.sent ++ [[c.code.setWidth 8, 0x00]] ∧
      t.bus = s.bus ++ l ∧ l.map (·.op) = selectOps s.cfg s.pe.pollInterval answers ∧
      t.pe = { openedRegs s.pe with
        seq := .failed, level := BitVec.ofNat 2 (conts.length + 1), result := c, count := 0
        busy := false, elapsed := s.pe.waited quiet } ∧
      t.dev = { s.dev with
        fifo := d.drop 5, cmd := s.cfg.icCmdSelect, irq := s.cfg.mDone, frame := s.cfg.vFrameStd } ∧
      t.agent = .any rest ∧ t.host = s.host ∧ t.cfg = s.cfg

/-- R26: how each host operation of the block moves SEQ, against any device, unless RESET strikes. -/
def Obligations.SequencerFollowsTable : Prop :=
  ∀ (i : Instr) (s t : State), s.pe.atRest → exec i s = .next t → t.sent ≠ s.sent →
    match i with
    | .reqa | .wupa =>
      (t.pe.result = .ok ∧ t.pe.seq = .request ∧ t.pe.atqa ≠ 0) ∨
      (t.pe.result = .noTag ∧ t.pe.seq = .idle) ∨
      (t.pe.result ≠ .ok ∧ t.pe.result ≠ .noTag ∧ t.pe.seq = .failed)
    | .select =>
      if s.pe.seq = .request then
        (t.pe.result = .ok ∧ t.pe.seq = .selected) ∨ (t.pe.result ≠ .ok ∧ t.pe.seq = .failed)
      else t.pe.result = .badSeq ∧ t.pe.seq = s.pe.seq
    | .sreset => t.pe.seq = .idle
    | _ => t.pe.seq = s.pe.seq

/-- R84, R191, R171 to R178: every operation other than RDCTL and WRCTL, the client operations included,
ends with one of its codes, against any device, unless RESET strikes. -/
def Obligations.ResultCodesPerOperation : Prop :=
  ∀ (i : Instr) (s t : State), allowedCodes s.cfg i ≠ [] → exec i s = .next t → t.sent ≠ s.sent →
    t.pe.result ∈ allowedCodes s.cfg i

/-- R191, R192, R179: against any device, and unless RESET strikes, an operation other than RDCTL and
WRCTL ends with COMM_ERR exactly when its last micro-step failed, and no micro-step before its last one
failed: nothing is retried and nothing is issued after a failure. CONFIGURE alone has a second ground
for COMM_ERR, a readback that does not match (R171). -/
def Obligations.FailureEndsOperation : Prop :=
  ∀ (i : Instr) (s t : State), allowedCodes s.cfg i ≠ [] → exec i s = .next t → t.sent ≠ s.sent →
    ∃ l, t.bus = s.bus ++ l ∧ (∀ b ∈ l.dropLast, b.answer ≠ .failed) ∧
      ((∃ b, l.getLast? = some b ∧ b.answer = .failed) → t.pe.result = .commErr) ∧
      ((∀ profile, i ≠ .configure profile) → t.pe.result = .commErr →
        ∃ b, l.getLast? = some b ∧ b.answer = .failed)

/-- R20 (who writes which register), R121, R101 to R108, R122, R152: against any device, and unless
RESET strikes, the raw operations change no PE register but RESULT, COUNT and BUSY, and REQA, WUPA,
SELECT and SRESET (R142, R143, R147, R123) keep the poll registers; the configuration and what the host
will do stay as they are. -/
def Obligations.OperationsFramePe : Prop :=
  ∀ (i : Instr) (s t : State), exec i s = .next t → t.sent ≠ s.sent →
    t.cfg = s.cfg ∧ t.host = s.host ∧
    match i with
    | .wrcmd _ _ | .fifolen | .fiford _ | .fifowr _ | .fifoclr | .getstat =>
      t.pe = { s.pe with result := t.pe.result, count := t.pe.count, busy := false }
    | .reqa | .wupa | .select | .sreset =>
      t.pe.pollBudget = s.pe.pollBudget ∧ t.pe.pollInterval = s.pe.pollInterval
    | _ => True

/-! ## The transport (20_memory.md) -/

/-- R57: the clear empties the FIFO, twice is the same as once, and it changes no other device state:
neither the running command nor the IRQ bits. -/
def Obligations.ClearIsIdempotent : Prop :=
  ∀ (s : State) (rest : List EnvMove), s.cfg.legal = true → s.Meets [.quiet, .quiet] rest →
    ∃ t u, clearFifo s = .ok () t ∧ clearFifo t = .ok () u ∧
      t.dev = { s.dev with fifo := [] } ∧ u.dev = t.dev

/-- Model's reading of U6 (log entry 9). R52, R55: after a failed write of the opcode register PE
has seen COMM_ERR and the register holds its old value or the new one. -/
def Obligations.FailedWriteIsOldOrNew : Prop :=
  ∀ (s : State) (v : Byte), s.cfg.legal = true → s.settle = 0 → v ≠ s.cfg.icCmdSoftReset →
    let m := s.moveFor (.write s.cfg.regCommand v)
    m.steps = [] → m.react = [] → m.fails = true → m.reset = false →
    ∃ t, tWrite s.cfg.regCommand v s = .err .commErr t ∧ t.pe = s.pe ∧
      (t.dev = s.dev ∨ t.dev = { s.dev with cmd := v })

/-- R70 to R73 (the reference device as log entry 26 builds it): against it, a REQA whose script
head has latency `lat` within the polled time reads ATQA at the first IRQ read made with ELAPSED at
or beyond `lat`, and the frame it transmitted is the card command byte. -/
def Obligations.ReferenceDeviceAnswersRequest : Prop :=
  ∀ (s : State) (lat : Nat) (d0 d1 : Byte) (script : List ScriptEntry) (frames : List (List Byte))
    (k : Nat),
    s.cfg.legal = true → s.cfg.icCmdTransceive ≠ s.cfg.icCmdSoftReset → 2 ≤ s.cfg.fifoCap →
    s.settle = 0 → s.pe.pollInterval ≠ 0 → ¬ (d0 = 0 ∧ d1 = 0) →
    s.agent = .reference { script := { lat := some lat, irq := s.cfg.mDone, resp := [d0, d1] } :: script
                           fails := [], pend := none, ordinal := k, frames := frames } →
    let e := (lat + s.pe.pollInterval.toNat - 1) / s.pe.pollInterval.toNat
    e ≤ s.pe.pollBudget.toNat / s.pe.pollInterval.toNat + 1 →
    ∃ t, exec .reqa s = .next t ∧ t.pe.atqa = d1 ++ d0 ∧ t.pe.seq = .request ∧
      t.pe.elapsed = BitVec.ofNat 17 (e * s.pe.pollInterval.toNat) ∧
      t.sent = s.sent ++ [[0x00, 0x02, d0, d1]] ∧
      ∃ ordinal, t.agent = .reference
        { script := script, fails := [], pend := none, ordinal := ordinal
          frames := frames ++ [[s.cfg.piccReqa]] }

/-! ## The whole machine -/

/-- R33, R40, R7: the rest rules, the legality of the configuration and the form of the device state
are kept by every step, whatever the device and the host do. The canonical form of the register space
is the model's own (Memory.wf). -/
def Obligations.StepKeepsRestRules : Prop :=
  ∀ s t : State, s.Inv → step s = .next t → t.Inv

/-- R33, R45: they hold right after reset, under every legal configuration. -/
def Obligations.ResetMeetsRestRules : Prop :=
  (∀ c : Cfg, c.legal = true → (State.resetWith c).Inv) ∧ State.reset.Inv

/-- R92: PE itself draws nothing: two runs of one operation of the block from equal PE registers that
are given the same answers on the transport, neither cut by RESET, issue the same primitives with the
same arguments, give the same response and leave equal PE registers. -/
def Obligations.SameAnswersSameBehaviour : Prop :=
  ∀ (i : Instr) (s s' t t' : State) (l l' : List BusStep) (r r' : List Byte),
    baseOp i.opcode = true → s.cfg = s'.cfg → s.pe = s'.pe →
    exec i s = .next t → exec i s' = .next t' →
    t.bus = s.bus ++ l → t'.bus = s'.bus ++ l' →
    l.map (·.answer) = l'.map (·.answer) →
    t.sent = s.sent ++ [r] → t'.sent = s'.sent ++ [r'] →
    l = l' ∧ r = r' ∧ t.pe = t'.pe

/-! ## The client extension (45_client_extension.md) -/

/-- R170: with EXT_CLIENT = false every client operation answers BAD_OP and does nothing else. -/
def Obligations.ClientOffAnswersBadOp : Prop :=
  ∀ (i : Instr) (s : State), clientOp i.opcode = true → s.cfg.extClient = false →
    exec i s = .next { s with
      pe := { s.pe with result := .badOp, count := 0, busy := false }
      sent := s.sent ++ [[0x0A, 0x00]] }

/-- R170: with EXT_CLIENT = true a client operation leaves SEQ, LEVEL, the Tag registers and the poll
registers untouched, against any device, unless RESET strikes. -/
def Obligations.ClientLeavesSequencer : Prop :=
  ∀ (i : Instr) (s t : State), clientOp i.opcode = true → exec i s = .next t → t.sent ≠ s.sent →
    t.cfg = s.cfg ∧ t.host = s.host ∧
    t.pe = { s.pe with
      result := t.pe.result, count := t.pe.count, busy := false, elapsed := t.pe.elapsed }

/-- R171: CONFIGURE of a known profile writes its pairs in table order and then reads back the registers
for which the profile specifies a value, in the same order; when each reads as specified (or none is
specified) it is OK after exactly those micro-steps, and no PE register but RESULT, COUNT and BUSY
changes. The tables are data of CFG (log entry 12), COUNT is a free value (13), the readback follows all
writes, in table order (19), what a write of another register does is the model's choice (8), and V_IRQ_CLEAR clears
the whole IRQ register (20). -/
def Obligations.ConfigureWritesTableInOrder : Prop :=
  ∀ (s : State) (profile : Byte) (pairs : List ProfilePair) (rest : List EnvMove),
    s.cfg.extClient = true → profilePairs s.cfg profile = some pairs →
    (∀ p ∈ pairs, ¬ (p.addr = s.cfg.regCommand ∧ p.value = s.cfg.icCmdSoftReset)) →
    let d := pairs.foldl (fun d p => d.writeReg s.cfg .quiet p.addr p.value) s.dev
    let reads := pairs.filterMap fun p => p.expect.map fun e => (⟨.read p.addr, .value e⟩ : BusStep)
    (∀ p ∈ pairs, ∀ e, p.expect = some e → d.readReg s.cfg p.addr = e) →
    s.Meets (List.replicate (pairs.length + reads.length) .quiet) rest →
    ∃ t, exec (.configure profile) s = .next t ∧
      t.bus = s.bus ++ pairs.map (fun p => ⟨.write p.addr p.value, .done⟩) ++ reads ∧
      t.dev = d ∧
      t.pe = { s.pe with result := .ok, count := t.pe.count, busy := false } ∧
      t.sent = s.sent ++ [[0x00, t.pe.count]] ∧ t.agent = .any rest

/-- Model's choices: the tables are data of CFG (log entry 12); readback follows all writes, in table
order, and stops at the first mismatch (19).
R171, U12: a failed write at any pair ends CONFIGURE with COMM_ERR after that write; a readback at any
pair that does not match is COMM_ERR too; an unknown profile is BAD_ARG with nothing issued. -/
def Obligations.ConfigureFailures : Prop :=
  ∀ (s : State) (profile : Byte), s.cfg.extClient = true →
    (profilePairs s.cfg profile = none →
      exec (.configure profile) s = .next { s with
        pe := { s.pe with result := .badArg, count := 0, busy := false }
        sent := s.sent ++ [[0x0B, 0x00]] }) ∧
    (∀ pairs t, profilePairs s.cfg profile = some pairs → writePairs pairs s = .err .commErr t →
      exec (.configure profile) s = .next { t with
        pe := { t.pe with result := .commErr, count := 0, busy := false }
        sent := t.sent ++ [[0x02, 0x00]] }) ∧
    (∀ pairs p more landed rest, profilePairs s.cfg profile = some (pairs ++ p :: more) →
      s.agent = .any (List.replicate pairs.length .quiet ++
        { fails := true, landed := landed } :: rest) →
      ∃ t, exec (.configure profile) s = .next t ∧
        t.bus = s.bus ++ pairs.map (fun p => ⟨.write p.addr p.value, .done⟩) ++
          [⟨.write p.addr p.value, .failed⟩] ∧
        t.pe = { s.pe with result := .commErr, count := 0, busy := false } ∧
        t.sent = s.sent ++ [[0x02, 0x00]] ∧ t.agent = .any rest) ∧
    (∀ pairs p more e u v t, profilePairs s.cfg profile = some (pairs ++ p :: more) →
      p.expect = some e → writePairs (pairs ++ p :: more) s = .ok () u →
      checkPairs pairs u = .ok () t →
      (∃ w, tRead p.addr t = .ok v w ∧ v ≠ e) →
      ∃ w, exec (.configure profile) s = .next w ∧ w.bus = t.bus ++ [⟨.read p.addr, .value v⟩] ∧
        w.pe = { s.pe with result := .commErr, count := 0, busy := false } ∧
        w.sent = s.sent ++ [[0x02, 0x00]])

/-- Model's choices: the calls are data of CFG (log entry 12), COUNT is a free value (13), a code
other than COMM_ERR is not reported (18), the key slot is open where the calls ended early (14) or may
have met the settle window (R226, U4) or reset the device, and a reset the device makes on its own leaves
the key (27). R173: LOADKEY is OK whenever its calls end without a transport failure; when they all
completed, with the settle window closed and no call that resets the device, the IC's key slot holds the
key; a transport failure is COMM_ERR. What the calls do is `ClientPlanRunsInOrder`. -/
def Obligations.LoadkeyLoadsKey : Prop :=
  ∀ (s u : State) (key : List Byte), s.cfg.extClient = true → s.pe.pollInterval ≠ 0 →
    let r := runClient (Instr.loadkey key).operands s.cfg.client.loadKey.steps [] s
    ((∃ a, r = .ok a u) →
      ∃ t, exec (.loadkey key) s = .next t ∧ t.dev = { u.dev with key := t.dev.key } ∧
        (s.settle = 0 → (∀ call ∈ s.cfg.client.loadKey.steps, call.resetsDevice s.cfg = false) →
          t.dev.key = some key) ∧
        t.pe = { u.pe with result := .ok, count := t.pe.count, busy := false } ∧
        t.sent = u.sent ++ [[0x00, t.pe.count]] ∧ t.bus = u.bus) ∧
    ((∃ c, c ≠ .commErr ∧ r = .err c u) →
      ∃ t, exec (.loadkey key) s = .next t ∧ t.dev = { u.dev with key := t.dev.key } ∧
        t.pe = { u.pe with result := .ok, count := t.pe.count, busy := false } ∧
        t.sent = u.sent ++ [[0x00, t.pe.count]] ∧ t.bus = u.bus) ∧
    (r = .err .commErr u →
      ∃ t, exec (.loadkey key) s = .next t ∧ t.dev = { u.dev with key := t.dev.key } ∧
        t.pe = { u.pe with result := .commErr, count := 0, busy := false } ∧
        t.sent = u.sent ++ [[0x02, 0x00]] ∧ t.bus = u.bus)

/-- Model's choices: the calls, the register and its bit are data of CFG (log entries 12, 17), COUNT
is a free value (13), a code other than COMM_ERR and TIMEOUT is a rejection (17). R174, R195: AUTH with
a legal key type and UID length whose command and poll complete is OK when the register that reports the
authenticated state shows its bit and AUTH_REJECTED otherwise; a transport failure in the calls, in the
poll or at that register is COMM_ERR; a poll that expires is TIMEOUT unless CFG reports it as a
rejection; an error bit is a rejection. What the calls do is `ClientPlanRunsInOrder`. -/
def Obligations.AuthReportsVerdict : Prop :=
  ∀ (s : State) (keyType blockNum : Byte) (uid : List Byte),
    s.cfg.extClient = true → s.pe.pollInterval ≠ 0 → keyType = 0 ∨ keyType = 1 →
    uid.length = 4 ∨ uid.length = 7 ∨ uid.length = 10 →
    let r := runClient (Instr.auth keyType blockNum uid).operands s.cfg.client.auth.steps [] s
    let reported (c : Result) : Result :=
      if c = .commErr then .commErr
      else if c = .timeout ∧ s.cfg.client.authTimeoutRejects = false then .timeout
      else .authRejected
    (∀ u v a rest, r = .ok a u → poll u = .ok () v → v.Meets [.quiet] rest →
      let c : Result := if v.dev.readReg v.cfg s.cfg.client.authReg &&& s.cfg.client.authMask ≠ 0
        then .ok else .authRejected
      ∃ t, exec (.auth keyType blockNum uid) s = .next t ∧ t.dev = v.dev ∧
        t.pe = { v.pe with result := c, count := t.pe.count, busy := false } ∧
        t.sent = v.sent ++ [[c.code.setWidth 8, t.pe.count]]) ∧
    (∀ u c, (r = .err c u ∨ ∃ a v, r = .ok a v ∧ poll v = .err c u) →
      ∃ t, exec (.auth keyType blockNum uid) s = .next t ∧ t.dev = u.dev ∧ t.bus = u.bus ∧
        t.pe = { u.pe with result := reported c, count := t.pe.count, busy := false } ∧
        t.sent = u.sent ++ [[(reported c).code.setWidth 8, t.pe.count]] ∧
        (reported c ≠ .authRejected → t.pe.count = 0)) ∧
    (∀ u v a landed rest, r = .ok a u → poll u = .ok () v →
      v.agent = .any ({ fails := true, landed := landed } :: rest) →
      ∃ t, exec (.auth keyType blockNum uid) s = .next t ∧ t.dev = v.dev ∧
        t.bus = v.bus ++ [⟨.read s.cfg.client.authReg, .failed⟩] ∧
        t.pe = { v.pe with result := .commErr, count := 0, busy := false } ∧
        t.sent = v.sent ++ [[0x02, 0x00]])

/-- R174: a key type that is neither A nor B answers BAD_ARG and issues nothing. That a UID of another
length than R170 lists does so too is the model's inference (log entry 17). -/
def Obligations.AuthRefusesIllegalArguments : Prop :=
  ∀ (s : State) (keyType blockNum : Byte) (uid : List Byte), s.cfg.extClient = true →
    2 ≤ keyType.toNat ∨ (uid.length ≠ 4 ∧ uid.length ≠ 7 ∧ uid.length ≠ 10) →
    exec (.auth keyType blockNum uid) s = .next { s with
      pe := { s.pe with result := .badArg, count := 0, busy := false }
      sent := s.sent ++ [[0x0B, 0x00]] }

/-- Model's choices: the IC opcode and the parameters, which may be none, are data of CFG (log entry 12),
and V_IRQ_CLEAR clears the whole IRQ register (DEDUCED, log entry 20). R175, R177: RDBLK and RDPAGE are
one exchange with standard frames; a device that answers with at least 16 or 4 bytes gives OK with the
first 16 or 4, one that answers with fewer, none included, gives PROTO_SHORT. An exchange that ends with
a code is `ExchangeErrorEndsOperation`. -/
def Obligations.ClientReadsPayload : Prop :=
  ∀ (i : Instr) (s : State) (quiet : Nat) (d : List Byte) (rest : List EnvMove),
    (∃ b, i = .rdblk b) ∨ (∃ p, i = .rdpage p) →
    let icop := (clientReadOf s.cfg i).1
    let params := (clientReadOf s.cfg i).2.1
    let n := (clientReadOf s.cfg i).2.2
    s.cfg.extClient = true → s.cfg.legal = true → icop ≠ s.cfg.icCmdSoftReset →
    params.length ≤ s.cfg.fifoCap → d.length ≤ s.cfg.fifoCap →
    s.pe.pollInterval ≠ 0 → quiet ≤ s.pe.pollBudget.toNat / s.pe.pollInterval.toNat + 1 →
    s.Meets (exchangeMoves params.length quiet d s.cfg.mDone ++
      (if d = [] then [.quiet] else [.quiet, .quiet])) rest →
    ∃ t l, exec i s = .next t ∧ t.bus = s.bus ++ l ∧
      l.map (·.op) =
        exchangeOps s.cfg s.pe.pollInterval s.cfg.vFrameStd icop params quiet (min n d.length) ∧
      t.dev = { s.dev with
        fifo := d.drop n, cmd := icop, irq := s.cfg.mDone, frame := s.cfg.vFrameStd } ∧
      t.agent = .any rest ∧ t.host = s.host ∧ t.cfg = s.cfg ∧
      (n ≤ d.length →
        t.sent = s.sent ++ [0x00 :: BitVec.ofNat 8 n :: d.take n] ∧
        t.pe = { s.pe with
          result := .ok, count := BitVec.ofNat 8 n, busy := false
          elapsed := BitVec.ofNat 17 (quiet * s.pe.pollInterval.toNat) }) ∧
      (d.length < n →
        t.sent = s.sent ++ [[0x06, 0x00]] ∧
        t.pe = { s.pe with
          result := .protoShort, count := 0, busy := false
          elapsed := BitVec.ofNat 17 (quiet * s.pe.pollInterval.toNat) })

/-- Model's choices: the calls and the acknowledgement are data of CFG (log entries 12, 19), and a
refused acknowledgement is PROTO_SHORT (19). R176, R178: WRBLK and WRPAGE whose calls complete with the
expected acknowledgement are OK with `writtenLen` 16 or 4; with another they end with COUNT 0; a code met
on the way ends them with COUNT 0. What the calls do is `ClientPlanRunsInOrder`. -/
def Obligations.ClientWritesPayload : Prop :=
  ∀ (i : Instr) (s u : State), (∃ b d, i = .wrblk b d) ∨ (∃ p d, i = .wrpage p d) →
    s.cfg.extClient = true → s.pe.pollInterval ≠ 0 →
    let plan := (clientWriteOf s.cfg i).1
    let ack := (clientWriteOf s.cfg i).2.1
    let n := (clientWriteOf s.cfg i).2.2
    (∀ a, runClient i.operands plan [] s = .ok a u → (ack = none ∨ ack = some a) →
      exec i s = .next { u with
        pe := { u.pe with result := .ok, count := BitVec.ofNat 8 n, busy := false }
        sent := u.sent ++ [[0x00, BitVec.ofNat 8 n]] }) ∧
    (∀ a b, runClient i.operands plan [] s = .ok a u → ack = some b → a ≠ b →
      exec i s = .next { u with
        pe := { u.pe with result := .protoShort, count := 0, busy := false }
        sent := u.sent ++ [[0x06, 0x00]] }) ∧
    (∀ c, runClient i.operands plan [] s = .err c u →
      exec i s = .next { u with
        pe := { u.pe with result := c, count := 0, busy := false }
        sent := u.sent ++ [[c.code.setWidth 8, 0x00]] })

/-! ## Exchanges that end with a code, and the calls of the client operations -/

/-- R128, R105, R147, R194, R150: where the overflow guard lets the card command byte or the select code
not through, REQA, WUPA and SELECT at any level end with PROTO_SHORT, without a POLL: either the device
has filled the FIFO before the length query, and no bulk write is issued, or the transport reports no
byte written (the FIFO is then empty: DEDUCED, log entry 9). That REG_IRQ is then 0 rests on the clear of
the whole register (DEDUCED, log entry 20). -/
def Obligations.CutParameterEndsAttempt : Prop :=
  ∀ (s : State) (cut : List EnvMove) (fifo : List Byte) (written : Bool) (rest : List EnvMove),
    s.cfg.legal = true → s.pe.pollInterval ≠ 0 → ParameterCut s.cfg cut fifo written →
    let ops (fc icop byte : Byte) : List BusOp :=
      openingOps s.cfg fc icop [byte] ++ if written then [.fifoWrite [byte]] else []
    let ended (level : BitVec 2) (e : BitVec 17) (icop fc : Byte) (l : List BusStep) : State := { s with
      pe := { openedRegs s.pe with
        seq := .failed, level := level, result := .protoShort, count := 0, busy := false, elapsed := e }
      dev := { s.dev with fifo := fifo, cmd := icop, irq := 0, frame := fc }
      agent := .any rest
      sent := s.sent ++ [[0x06, 0x00]]
      bus := s.bus ++ l }
    (∀ i, (i = .reqa ∨ i = .wupa) → s.cfg.icCmdTransceive ≠ s.cfg.icCmdSoftReset →
      s.Meets cut rest →
      ∃ l, l.map (·.op) = ops s.cfg.vFrameShort7 s.cfg.icCmdTransceive (requestByte s.cfg i) ∧
        exec i s = .next (ended 0 s.pe.elapsed s.cfg.icCmdTransceive s.cfg.vFrameShort7 l)) ∧
    (∀ conts : List Continuing, conts.length ≤ 2 →
      (∀ k ∈ conts, k.sak &&& s.cfg.mSakCascade ≠ 0) →
      SelectRun s (conts.map (·.answer s.cfg)) (cut ++ rest) →
      ∃ l, l.map (·.op) = selectOps s.cfg s.pe.pollInterval (conts.map (·.answer s.cfg)) ++
          ops s.cfg.vFrameStd s.cfg.icCmdSelect (selectCode s.cfg (conts.length + 1)) ∧
        exec .select s = .next (ended (BitVec.ofNat 2 (conts.length + 1)) (s.pe.afterLevels conts)
          s.cfg.icCmdSelect s.cfg.vFrameStd l))

/-- R126 to R128, R192, R194, R150, R175, R177: a request, a SELECT at any level, an RDBLK or an RDPAGE
whose exchange ends with an error bit, an expired POLL, a failed primitive at any of its micro-steps or
parameters cut by the overflow guard ends with that code and COUNT 0; ELAPSED is what the last POLL made
of it, and of the device only the FIFO, the opcode, the IRQ bits and the frame register may have
changed. For the sequencer operations SEQ is FAILED, the Tag registers are clear and LEVEL is the level
that failed; the client reads change no other PE register, and their IC opcode and parameters are data
of CFG (DESIGN CHOICE, log entry 12). -/
def Obligations.ExchangeErrorEndsOperation : Prop :=
  ∀ (s : State) (n : Nat) (ending : List EnvMove) (c : Result) (made : Option Nat)
    (rest : List EnvMove),
    s.cfg.legal = true → s.pe.pollInterval ≠ 0 →
    ExchangeEnds s.cfg s.pe.pollBudget s.pe.pollInterval n ending c made →
    let after (e : BitVec 17) : BitVec 17 := (made.map s.pe.waited).getD e
    let ended (p : Regs) (e : BitVec 17) (t : State) : Prop :=
      t.sent = s.sent ++ [[c.code.setWidth 8, 0x00]] ∧
      t.pe = { p with result := c, count := 0, busy := false, elapsed := after e } ∧
      t.dev = { s.dev with
        fifo := t.dev.fifo, cmd := t.dev.cmd, irq := t.dev.irq, frame := t.dev.frame } ∧
      t.agent = .any rest ∧ t.host = s.host ∧ t.cfg = s.cfg
    (∀ i, (i = .reqa ∨ i = .wupa) → n = 1 → s.cfg.icCmdTransceive ≠ s.cfg.icCmdSoftReset →
      s.Meets ending rest →
      ∃ t, exec i s = .next t ∧ ended { openedRegs s.pe with seq := .failed } s.pe.elapsed t) ∧
    (∀ conts : List Continuing, conts.length ≤ 2 → n = 1 →
      (∀ k ∈ conts, k.sak &&& s.cfg.mSakCascade ≠ 0) →
      SelectRun s (conts.map (·.answer s.cfg)) (ending ++ rest) →
      ∃ t, exec .select s = .next t ∧
        ended { openedRegs s.pe with seq := .failed, level := BitVec.ofNat 2 (conts.length + 1) }
          (s.pe.afterLevels conts) t) ∧
    (∀ i, ((∃ b, i = .rdblk b) ∨ (∃ p, i = .rdpage p)) → s.cfg.extClient = true →
      n = (clientReadOf s.cfg i).2.1.length → (clientReadOf s.cfg i).1 ≠ s.cfg.icCmdSoftReset →
      s.Meets ending rest → ∃ t, exec i s = .next t ∧ ended s.pe s.pe.elapsed t)

/-- R179: the calls CFG lists for a client operation are all made, each once, in order, with exactly
their micro-steps, each on what the one before left; what they read is collected in order; of PE only
ELAPSED changes. Model's choices: the lists themselves (log entry 12), what a `TWrite` of another
register than R57 to R59 name leaves in the device (8), and that V_IRQ_CLEAR clears the whole IRQ
register (20). -/
def Obligations.ClientPlanRunsInOrder : Prop :=
  ∀ (s : State) (operands : List Byte) (plan : List ClientStep) (ms : List EnvMove)
    (ops : List BusOp) (e : Device) (a acc : List Byte) (rest : List EnvMove),
    s.cfg.legal = true → s.pe.pollInterval ≠ 0 →
    ClientRun s.cfg s.pe.pollBudget s.pe.pollInterval operands plan s.dev ms ops e a →
    s.Meets ms rest →
    ∃ l u, runClient operands plan acc s = .ok (acc ++ a) u ∧ l.map (·.op) = ops ∧
      u = { s with
        pe := { s.pe with elapsed := u.pe.elapsed }, dev := e, agent := .any rest, bus := s.bus ++ l }

/-- R179, R192 to R194: a call of a client operation that ends with a code, against any device, ends them
all there with that code: the calls before it were made, the ones after it are not. The endings of a call
against listed moves, with their micro-steps: a failure at any of its primitives, parameters or bytes
that do not all go through, a POLL that expires, fails or reads an error bit. Model's choices: the lists
themselves (log entry 12), what a `TWrite` of another register than R57 to R59 name leaves in the device
(8) and that V_IRQ_CLEAR clears the whole IRQ register (20), that a short transfer is believed (9), and
that a cut `writeFIFO` is PROTO_SHORT (19). -/
def Obligations.ClientPlanEndsOnCode : Prop :=
  (∀ (s u v : State) (operands : List Byte) (before : List ClientStep) (step : ClientStep)
    (more : List ClientStep) (a acc : List Byte) (c : Result),
    runClient operands before acc s = .ok a u → runClient operands [step] a u = .err c v →
    runClient operands (before ++ step :: more) acc s = .err c v) ∧
  (∀ (s : State) (operands : List Byte) (before : List ClientStep) (step : ClientStep)
    (more : List ClientStep) (ms ms' : List EnvMove) (ops ops' : List BusOp) (e : Device)
    (a acc : List Byte) (c : Result) (rest : List EnvMove),
    s.cfg.legal = true → s.pe.pollInterval ≠ 0 →
    ClientRun s.cfg s.pe.pollBudget s.pe.pollInterval operands before s.dev ms ops e a →
    ClientEnds s.cfg s.pe.pollBudget s.pe.pollInterval operands step e ms' c ops' →
    s.Meets (ms ++ ms') rest →
    ∃ l u, runClient operands (before ++ step :: more) acc s = .err c u ∧
      l.map (·.op) = ops ++ ops' ∧ u.bus = s.bus ++ l ∧ u.agent = .any rest ∧
      u.pe = { s.pe with elapsed := u.pe.elapsed } ∧ u.sent = s.sent ∧ u.host = s.host ∧ u.cfg = s.cfg)
end

