-- ==== Sys2Proof/Laws/Memory.lean ====
section
/-! SUPPORT. The laws of the IC register space: a read after a write gives the byte written, a write
leaves every other address alone, and every operation keeps the canonical form. -/

namespace Sys2Proof.Laws

open Sys2Proof.Machine

theorem wfFrom_weaken {lo lo' : Nat} (h : lo ≤ lo') :
    ∀ {m : Memory}, Memory.wfFrom lo' m = true → Memory.wfFrom lo m = true
  | [], _ => rfl
  | (a, v) :: rest, hm => by
    simp only [Memory.wfFrom, Bool.and_eq_true, decide_eq_true_eq] at hm ⊢
    exact ⟨⟨⟨by omega, hm.1.1.2⟩, hm.1.2⟩, hm.2⟩

theorem read_below : ∀ {lo a : Nat} {m : Memory}, Memory.wfFrom lo m = true → a < lo →
    m.read a = Memory.blank
  | _, _, [], _, _ => rfl
  | lo, a, (b, w) :: rest, hm, h => by
    simp only [Memory.wfFrom, Bool.and_eq_true, decide_eq_true_eq] at hm
    have hb : a ≠ b := by omega
    simpa only [Memory.read, if_neg hb] using read_below (a := a) hm.2 (by omega)

theorem wfFrom_write : ∀ {lo a : Nat} {m : Memory} (v : Byte), Memory.wfFrom lo m = true →
    lo ≤ a → a < 256 → Memory.wfFrom lo (m.write a v) = true
  | lo, a, [], v, _, h, h' => by
    by_cases hv : v = Memory.blank <;> simp [Memory.write, Memory.wfFrom, hv, h, h']
  | lo, a, (b, w) :: rest, v, hm, h, h' => by
    simp only [Memory.wfFrom, Bool.and_eq_true, decide_eq_true_eq] at hm
    obtain ⟨⟨⟨h1, h2⟩, h3⟩, h4⟩ := hm
    unfold Memory.write
    split
    · split
      · simp [Memory.wfFrom, *]
      · rename_i hab hv
        simp only [Memory.wfFrom, Bool.and_eq_true, decide_eq_true_eq]
        exact ⟨⟨⟨h, h'⟩, hv⟩, ⟨⟨by omega, h2⟩, h3⟩, h4⟩
    · split
      · split
        · rename_i hab hv
          exact wfFrom_weaken (by omega) h4
        · rename_i hab hv
          simp only [Memory.wfFrom, Bool.and_eq_true, decide_eq_true_eq]
          exact ⟨⟨⟨h, h'⟩, hv⟩, hab ▸ h4⟩
      · simp only [Memory.wfFrom, Bool.and_eq_true, decide_eq_true_eq]
        exact ⟨⟨⟨h1, h2⟩, h3⟩, wfFrom_write v h4 (by omega) h'⟩

/-- A write keeps the canonical form. -/
theorem wf_write {a : Nat} {m : Memory} (v : Byte) (hm : m.wf = true) (h : a < 256) :
    (m.write a v).wf = true := wfFrom_write v hm (Nat.zero_le a) h

theorem wf_writeByte {m : Memory} (a v : Byte) (hm : m.wf = true) :
    (m.write a.toNat v).wf = true := wf_write v hm a.isLt

theorem wf_foldl_write : ∀ (l acc : Memory), acc.wf = true →
    (l.foldl (fun acc c => if c.1 < 256 then Memory.write acc c.1 c.2 else acc) acc).wf = true
  | [], _, h => h
  | c :: l, acc, h => by
    rw [List.foldl_cons]
    refine wf_foldl_write l _ ?_
    split
    · exact wf_write c.2 h ‹_›
    · exact h

/-- Whatever the pairs, their normal form is canonical. -/
theorem wf_normalise (m : Memory) : m.normalise.wf = true := wf_foldl_write m [] rfl

theorem read_write_from : ∀ {lo : Nat} {m : Memory} (a : Nat) (v : Byte),
    Memory.wfFrom lo m = true → (m.write a v).read a = v
  | _, [], a, v, _ => by
    by_cases hv : v = Memory.blank <;> simp [Memory.write, Memory.read, hv]
  | lo, (b, w) :: rest, a, v, hm => by
    simp only [Memory.wfFrom, Bool.and_eq_true, decide_eq_true_eq] at hm
    unfold Memory.write
    split
    · rename_i hab
      split
      · rename_i hv
        rw [hv, Memory.read, if_neg (by omega)]
        exact read_below (lo := b + 1) hm.2 (by omega)
      · simp [Memory.read]
    · split
      · split
        · rename_i hab hv
          rw [hv, hab]
          exact read_below (lo := b + 1) hm.2 (by omega)
        · simp [Memory.read]
      · rename_i h1 h2
        simpa only [Memory.read, if_neg h2] using read_write_from a v hm.2

/-- A read after a write to the same address gives the byte written. -/
theorem read_write_same {m : Memory} (a : Nat) (v : Byte) (hm : m.wf = true) :
    (m.write a v).read a = v := read_write_from a v hm

/-- A write leaves every other address alone. -/
theorem read_write_other {a b : Nat} (v : Byte) (h : b ≠ a) :
    ∀ (m : Memory), (m.write a v).read b = m.read b
  | [] => by by_cases hv : v = Memory.blank <;> simp [Memory.write, Memory.read, hv, h]
  | (c, w) :: rest => by
    unfold Memory.write
    split
    · split
      · rfl
      · simp [Memory.read, h]
    · split
      · rename_i hac
        split
        · simp [Memory.read, ← hac, h]
        · simp [Memory.read, ← hac, h]
      · simp only [Memory.read, read_write_other v h rest]

end Sys2Proof.Laws
end

