-- ==== Sys2Proof/Laws/State.lean ====
section
/-! SUPPORT. Small lemmas of the state: one per field per update, true by rfl and tagged for simp, so
that no later proof unfolds a record update. -/

namespace Sys2Proof.Laws

open Sys2Proof.Machine

/-! ### `State.resetPe` -/

@[simp] theorem resetPe_cfg (s : State) :
    s.resetPe.cfg = s.cfg := rfl

@[simp] theorem resetPe_pe (s : State) :
    s.resetPe.pe = Regs.afterReset s.cfg := rfl

@[simp] theorem resetPe_dev (s : State) :
    s.resetPe.dev = s.dev := rfl

@[simp] theorem resetPe_settle (s : State) :
    s.resetPe.settle = s.settle := rfl

@[simp] theorem resetPe_agent (s : State) :
    s.resetPe.agent = s.agent := rfl

@[simp] theorem resetPe_drawn (s : State) :
    s.resetPe.drawn = s.drawn := rfl

@[simp] theorem resetPe_host (s : State) :
    s.resetPe.host = s.host := rfl

@[simp] theorem resetPe_sent (s : State) :
    s.resetPe.sent = s.sent := rfl

@[simp] theorem resetPe_bus (s : State) :
    s.resetPe.bus = s.bus := rfl

/-! ### `State.record` -/

@[simp] theorem record_cfg (s : State) (m : EnvMove) (op : BusOp) (ans : BusAnswer) :
    (s.record m op ans).cfg = s.cfg := rfl

@[simp] theorem record_pe (s : State) (m : EnvMove) (op : BusOp) (ans : BusAnswer) :
    (s.record m op ans).pe = s.pe := rfl

@[simp] theorem record_dev (s : State) (m : EnvMove) (op : BusOp) (ans : BusAnswer) :
    (s.record m op ans).dev = s.dev.takeSteps s.cfg m.react := rfl

@[simp] theorem record_settle (s : State) (m : EnvMove) (op : BusOp) (ans : BusAnswer) :
    (s.record m op ans).settle = s.settle := rfl

@[simp] theorem record_agent (s : State) (m : EnvMove) (op : BusOp) (ans : BusAnswer) :
    (s.record m op ans).agent = s.agent := rfl

@[simp] theorem record_drawn (s : State) (m : EnvMove) (op : BusOp) (ans : BusAnswer) :
    (s.record m op ans).drawn = s.drawn := rfl

@[simp] theorem record_host (s : State) (m : EnvMove) (op : BusOp) (ans : BusAnswer) :
    (s.record m op ans).host = s.host := rfl

@[simp] theorem record_sent (s : State) (m : EnvMove) (op : BusOp) (ans : BusAnswer) :
    (s.record m op ans).sent = s.sent := rfl

@[simp] theorem record_bus (s : State) (m : EnvMove) (op : BusOp) (ans : BusAnswer) :
    (s.record m op ans).bus = s.bus ++ [{ op := op, answer := ans }] := rfl

/-! ### `State.idleTicks` -/

@[simp] theorem idleTicks_cfg (s : State) (t : Nat) :
    (s.idleTicks t).cfg = s.cfg := rfl

@[simp] theorem idleTicks_pe (s : State) (t : Nat) :
    (s.idleTicks t).pe = s.pe := rfl

@[simp] theorem idleTicks_dev (s : State) (t : Nat) :
    (s.idleTicks t).dev = s.dev := rfl

@[simp] theorem idleTicks_settle (s : State) (t : Nat) :
    (s.idleTicks t).settle = s.settle - t := rfl

@[simp] theorem idleTicks_agent (s : State) (t : Nat) :
    (s.idleTicks t).agent = s.agent := rfl

@[simp] theorem idleTicks_drawn (s : State) (t : Nat) :
    (s.idleTicks t).drawn = s.drawn := rfl

@[simp] theorem idleTicks_host (s : State) (t : Nat) :
    (s.idleTicks t).host = s.host := rfl

@[simp] theorem idleTicks_sent (s : State) (t : Nat) :
    (s.idleTicks t).sent = s.sent := rfl

@[simp] theorem idleTicks_bus (s : State) (t : Nat) :
    (s.idleTicks t).bus = s.bus := rfl

/-! ### `State.accepted` -/

@[simp] theorem accepted_cfg (s : State) :
    s.accepted.cfg = s.cfg := rfl

@[simp] theorem accepted_dev (s : State) :
    s.accepted.dev = s.dev := rfl

@[simp] theorem accepted_settle (s : State) :
    s.accepted.settle = s.settle := rfl

@[simp] theorem accepted_agent (s : State) :
    s.accepted.agent = s.agent := rfl

@[simp] theorem accepted_drawn (s : State) :
    s.accepted.drawn = s.drawn := rfl

@[simp] theorem accepted_host (s : State) :
    s.accepted.host = s.host := rfl

@[simp] theorem accepted_sent (s : State) :
    s.accepted.sent = s.sent := rfl

@[simp] theorem accepted_bus (s : State) :
    s.accepted.bus = s.bus := rfl

@[simp] theorem accepted_pe_atqa (s : State) :
    s.accepted.pe.atqa = s.pe.atqa := rfl

@[simp] theorem accepted_pe_uid (s : State) :
    s.accepted.pe.uid = s.pe.uid := rfl

@[simp] theorem accepted_pe_uidLen (s : State) :
    s.accepted.pe.uidLen = s.pe.uidLen := rfl

@[simp] theorem accepted_pe_sak (s : State) :
    s.accepted.pe.sak = s.pe.sak := rfl

@[simp] theorem accepted_pe_seq (s : State) :
    s.accepted.pe.seq = s.pe.seq := rfl

@[simp] theorem accepted_pe_level (s : State) :
    s.accepted.pe.level = s.pe.level := rfl

@[simp] theorem accepted_pe_result (s : State) :
    s.accepted.pe.result = s.pe.result := rfl

@[simp] theorem accepted_pe_count (s : State) :
    s.accepted.pe.count = s.pe.count := rfl

@[simp] theorem accepted_pe_busy (s : State) :
    s.accepted.pe.busy = true := rfl

@[simp] theorem accepted_pe_pollBudget (s : State) :
    s.accepted.pe.pollBudget = s.pe.pollBudget := rfl

@[simp] theorem accepted_pe_pollInterval (s : State) :
    s.accepted.pe.pollInterval = s.pe.pollInterval := rfl

@[simp] theorem accepted_pe_elapsed (s : State) :
    s.accepted.pe.elapsed = s.pe.elapsed := rfl

/-! ### `State.respond` -/

@[simp] theorem respond_cfg (s : State) (r : Response) :
    (s.respond r).cfg = s.cfg := rfl

@[simp] theorem respond_dev (s : State) (r : Response) :
    (s.respond r).dev = s.dev := rfl

@[simp] theorem respond_settle (s : State) (r : Response) :
    (s.respond r).settle = s.settle := rfl

@[simp] theorem respond_agent (s : State) (r : Response) :
    (s.respond r).agent = s.agent := rfl

@[simp] theorem respond_drawn (s : State) (r : Response) :
    (s.respond r).drawn = s.drawn := rfl

@[simp] theorem respond_host (s : State) (r : Response) :
    (s.respond r).host = s.host := rfl

@[simp] theorem respond_sent (s : State) (r : Response) :
    (s.respond r).sent = s.sent ++ [r.bytes] := rfl

@[simp] theorem respond_bus (s : State) (r : Response) :
    (s.respond r).bus = s.bus := rfl

@[simp] theorem respond_pe_atqa (s : State) (r : Response) :
    (s.respond r).pe.atqa = s.pe.atqa := rfl

@[simp] theorem respond_pe_uid (s : State) (r : Response) :
    (s.respond r).pe.uid = s.pe.uid := rfl

@[simp] theorem respond_pe_uidLen (s : State) (r : Response) :
    (s.respond r).pe.uidLen = s.pe.uidLen := rfl

@[simp] theorem respond_pe_sak (s : State) (r : Response) :
    (s.respond r).pe.sak = s.pe.sak := rfl

@[simp] theorem respond_pe_seq (s : State) (r : Response) :
    (s.respond r).pe.seq = s.pe.seq := rfl

@[simp] theorem respond_pe_level (s : State) (r : Response) :
    (s.respond r).pe.level = s.pe.level := rfl

@[simp] theorem respond_pe_result (s : State) (r : Response) :
    (s.respond r).pe.result = r.code := rfl

@[simp] theorem respond_pe_count (s : State) (r : Response) :
    (s.respond r).pe.count = r.count := rfl

@[simp] theorem respond_pe_busy (s : State) (r : Response) :
    (s.respond r).pe.busy = false := rfl

@[simp] theorem respond_pe_pollBudget (s : State) (r : Response) :
    (s.respond r).pe.pollBudget = s.pe.pollBudget := rfl

@[simp] theorem respond_pe_pollInterval (s : State) (r : Response) :
    (s.respond r).pe.pollInterval = s.pe.pollInterval := rfl

@[simp] theorem respond_pe_elapsed (s : State) (r : Response) :
    (s.respond r).pe.elapsed = s.pe.elapsed := rfl

/-! ### `State.answer` -/

@[simp] theorem answer_cfg (s : State) (r : Response) :
    (s.answer r).cfg = s.cfg := rfl

@[simp] theorem answer_dev (s : State) (r : Response) :
    (s.answer r).dev = s.dev := rfl

@[simp] theorem answer_settle (s : State) (r : Response) :
    (s.answer r).settle = s.settle := rfl

@[simp] theorem answer_agent (s : State) (r : Response) :
    (s.answer r).agent = s.agent := rfl

@[simp] theorem answer_drawn (s : State) (r : Response) :
    (s.answer r).drawn = s.drawn := rfl

@[simp] theorem answer_host (s : State) (r : Response) :
    (s.answer r).host = s.host := rfl

@[simp] theorem answer_sent (s : State) (r : Response) :
    (s.answer r).sent = s.sent ++ [r.bytes] := rfl

@[simp] theorem answer_bus (s : State) (r : Response) :
    (s.answer r).bus = s.bus := rfl

@[simp] theorem answer_pe_atqa (s : State) (r : Response) :
    (s.answer r).pe.atqa = s.pe.atqa := rfl

@[simp] theorem answer_pe_uid (s : State) (r : Response) :
    (s.answer r).pe.uid = s.pe.uid := rfl

@[simp] theorem answer_pe_uidLen (s : State) (r : Response) :
    (s.answer r).pe.uidLen = s.pe.uidLen := rfl

@[simp] theorem answer_pe_sak (s : State) (r : Response) :
    (s.answer r).pe.sak = s.pe.sak := rfl

@[simp] theorem answer_pe_seq (s : State) (r : Response) :
    (s.answer r).pe.seq = s.pe.seq := rfl

@[simp] theorem answer_pe_level (s : State) (r : Response) :
    (s.answer r).pe.level = s.pe.level := rfl

@[simp] theorem answer_pe_result (s : State) (r : Response) :
    (s.answer r).pe.result = s.pe.result := rfl

@[simp] theorem answer_pe_count (s : State) (r : Response) :
    (s.answer r).pe.count = s.pe.count := rfl

@[simp] theorem answer_pe_busy (s : State) (r : Response) :
    (s.answer r).pe.busy = false := rfl

@[simp] theorem answer_pe_pollBudget (s : State) (r : Response) :
    (s.answer r).pe.pollBudget = s.pe.pollBudget := rfl

@[simp] theorem answer_pe_pollInterval (s : State) (r : Response) :
    (s.answer r).pe.pollInterval = s.pe.pollInterval := rfl

@[simp] theorem answer_pe_elapsed (s : State) (r : Response) :
    (s.answer r).pe.elapsed = s.pe.elapsed := rfl

/-! ### `State.raiseCode` -/

@[simp] theorem raiseCode_cfg (s : State) (c : Result) :
    (s.raiseCode c).cfg = s.cfg := rfl

@[simp] theorem raiseCode_dev (s : State) (c : Result) :
    (s.raiseCode c).dev = s.dev := rfl

@[simp] theorem raiseCode_settle (s : State) (c : Result) :
    (s.raiseCode c).settle = s.settle := rfl

@[simp] theorem raiseCode_agent (s : State) (c : Result) :
    (s.raiseCode c).agent = s.agent := rfl

@[simp] theorem raiseCode_drawn (s : State) (c : Result) :
    (s.raiseCode c).drawn = s.drawn := rfl

@[simp] theorem raiseCode_host (s : State) (c : Result) :
    (s.raiseCode c).host = s.host := rfl

@[simp] theorem raiseCode_sent (s : State) (c : Result) :
    (s.raiseCode c).sent = s.sent ++ [[c.code.setWidth 8, 0]] := rfl

@[simp] theorem raiseCode_bus (s : State) (c : Result) :
    (s.raiseCode c).bus = s.bus := rfl

@[simp] theorem raiseCode_pe_atqa (s : State) (c : Result) :
    (s.raiseCode c).pe.atqa = s.pe.atqa := rfl

@[simp] theorem raiseCode_pe_uid (s : State) (c : Result) :
    (s.raiseCode c).pe.uid = s.pe.uid := rfl

@[simp] theorem raiseCode_pe_uidLen (s : State) (c : Result) :
    (s.raiseCode c).pe.uidLen = s.pe.uidLen := rfl

@[simp] theorem raiseCode_pe_sak (s : State) (c : Result) :
    (s.raiseCode c).pe.sak = s.pe.sak := rfl

@[simp] theorem raiseCode_pe_seq (s : State) (c : Result) :
    (s.raiseCode c).pe.seq = s.pe.seq := rfl

@[simp] theorem raiseCode_pe_level (s : State) (c : Result) :
    (s.raiseCode c).pe.level = s.pe.level := rfl

@[simp] theorem raiseCode_pe_result (s : State) (c : Result) :
    (s.raiseCode c).pe.result = c := rfl

@[simp] theorem raiseCode_pe_count (s : State) (c : Result) :
    (s.raiseCode c).pe.count = 0 := rfl

@[simp] theorem raiseCode_pe_busy (s : State) (c : Result) :
    (s.raiseCode c).pe.busy = false := rfl

@[simp] theorem raiseCode_pe_pollBudget (s : State) (c : Result) :
    (s.raiseCode c).pe.pollBudget = s.pe.pollBudget := rfl

@[simp] theorem raiseCode_pe_pollInterval (s : State) (c : Result) :
    (s.raiseCode c).pe.pollInterval = s.pe.pollInterval := rfl

@[simp] theorem raiseCode_pe_elapsed (s : State) (c : Result) :
    (s.raiseCode c).pe.elapsed = s.pe.elapsed := rfl

/-! ### `State.fail` -/

@[simp] theorem fail_cfg (s : State) (c : Result) :
    (s.fail c).cfg = s.cfg := rfl

@[simp] theorem fail_dev (s : State) (c : Result) :
    (s.fail c).dev = s.dev := rfl

@[simp] theorem fail_settle (s : State) (c : Result) :
    (s.fail c).settle = s.settle := rfl

@[simp] theorem fail_agent (s : State) (c : Result) :
    (s.fail c).agent = s.agent := rfl

@[simp] theorem fail_drawn (s : State) (c : Result) :
    (s.fail c).drawn = s.drawn := rfl

@[simp] theorem fail_host (s : State) (c : Result) :
    (s.fail c).host = s.host := rfl

@[simp] theorem fail_sent (s : State) (c : Result) :
    (s.fail c).sent = s.sent ++ [[c.code.setWidth 8, 0]] := rfl

@[simp] theorem fail_bus (s : State) (c : Result) :
    (s.fail c).bus = s.bus := rfl

@[simp] theorem fail_pe_atqa (s : State) (c : Result) :
    (s.fail c).pe.atqa = 0 := rfl

@[simp] theorem fail_pe_uid (s : State) (c : Result) :
    (s.fail c).pe.uid = Vector.replicate 10 0 := rfl

@[simp] theorem fail_pe_uidLen (s : State) (c : Result) :
    (s.fail c).pe.uidLen = 0 := rfl

@[simp] theorem fail_pe_sak (s : State) (c : Result) :
    (s.fail c).pe.sak = 0 := rfl

@[simp] theorem fail_pe_seq (s : State) (c : Result) :
    (s.fail c).pe.seq = .failed := rfl

@[simp] theorem fail_pe_level (s : State) (c : Result) :
    (s.fail c).pe.level = s.pe.level := rfl

@[simp] theorem fail_pe_result (s : State) (c : Result) :
    (s.fail c).pe.result = c := rfl

@[simp] theorem fail_pe_count (s : State) (c : Result) :
    (s.fail c).pe.count = 0 := rfl

@[simp] theorem fail_pe_busy (s : State) (c : Result) :
    (s.fail c).pe.busy = false := rfl

@[simp] theorem fail_pe_pollBudget (s : State) (c : Result) :
    (s.fail c).pe.pollBudget = s.pe.pollBudget := rfl

@[simp] theorem fail_pe_pollInterval (s : State) (c : Result) :
    (s.fail c).pe.pollInterval = s.pe.pollInterval := rfl

@[simp] theorem fail_pe_elapsed (s : State) (c : Result) :
    (s.fail c).pe.elapsed = s.pe.elapsed := rfl

/-! ### `State.openAttempt` -/

@[simp] theorem openAttempt_cfg (s : State) :
    s.openAttempt.cfg = s.cfg := rfl

@[simp] theorem openAttempt_dev (s : State) :
    s.openAttempt.dev = s.dev := rfl

@[simp] theorem openAttempt_settle (s : State) :
    s.openAttempt.settle = s.settle := rfl

@[simp] theorem openAttempt_agent (s : State) :
    s.openAttempt.agent = s.agent := rfl

@[simp] theorem openAttempt_drawn (s : State) :
    s.openAttempt.drawn = s.drawn := rfl

@[simp] theorem openAttempt_host (s : State) :
    s.openAttempt.host = s.host := rfl

@[simp] theorem openAttempt_sent (s : State) :
    s.openAttempt.sent = s.sent := rfl

@[simp] theorem openAttempt_bus (s : State) :
    s.openAttempt.bus = s.bus := rfl

@[simp] theorem openAttempt_pe_atqa (s : State) :
    s.openAttempt.pe.atqa = 0 := rfl

@[simp] theorem openAttempt_pe_uid (s : State) :
    s.openAttempt.pe.uid = Vector.replicate 10 0 := rfl

@[simp] theorem openAttempt_pe_uidLen (s : State) :
    s.openAttempt.pe.uidLen = 0 := rfl

@[simp] theorem openAttempt_pe_sak (s : State) :
    s.openAttempt.pe.sak = 0 := rfl

@[simp] theorem openAttempt_pe_seq (s : State) :
    s.openAttempt.pe.seq = .request := rfl

@[simp] theorem openAttempt_pe_level (s : State) :
    s.openAttempt.pe.level = 0 := rfl

@[simp] theorem openAttempt_pe_result (s : State) :
    s.openAttempt.pe.result = s.pe.result := rfl

@[simp] theorem openAttempt_pe_count (s : State) :
    s.openAttempt.pe.count = s.pe.count := rfl

@[simp] theorem openAttempt_pe_busy (s : State) :
    s.openAttempt.pe.busy = s.pe.busy := rfl

@[simp] theorem openAttempt_pe_pollBudget (s : State) :
    s.openAttempt.pe.pollBudget = s.pe.pollBudget := rfl

@[simp] theorem openAttempt_pe_pollInterval (s : State) :
    s.openAttempt.pe.pollInterval = s.pe.pollInterval := rfl

@[simp] theorem openAttempt_pe_elapsed (s : State) :
    s.openAttempt.pe.elapsed = s.pe.elapsed := rfl

/-! ### `State.dropAttempt` -/

@[simp] theorem dropAttempt_cfg (s : State) :
    s.dropAttempt.cfg = s.cfg := rfl

@[simp] theorem dropAttempt_dev (s : State) :
    s.dropAttempt.dev = s.dev := rfl

@[simp] theorem dropAttempt_settle (s : State) :
    s.dropAttempt.settle = s.settle := rfl

@[simp] theorem dropAttempt_agent (s : State) :
    s.dropAttempt.agent = s.agent := rfl

@[simp] theorem dropAttempt_drawn (s : State) :
    s.dropAttempt.drawn = s.drawn := rfl

@[simp] theorem dropAttempt_host (s : State) :
    s.dropAttempt.host = s.host := rfl

@[simp] theorem dropAttempt_sent (s : State) :
    s.dropAttempt.sent = s.sent := rfl

@[simp] theorem dropAttempt_bus (s : State) :
    s.dropAttempt.bus = s.bus := rfl

@[simp] theorem dropAttempt_pe_atqa (s : State) :
    s.dropAttempt.pe.atqa = 0 := rfl

@[simp] theorem dropAttempt_pe_uid (s : State) :
    s.dropAttempt.pe.uid = Vector.replicate 10 0 := rfl

@[simp] theorem dropAttempt_pe_uidLen (s : State) :
    s.dropAttempt.pe.uidLen = 0 := rfl

@[simp] theorem dropAttempt_pe_sak (s : State) :
    s.dropAttempt.pe.sak = 0 := rfl

@[simp] theorem dropAttempt_pe_seq (s : State) :
    s.dropAttempt.pe.seq = .idle := rfl

@[simp] theorem dropAttempt_pe_level (s : State) :
    s.dropAttempt.pe.level = 0 := rfl

@[simp] theorem dropAttempt_pe_result (s : State) :
    s.dropAttempt.pe.result = s.pe.result := rfl

@[simp] theorem dropAttempt_pe_count (s : State) :
    s.dropAttempt.pe.count = s.pe.count := rfl

@[simp] theorem dropAttempt_pe_busy (s : State) :
    s.dropAttempt.pe.busy = s.pe.busy := rfl

@[simp] theorem dropAttempt_pe_pollBudget (s : State) :
    s.dropAttempt.pe.pollBudget = s.pe.pollBudget := rfl

@[simp] theorem dropAttempt_pe_pollInterval (s : State) :
    s.dropAttempt.pe.pollInterval = s.pe.pollInterval := rfl

@[simp] theorem dropAttempt_pe_elapsed (s : State) :
    s.dropAttempt.pe.elapsed = s.pe.elapsed := rfl

/-! ### `State.keepFragment` -/

@[simp] theorem keepFragment_cfg (s : State) (f1 f2 f3 : Byte) :
    (s.keepFragment f1 f2 f3).cfg = s.cfg := rfl

@[simp] theorem keepFragment_dev (s : State) (f1 f2 f3 : Byte) :
    (s.keepFragment f1 f2 f3).dev = s.dev := rfl

@[simp] theorem keepFragment_settle (s : State) (f1 f2 f3 : Byte) :
    (s.keepFragment f1 f2 f3).settle = s.settle := rfl

@[simp] theorem keepFragment_agent (s : State) (f1 f2 f3 : Byte) :
    (s.keepFragment f1 f2 f3).agent = s.agent := rfl

@[simp] theorem keepFragment_drawn (s : State) (f1 f2 f3 : Byte) :
    (s.keepFragment f1 f2 f3).drawn = s.drawn := rfl

@[simp] theorem keepFragment_host (s : State) (f1 f2 f3 : Byte) :
    (s.keepFragment f1 f2 f3).host = s.host := rfl

@[simp] theorem keepFragment_sent (s : State) (f1 f2 f3 : Byte) :
    (s.keepFragment f1 f2 f3).sent = s.sent := rfl

@[simp] theorem keepFragment_bus (s : State) (f1 f2 f3 : Byte) :
    (s.keepFragment f1 f2 f3).bus = s.bus := rfl

@[simp] theorem keepFragment_pe_atqa (s : State) (f1 f2 f3 : Byte) :
    (s.keepFragment f1 f2 f3).pe.atqa = s.pe.atqa := rfl

@[simp] theorem keepFragment_pe_uid (s : State) (f1 f2 f3 : Byte) :
    (s.keepFragment f1 f2 f3).pe.uid = uidWrite s.pe.uid s.pe.uidLen.toNat [f1, f2, f3] := rfl

@[simp] theorem keepFragment_pe_uidLen (s : State) (f1 f2 f3 : Byte) :
    (s.keepFragment f1 f2 f3).pe.uidLen = s.pe.uidLen + 3 := rfl

@[simp] theorem keepFragment_pe_sak (s : State) (f1 f2 f3 : Byte) :
    (s.keepFragment f1 f2 f3).pe.sak = s.pe.sak := rfl

@[simp] theorem keepFragment_pe_seq (s : State) (f1 f2 f3 : Byte) :
    (s.keepFragment f1 f2 f3).pe.seq = s.pe.seq := rfl

@[simp] theorem keepFragment_pe_level (s : State) (f1 f2 f3 : Byte) :
    (s.keepFragment f1 f2 f3).pe.level = s.pe.level := rfl

@[simp] theorem keepFragment_pe_result (s : State) (f1 f2 f3 : Byte) :
    (s.keepFragment f1 f2 f3).pe.result = s.pe.result := rfl

@[simp] theorem keepFragment_pe_count (s : State) (f1 f2 f3 : Byte) :
    (s.keepFragment f1 f2 f3).pe.count = s.pe.count := rfl

@[simp] theorem keepFragment_pe_busy (s : State) (f1 f2 f3 : Byte) :
    (s.keepFragment f1 f2 f3).pe.busy = s.pe.busy := rfl

@[simp] theorem keepFragment_pe_pollBudget (s : State) (f1 f2 f3 : Byte) :
    (s.keepFragment f1 f2 f3).pe.pollBudget = s.pe.pollBudget := rfl

@[simp] theorem keepFragment_pe_pollInterval (s : State) (f1 f2 f3 : Byte) :
    (s.keepFragment f1 f2 f3).pe.pollInterval = s.pe.pollInterval := rfl

@[simp] theorem keepFragment_pe_elapsed (s : State) (f1 f2 f3 : Byte) :
    (s.keepFragment f1 f2 f3).pe.elapsed = s.pe.elapsed := rfl

/-! ### `State.keepFinal` -/

@[simp] theorem keepFinal_cfg (s : State) (f0 f1 f2 f3 sak : Byte) :
    (s.keepFinal f0 f1 f2 f3 sak).cfg = s.cfg := rfl

@[simp] theorem keepFinal_dev (s : State) (f0 f1 f2 f3 sak : Byte) :
    (s.keepFinal f0 f1 f2 f3 sak).dev = s.dev := rfl

@[simp] theorem keepFinal_settle (s : State) (f0 f1 f2 f3 sak : Byte) :
    (s.keepFinal f0 f1 f2 f3 sak).settle = s.settle := rfl

@[simp] theorem keepFinal_agent (s : State) (f0 f1 f2 f3 sak : Byte) :
    (s.keepFinal f0 f1 f2 f3 sak).agent = s.agent := rfl

@[simp] theorem keepFinal_drawn (s : State) (f0 f1 f2 f3 sak : Byte) :
    (s.keepFinal f0 f1 f2 f3 sak).drawn = s.drawn := rfl

@[simp] theorem keepFinal_host (s : State) (f0 f1 f2 f3 sak : Byte) :
    (s.keepFinal f0 f1 f2 f3 sak).host = s.host := rfl

@[simp] theorem keepFinal_sent (s : State) (f0 f1 f2 f3 sak : Byte) :
    (s.keepFinal f0 f1 f2 f3 sak).sent = s.sent := rfl

@[simp] theorem keepFinal_bus (s : State) (f0 f1 f2 f3 sak : Byte) :
    (s.keepFinal f0 f1 f2 f3 sak).bus = s.bus := rfl

@[simp] theorem keepFinal_pe_atqa (s : State) (f0 f1 f2 f3 sak : Byte) :
    (s.keepFinal f0 f1 f2 f3 sak).pe.atqa = s.pe.atqa := rfl

@[simp] theorem keepFinal_pe_uid (s : State) (f0 f1 f2 f3 sak : Byte) :
    (s.keepFinal f0 f1 f2 f3 sak).pe.uid = uidWrite s.pe.uid s.pe.uidLen.toNat [f0, f1, f2, f3] := rfl

@[simp] theorem keepFinal_pe_uidLen (s : State) (f0 f1 f2 f3 sak : Byte) :
    (s.keepFinal f0 f1 f2 f3 sak).pe.uidLen = s.pe.uidLen + 4 := rfl

@[simp] theorem keepFinal_pe_sak (s : State) (f0 f1 f2 f3 sak : Byte) :
    (s.keepFinal f0 f1 f2 f3 sak).pe.sak = sak := rfl

@[simp] theorem keepFinal_pe_seq (s : State) (f0 f1 f2 f3 sak : Byte) :
    (s.keepFinal f0 f1 f2 f3 sak).pe.seq = .selected := rfl

@[simp] theorem keepFinal_pe_level (s : State) (f0 f1 f2 f3 sak : Byte) :
    (s.keepFinal f0 f1 f2 f3 sak).pe.level = s.pe.level := rfl

@[simp] theorem keepFinal_pe_result (s : State) (f0 f1 f2 f3 sak : Byte) :
    (s.keepFinal f0 f1 f2 f3 sak).pe.result = s.pe.result := rfl

@[simp] theorem keepFinal_pe_count (s : State) (f0 f1 f2 f3 sak : Byte) :
    (s.keepFinal f0 f1 f2 f3 sak).pe.count = s.pe.count := rfl

@[simp] theorem keepFinal_pe_busy (s : State) (f0 f1 f2 f3 sak : Byte) :
    (s.keepFinal f0 f1 f2 f3 sak).pe.busy = s.pe.busy := rfl

@[simp] theorem keepFinal_pe_pollBudget (s : State) (f0 f1 f2 f3 sak : Byte) :
    (s.keepFinal f0 f1 f2 f3 sak).pe.pollBudget = s.pe.pollBudget := rfl

@[simp] theorem keepFinal_pe_pollInterval (s : State) (f0 f1 f2 f3 sak : Byte) :
    (s.keepFinal f0 f1 f2 f3 sak).pe.pollInterval = s.pe.pollInterval := rfl

@[simp] theorem keepFinal_pe_elapsed (s : State) (f0 f1 f2 f3 sak : Byte) :
    (s.keepFinal f0 f1 f2 f3 sak).pe.elapsed = s.pe.elapsed := rfl

end Sys2Proof.Laws
end

