-- ==== Sys2Proof/Laws/Ops.lean ====
section
/-! SUPPORT. What the shared operations can do, each said once: the device keeps its form through
every move, and a micro-step touches nothing of PE. `Post` is the one way replies are reasoned
about; callers cite the `_post` lemma of an operation instead of unfolding it. -/

namespace Sys2Proof.Laws

open Sys2Proof.Machine

/-! ### The device -/

theorem shaped_wf (c : Cfg) (d : Device) : (d.shaped c).wf c :=
  ⟨by simp only [Device.shaped, List.length_take]; omega, wf_normalise _⟩

theorem takeStep_wf {c : Cfg} {d : Device} (h : d.wf c) (e : DevStep) : (d.takeStep c e).wf c := by
  cases e with
  | transmit n => exact ⟨by simp only [Device.takeStep, List.length_drop]; have := h.1; omega, h.2⟩
  | receive bs => exact ⟨by simp only [Device.takeStep, List.length_take]; omega, h.2⟩
  | raise bits => exact h
  | showStatus b => exact h
  | showCommand b => exact h
  | showFrame b => exact h
  | showRegister a b => exact ⟨h.1, wf_writeByte a b h.2⟩
  | deviceReset d' => exact shaped_wf c d'

theorem takeSteps_wf {c : Cfg} : ∀ (l : List DevStep) {d : Device}, d.wf c → (d.takeSteps c l).wf c
  | [], _, h => h
  | e :: l, _, h => takeSteps_wf l (takeStep_wf h e)

@[simp] theorem takeSteps_nil (c : Cfg) (d : Device) : d.takeSteps c [] = d := rfl

theorem writeReg_wf {c : Cfg} {d : Device} (m : EnvMove) (a v : Byte) (h : d.wf c) :
    (d.writeReg c m a v).wf c := by
  unfold Device.writeReg
  split
  · exact ⟨Nat.zero_le _, h.2⟩
  repeat' split
  all_goals first
    | exact h
    | exact ⟨(shaped_wf c m.device).1, (shaped_wf c m.device).2⟩
    | exact ⟨h.1, wf_writeByte a v h.2⟩

/-! ### Replies -/

@[simp] theorem bind_ok {α β : Type} (a : α) (s : State) (f : α → State → Reply β) :
    (Reply.ok a s).bind f = f a s := rfl

@[simp] theorem bind_err {α β : Type} (c : Result) (s : State) (f : α → State → Reply β) :
    (Reply.err c s).bind f = .err c s := rfl

@[simp] theorem bind_cut {α β : Type} (s : State) (f : α → State → Reply β) :
    (Reply.cut s).bind f = .cut s := rfl

/-- What holds of a reply: one predicate for each way it can end. -/
def Post {α : Type} (r : Reply α) (P : α → State → Prop) (E : Result → State → Prop)
    (C : State → Prop) : Prop :=
  match r with
  | .ok a t => P a t
  | .err c t => E c t
  | .cut t => C t

theorem Post.mono {α : Type} {r : Reply α} {P P' : α → State → Prop} {E E' : Result → State → Prop}
    {C C' : State → Prop} (h : Post r P E C) (hP : ∀ a t, P a t → P' a t)
    (hE : ∀ c t, E c t → E' c t) (hC : ∀ t, C t → C' t) : Post r P' E' C' := by
  cases r with
  | ok a t => exact hP a t h
  | err c t => exact hE c t h
  | cut t => exact hC t h

theorem Post.bind {α β : Type} {r : Reply α} {f : α → State → Reply β} {P : α → State → Prop}
    {Q : β → State → Prop} {E E' : Result → State → Prop} {C C' : State → Prop}
    (h : Post r P E' C') (hE : ∀ c t, E' c t → E c t) (hC : ∀ t, C' t → C t)
    (hf : ∀ a t, P a t → Post (f a t) Q E C) : Post (r.bind f) Q E C := by
  cases r with
  | ok a t => exact hf a t h
  | err c t => exact hE c t h
  | cut t => exact hC t h

/-! ### What micro-steps keep -/

/-- From `s`, at most `n` transport primitives led to `t`: nothing of PE but ELAPSED changed, nothing
was sent, the traffic grew, the device kept its form. -/
structure Within (n : Nat) (s t : State) : Prop where
  cfg  : t.cfg = s.cfg
  host : t.host = s.host
  sent : t.sent = s.sent
  pe   : t.pe = { s.pe with elapsed := t.pe.elapsed }
  bus  : ∃ l, t.bus = s.bus ++ l ∧ primitives l ≤ n
  dev  : s.dev.wf s.cfg → t.dev.wf s.cfg

/-- RESET struck within `n` primitives of `s`: PE holds its reset values (R220). -/
def CutWithin (n : Nat) (s t : State) : Prop := ∃ u, Within n s u ∧ t = u.resetPe

theorem primitives_append (l k : List BusStep) :
    primitives (l ++ k) = primitives l + primitives k := by
  simp [primitives, List.filter_append]

theorem Within.refl (n : Nat) (s : State) : Within n s s :=
  ⟨rfl, rfl, rfl, rfl, ⟨[], by simp, by simp [primitives]⟩, id⟩

theorem Within.trans {n k : Nat} {s t u : State} (h : Within n s t) (h' : Within k t u) :
    Within (n + k) s u := by
  obtain ⟨l, hl, hn⟩ := h.bus
  obtain ⟨l', hl', hk⟩ := h'.bus
  refine ⟨h'.cfg.trans h.cfg, h'.host.trans h.host, h'.sent.trans h.sent, ?_,
    ⟨l ++ l', by rw [hl', hl, List.append_assoc], by rw [primitives_append]; omega⟩, ?_⟩
  · rw [h'.pe, h.pe]
  · intro hs
    have := h'.dev (by rw [h.cfg]; exact h.dev hs)
    rwa [h.cfg] at this

theorem Within.mono {n k : Nat} {s t : State} (h : Within n s t) (hk : n ≤ k) : Within k s t := by
  obtain ⟨l, hl, hn⟩ := h.bus
  exact ⟨h.cfg, h.host, h.sent, h.pe, ⟨l, hl, by omega⟩, h.dev⟩

theorem CutWithin.mono {n k : Nat} {s t : State} (h : CutWithin n s t) (hk : n ≤ k) :
    CutWithin k s t := by
  obtain ⟨u, hu, rfl⟩ := h
  exact ⟨u, hu.mono hk, rfl⟩

theorem CutWithin.after {n k : Nat} {s t u : State} (h : Within n s t) (h' : CutWithin k t u) :
    CutWithin (n + k) s u := by
  obtain ⟨v, hv, rfl⟩ := h'
  exact ⟨v, h.trans hv, rfl⟩

theorem Within.elapsed {n : Nat} {s t : State} (h : Within n s t) (e : BitVec 17) :
    Within n s { t with pe := { t.pe with elapsed := e } } :=
  ⟨h.cfg, h.host, h.sent, by rw [h.pe], h.bus, h.dev⟩

theorem Within.of_elapsed {n : Nat} {s t : State} {e : BitVec 17}
    (h : Within n { s with pe := { s.pe with elapsed := e } } t) : Within n s t :=
  ⟨h.cfg, h.host, h.sent, by rw [h.pe], h.bus, h.dev⟩

/-! ### Arriving, recording, concluding -/

@[simp] theorem arrive_cfg (op : BusOp) (s : State) : (s.arrive op).cfg = s.cfg := by
  unfold State.arrive; split <;> (try split) <;> rfl

@[simp] theorem arrive_pe (op : BusOp) (s : State) : (s.arrive op).pe = s.pe := by
  unfold State.arrive; split <;> (try split) <;> rfl

@[simp] theorem arrive_host (op : BusOp) (s : State) : (s.arrive op).host = s.host := by
  unfold State.arrive; split <;> (try split) <;> rfl

@[simp] theorem arrive_sent (op : BusOp) (s : State) : (s.arrive op).sent = s.sent := by
  unfold State.arrive; split <;> (try split) <;> rfl

@[simp] theorem arrive_bus (op : BusOp) (s : State) : (s.arrive op).bus = s.bus := by
  unfold State.arrive; split <;> (try split) <;> rfl

@[simp] theorem arrive_settle (op : BusOp) (s : State) : (s.arrive op).settle = s.settle := by
  unfold State.arrive; split <;> (try split) <;> rfl

@[simp] theorem arrive_dev (op : BusOp) (s : State) :
    (s.arrive op).dev = s.dev.takeSteps s.cfg (s.moveFor op).steps := by
  unfold State.arrive; split <;> (try split) <;> rfl

/-- With the window closed the reference device answers as R71 to R73 say. -/
theorem moveFor_reference {s : State} {r : RefDevice} (ha : s.agent = .reference r)
    (hs : s.settle = 0) (op : BusOp) : s.moveFor op = (r.answer s.cfg s.dev op).1 := by
  cases op <;> simp [State.moveFor, State.inWindow, ha, hs]

theorem arrive_reference {s : State} {r : RefDevice} (ha : s.agent = .reference r)
    (hs : s.settle = 0) (op : BusOp) :
    s.arrive op = { s with
      dev := s.dev.takeSteps s.cfg (r.answer s.cfg s.dev op).1.steps
      agent := .reference (r.answer s.cfg s.dev op).2 } := by
  cases op <;> simp [State.arrive, State.moveFor, State.inWindow, ha, hs]

/-- What a micro-step leaves of the state before its record: PE, ports and traffic as they were, the
device of the right form. -/
structure Untouched (s u : State) : Prop where
  cfg  : u.cfg = s.cfg
  host : u.host = s.host
  sent : u.sent = s.sent
  pe   : u.pe = s.pe
  bus  : u.bus = s.bus
  dev  : s.dev.wf s.cfg → u.dev.wf s.cfg

theorem arrive_untouched (op : BusOp) (s : State) : Untouched s (s.arrive op) :=
  ⟨by simp, by simp, by simp, by simp, by simp, fun h => by
    rw [arrive_dev]; exact takeSteps_wf _ h⟩

theorem Untouched.trans {s t u : State} (h : Untouched s t) (h' : Untouched t u) :
    Untouched s u :=
  ⟨h'.cfg.trans h.cfg, h'.host.trans h.host, h'.sent.trans h.sent, h'.pe.trans h.pe,
    h'.bus.trans h.bus, fun hs => by
      have := h'.dev (by rw [h.cfg]; exact h.dev hs)
      rwa [h.cfg] at this⟩

theorem record_within {s u : State} (h : Untouched s u) (m : EnvMove) (op : BusOp)
    (ans : BusAnswer) : Within 1 s (u.record m op ans) :=
  ⟨h.cfg, h.host, h.sent, by rw [record_pe, h.pe], ⟨[⟨op, ans⟩], by rw [record_bus, h.bus], by
      simp only [primitives]; exact List.length_filter_le _ _⟩, fun hs => by
    rw [record_dev, h.cfg]; exact takeSteps_wf _ (h.dev hs)⟩

theorem record_wait_within {s u : State} (h : Untouched s u) (m : EnvMove) (t : Nat)
    (ans : BusAnswer) : Within 0 s (u.record m (.wait t) ans) :=
  ⟨h.cfg, h.host, h.sent, by rw [record_pe, h.pe], ⟨[⟨.wait t, ans⟩], by rw [record_bus, h.bus], by
      simp [primitives]⟩, fun hs => by
    rw [record_dev, h.cfg]; exact takeSteps_wf _ (h.dev hs)⟩

theorem written_untouched (m : EnvMove) (a v : Byte) (s : State) : Untouched s (s.written m a v) := by
  unfold State.written
  split
  · exact ⟨rfl, rfl, rfl, rfl, rfl, fun _ => shaped_wf _ _⟩
  split
  · exact ⟨rfl, rfl, rfl, rfl, rfl, id⟩
  · exact ⟨rfl, rfl, rfl, rfl, rfl, fun h => writeReg_wf m a v h⟩

theorem fifoTaken_untouched (m : EnvMove) (n : Nat) (s : State) :
    Untouched s (s.fifoTaken m n) := by
  unfold State.fifoTaken
  split
  · exact ⟨rfl, rfl, rfl, rfl, rfl, fun _ => shaped_wf _ _⟩
  split
  all_goals
    exact ⟨rfl, rfl, rfl, rfl, rfl, fun h =>
      ⟨by simp only [List.length_drop]; have := h.1; omega, h.2⟩⟩

theorem fifoFilled_untouched (m : EnvMove) (bs : List Byte) (s : State) :
    Untouched s (s.fifoFilled m bs) := by
  unfold State.fifoFilled
  split
  · exact ⟨rfl, rfl, rfl, rfl, rfl, fun _ => shaped_wf _ _⟩
  split
  · exact ⟨rfl, rfl, rfl, rfl, rfl, fun h => ⟨by simp only [List.length_take]; omega, h.2⟩⟩
  split
  · rename_i hroom
    exact ⟨rfl, rfl, rfl, rfl, rfl, fun h => ⟨by
      simp only [List.length_append, List.length_take]; have := h.1; omega, h.2⟩⟩
  · exact ⟨rfl, rfl, rfl, rfl, rfl, fun h => ⟨by simp only [List.length_take]; omega, h.2⟩⟩

/-- The end of a micro-step: what holds of its reply, or RESET struck right after it (R220). -/
theorem conclude_post {α : Type} {n : Nat} {s : State} (m : EnvMove) {r : Reply α}
    {P : α → State → Prop} {E : Result → State → Prop} (h : Post r P E fun _ => False)
    (hs : Within n s r.state) :
    Post (conclude m r) P E (CutWithin n s) := by
  unfold conclude
  split
  · exact ⟨r.state, hs, rfl⟩
  · exact h.mono (fun _ _ h => h) (fun _ _ h => h) (fun _ h => h.elim)

/-! ### The micro-steps -/

/-- `TRead` (R51, R55): a value, or COMM_ERR. -/
theorem tRead_post (a : Byte) (s : State) :
    Post (tRead a s) (fun _ t => Within 1 s t ∧ t.pe = s.pe)
      (fun c t => c = .commErr ∧ Within 1 s t ∧ t.pe = s.pe) (CutWithin 1 s) := by
  have hu := arrive_untouched (.read a) s
  unfold tRead
  dsimp only
  split
  · exact conclude_post _ ⟨rfl, record_within hu _ _ _, by simp⟩ (record_within hu _ _ _)
  · exact conclude_post _ ⟨record_within hu _ _ _, by simp⟩ (record_within hu _ _ _)

/-- `TWrite` (R52, R55): done, or COMM_ERR. -/
theorem tWrite_post (a v : Byte) (s : State) :
    Post (tWrite a v s) (fun _ t => Within 1 s t ∧ t.pe = s.pe)
      (fun c t => c = .commErr ∧ Within 1 s t ∧ t.pe = s.pe) (CutWithin 1 s) := by
  have hu := (arrive_untouched (.write a v) s).trans
    (written_untouched (s.moveFor (.write a v)) a v _)
  unfold tWrite
  dsimp only
  split
  · exact conclude_post _ ⟨rfl, record_within hu _ _ _, by rw [record_pe, hu.pe]⟩
      (record_within hu _ _ _)
  · exact conclude_post _ ⟨record_within hu _ _ _, by rw [record_pe, hu.pe]⟩
      (record_within hu _ _ _)

/-- `TFifoRead` (R53, R55): bytes, or COMM_ERR. -/
theorem tFifoRead_post (n : Nat) (s : State) :
    Post (tFifoRead n s) (fun _ t => Within 1 s t ∧ t.pe = s.pe)
      (fun c t => c = .commErr ∧ Within 1 s t ∧ t.pe = s.pe) (CutWithin 1 s) := by
  have hu := (arrive_untouched (.fifoRead n) s).trans
    (fifoTaken_untouched (s.moveFor (.fifoRead n)) n _)
  unfold tFifoRead
  dsimp only
  split
  · exact conclude_post _ ⟨rfl, record_within hu _ _ _, by rw [record_pe, hu.pe]⟩
      (record_within hu _ _ _)
  · exact conclude_post _ ⟨record_within hu _ _ _, by rw [record_pe, hu.pe]⟩
      (record_within hu _ _ _)

/-- `TFifoWrite` (R54, R55): a count, or COMM_ERR. -/
theorem tFifoWrite_post (bs : List Byte) (s : State) :
    Post (tFifoWrite bs s) (fun _ t => Within 1 s t ∧ t.pe = s.pe)
      (fun c t => c = .commErr ∧ Within 1 s t ∧ t.pe = s.pe) (CutWithin 1 s) := by
  have hu := (arrive_untouched (.fifoWrite bs) s).trans
    (fifoFilled_untouched (s.moveFor (.fifoWrite bs)) bs _)
  unfold tFifoWrite
  dsimp only
  split
  · exact conclude_post _ ⟨rfl, record_within hu _ _ _, by rw [record_pe, hu.pe]⟩
      (record_within hu _ _ _)
  · exact conclude_post _ ⟨record_within hu _ _ _, by rw [record_pe, hu.pe]⟩
      (record_within hu _ _ _)

/-- `Wait` (R63): it cannot fail. -/
theorem waitTicks_post (n : Nat) (s : State) :
    Post (waitTicks n s) (fun _ t => Within 0 s t ∧ t.pe = s.pe) (fun _ _ => False)
      (CutWithin 0 s) := by
  have hu := arrive_untouched (.wait n) s
  have hv : Untouched s { s.arrive (.wait n) with settle := (s.arrive (.wait n)).settle - n } :=
    ⟨hu.cfg, hu.host, hu.sent, hu.pe, hu.bus, hu.dev⟩
  unfold waitTicks
  dsimp only
  exact conclude_post _ ⟨record_wait_within hv _ _ _, by simp⟩ (record_wait_within hv _ _ _)

end Sys2Proof.Laws
end

