-- ==== Sys2Proof/Laws/Engine.lean ====
section
/-! SUPPORT. What PE's procedures can do, each said once: their codes, their counts, how many
primitives they issue (spec 42_command_engine.md R131), and that they touch nothing of PE but
ELAPSED. -/

namespace Sys2Proof.Laws

open Sys2Proof.Machine

/-- The codes POLL can end with (R124). -/
def PollCode (c : Result) : Prop :=
  c = .commErr ∨ c = .protoCollision ∨ c = .protoCrc ∨ c = .timeout

/-- The codes XCHG can end with (R128). -/
def XchgCode (c : Result) : Prop := PollCode c ∨ c = .protoShort

/-- `fifoLength` (R100): a count of at most FIFO_CAP, or COMM_ERR; PE is untouched. -/
theorem fifoLength_post (s : State) :
    Post (fifoLength s) (fun k t => k ≤ s.cfg.fifoCap ∧ Within 1 s t ∧ t.pe = s.pe)
      (fun c t => c = .commErr ∧ Within 1 s t ∧ t.pe = s.pe) (CutWithin 1 s) :=
  (tRead_post _ s).bind (fun _ _ h => h) (fun _ h => h) fun a t h =>
    ⟨by rw [h.1.cfg]; exact Nat.min_le_right _ _, h⟩

/-- `readFIFO` (R102, R103): at most `maxLen` bytes, or COMM_ERR; PE is untouched. -/
theorem readFifo_post (maxLen : Nat) (s : State) :
    Post (readFifo maxLen s) (fun d t => d.length ≤ maxLen ∧ Within 2 s t ∧ t.pe = s.pe)
      (fun c t => c = .commErr ∧ Within 2 s t ∧ t.pe = s.pe) (CutWithin 2 s) := by
  refine (fifoLength_post s).bind (fun _ _ h => ⟨h.1, h.2.1.mono (by omega), h.2.2⟩)
    (fun _ h => h.mono (by omega)) fun occ t h => ?_
  dsimp only
  split
  · exact ⟨by simp, h.2.1.mono (by omega), h.2.2⟩
  · refine (tFifoRead_post _ t).bind
      (fun _ _ h' => ⟨h'.1, h.2.1.trans h'.2.1, h'.2.2.trans h.2.2⟩)
      (fun _ h' => CutWithin.after h.2.1 h') fun d u h' => ?_
    exact ⟨by simp only [List.length_take]; omega, h.2.1.trans h'.1, h'.2.trans h.2.2⟩

/-- `writeFIFO` (R105): a count of at most the length and FIFO_CAP, or COMM_ERR; PE is untouched. -/
theorem writeFifo_post (data : List Byte) (s : State) :
    Post (writeFifo data s)
      (fun k t => (k ≤ data.length ∧ k ≤ s.cfg.fifoCap) ∧ Within 2 s t ∧ t.pe = s.pe)
      (fun c t => c = .commErr ∧ Within 2 s t ∧ t.pe = s.pe) (CutWithin 2 s) := by
  refine (fifoLength_post s).bind (fun _ _ h => ⟨h.1, h.2.1.mono (by omega), h.2.2⟩)
    (fun _ h => h.mono (by omega)) fun occ t h => ?_
  dsimp only
  split
  · exact ⟨⟨by omega, by omega⟩, h.2.1.mono (by omega), h.2.2⟩
  · refine (tFifoWrite_post _ t).bind
      (fun _ _ h' => ⟨h'.1, h.2.1.trans h'.2.1, h'.2.2.trans h.2.2⟩)
      (fun _ h' => CutWithin.after h.2.1 h') fun k u h' => ?_
    have hc := h.2.1.cfg
    exact ⟨⟨by omega, by rw [hc]; omega⟩, h.2.1.trans h'.1, h'.2.trans h.2.2⟩

/-- `clearFIFO` (R107): done, or COMM_ERR; PE is untouched. -/
theorem clearFifo_post (s : State) :
    Post (clearFifo s) (fun _ t => Within 1 s t ∧ t.pe = s.pe)
      (fun c t => c = .commErr ∧ Within 1 s t ∧ t.pe = s.pe) (CutWithin 1 s) := tWrite_post _ _ s

/-- `writeCommand` (R120): a count of at most the parameters, or COMM_ERR; PE is untouched. -/
theorem writeCommand_post (icop : Byte) (params : List Byte) (s : State) :
    Post (writeCommand icop params s)
      (fun k t => (k ≤ params.length ∧ k ≤ s.cfg.fifoCap) ∧ Within 3 s t ∧ t.pe = s.pe)
      (fun c t => c = .commErr ∧ Within 3 s t ∧ t.pe = s.pe) (CutWithin 3 s) := by
  refine (tWrite_post _ _ s).bind (fun _ _ h => ⟨h.1, h.2.1.mono (by omega), h.2.2⟩)
    (fun _ h => h.mono (by omega)) fun _ t h => ?_
  split
  · exact ⟨⟨Nat.zero_le _, Nat.zero_le _⟩, h.1.mono (by omega), h.2⟩
  · refine (writeFifo_post _ t).mono
      (fun k u h' => ⟨⟨h'.1.1, by rw [← h.1.cfg]; exact h'.1.2⟩, ?_, h'.2.2.trans h.2⟩)
      (fun c u h' => ⟨h'.1, ?_, h'.2.2.trans h.2⟩) (fun u h' => ?_)
    · exact (h.1.trans h'.2.1).mono (by omega)
    · exact (h.1.trans h'.2.1).mono (by omega)
    · exact (CutWithin.after h.1 h').mono (by omega)

theorem irqVerdict_code {c : Cfg} {v : Byte} {r : Result} (h : irqVerdict c v = some r) :
    r = .ok ∨ PollCode r := by
  unfold irqVerdict at h
  unfold PollCode
  split at h
  · simp_all
  split at h
  · simp_all
  split at h <;> simp_all

theorem pollLoop_post (b i : Half) : ∀ (fuel : Nat) (s : State),
    Post (pollLoop b i fuel s) (fun _ t => Within fuel s t)
      (fun c t => PollCode c ∧ Within fuel s t) (CutWithin fuel s)
  | 0, s => ⟨.inr (.inr (.inr rfl)), .refl _ _⟩
  | fuel + 1, s => by
    refine (tRead_post _ s).bind (fun _ _ h => ⟨.inl h.1, h.2.1.mono (by omega)⟩)
      (fun _ h => h.mono (by omega)) fun v t h => ?_
    dsimp only
    split
    · exact h.1.mono (by omega)
    · rename_i c hc hv
      exact ⟨(irqVerdict_code hv).resolve_left (by simpa using hc), h.1.mono (by omega)⟩
    · split
      · exact ⟨.inr (.inr (.inr rfl)), h.1.mono (by omega)⟩
      · refine (waitTicks_post _ t).bind (fun _ _ h' => h'.elim)
          (fun _ h' => (CutWithin.after h.1 h').mono (by omega)) fun _ u h' => ?_
        have hsu : Within 1 s u := (h.1.trans h'.1).mono (by omega)
        have hloop := pollLoop_post b i fuel
          { u with pe := { u.pe with elapsed := u.pe.elapsed + i.setWidth 17 } }
        have hgo := hsu.elapsed (u.pe.elapsed + i.setWidth 17)
        exact hloop.mono (fun _ v hv => (hgo.trans hv).mono (by omega))
          (fun _ v hv => ⟨hv.1, (hgo.trans hv.2).mono (by omega)⟩)
          (fun v hv => (CutWithin.after hgo hv).mono (by omega))

/-- POLL (R124, R127): at most N reads, one of its codes, only ELAPSED of PE changes. -/
theorem poll_post (s : State) :
    Post (poll s) (fun _ t => Within (pollReads s.pe.pollBudget s.pe.pollInterval) s t)
      (fun c t => PollCode c ∧ Within (pollReads s.pe.pollBudget s.pe.pollInterval) s t)
      (CutWithin (pollReads s.pe.pollBudget s.pe.pollInterval) s) :=
  (pollLoop_post _ _ _ _).mono (fun _ _ h => h.of_elapsed) (fun _ _ h => ⟨h.1, h.2.of_elapsed⟩)
    (fun _ h => by
      obtain ⟨u, hu, rfl⟩ := h
      exact ⟨u, hu.of_elapsed, rfl⟩)

/-- The most primitives one exchange issues, `8 + N` (R128, R131). -/
def exchangeBound (p : Regs) : Nat := 8 + pollReads p.pollBudget p.pollInterval

/-- XCHG (R128, R131): at most `need` bytes, at most `8 + N` primitives, one of its codes, only
ELAPSED of PE changes. -/
theorem xchg_post (fc icop : Byte) (params : List Byte) (need : Nat) (s : State) :
    Post (xchg fc icop params need s)
      (fun d t => d.length ≤ need ∧ Within (exchangeBound s.pe) s t)
      (fun c t => XchgCode c ∧ Within (exchangeBound s.pe) s t)
      (CutWithin (exchangeBound s.pe) s) := by
  have hcomm : ∀ c : Result, c = .commErr → XchgCode c := fun c h => .inl (.inl h)
  unfold exchangeBound
  refine (clearFifo_post s).bind (fun c _ h => ⟨hcomm c h.1, h.2.1.mono (by omega)⟩)
    (fun _ h => h.mono (by omega)) fun _ s1 h1 => ?_
  refine (tWrite_post _ _ s1).bind
    (fun c _ h => ⟨hcomm c h.1, (h1.1.trans h.2.1).mono (by omega)⟩)
    (fun _ h => (CutWithin.after h1.1 h).mono (by omega)) fun _ s2 h2 => ?_
  have w2 := h1.1.trans h2.1
  refine (tWrite_post _ _ s2).bind
    (fun c _ h => ⟨hcomm c h.1, (w2.trans h.2.1).mono (by omega)⟩)
    (fun _ h => (CutWithin.after w2 h).mono (by omega)) fun _ s3 h3 => ?_
  have w3 := w2.trans h3.1
  refine (writeCommand_post icop params s3).bind
    (fun c _ h => ⟨hcomm c h.1, (w3.trans h.2.1).mono (by omega)⟩)
    (fun _ h => (CutWithin.after w3 h).mono (by omega)) fun k s4 h4 => ?_
  have w4 := w3.trans h4.2.1
  have hpe : s4.pe = s.pe := h4.2.2.trans (h3.2.trans (h2.2.trans h1.2))
  split
  · exact ⟨.inr rfl, w4.mono (by omega)⟩
  · have hp := poll_post s4
    rw [hpe] at hp
    refine hp.bind (fun c _ h => ⟨.inl h.1, (w4.trans h.2).mono (by omega)⟩)
      (fun _ h => (CutWithin.after w4 h).mono (by omega)) fun _ s5 h5 => ?_
    have w5 := w4.trans h5
    exact (readFifo_post need s5).mono (fun _ _ h => ⟨h.1, (w5.trans h.2.1).mono (by omega)⟩)
      (fun c _ h => ⟨hcomm c h.1, (w5.trans h.2.1).mono (by omega)⟩)
      (fun _ h => (CutWithin.after w5 h).mono (by omega))

end Sys2Proof.Laws
end

