-- ==== Sys2Proof/Laws/Client.lean ====
section
/-! SUPPORT. What the procedures of the client extension can do, each said once (spec
45_client_extension.md R170 to R179): their codes, and that they touch nothing of PE but ELAPSED. -/

namespace Sys2Proof.Laws

open Sys2Proof.Machine

/-- From `s`, some number of transport primitives led to `t`. -/
def Reached (s t : State) : Prop := ∃ n, Within n s t

theorem Within.reached {n : Nat} {s t : State} (h : Within n s t) : Reached s t := ⟨n, h⟩

theorem Reached.refl (s : State) : Reached s s := ⟨0, .refl 0 s⟩

theorem Reached.trans {s t u : State} : Reached s t → Reached t u → Reached s u
  | ⟨_, h⟩, ⟨_, h'⟩ => ⟨_, h.trans h'⟩

/-- RESET struck somewhere after `s`. -/
def CutReached (s t : State) : Prop := ∃ u, Reached s u ∧ t = u.resetPe

theorem CutWithin.reached {n : Nat} {s t : State} : CutWithin n s t → CutReached s t
  | ⟨u, hu, h⟩ => ⟨u, hu.reached, h⟩

theorem CutReached.after {s t u : State} (h : Reached s t) : CutReached t u → CutReached s u
  | ⟨v, hv, h'⟩ => ⟨v, h.trans hv, h'⟩

/-- Going on from a state that was reached. -/
theorem Post.reached {α : Type} {r : Reply α} {s t : State} {Q : α → Prop} {E : Result → Prop}
    (hst : Reached s t)
    (h : Post r (fun a u => Q a ∧ Reached t u) (fun c u => E c ∧ Reached t u) (CutReached t)) :
    Post r (fun a u => Q a ∧ Reached s u) (fun c u => E c ∧ Reached s u) (CutReached s) :=
  h.mono (fun _ _ h => ⟨h.1, hst.trans h.2⟩) (fun _ _ h => ⟨h.1, hst.trans h.2⟩)
    (fun _ h => h.after hst)

/-- The calls of a client operation (R179): a code of POLL or PROTO_SHORT ends them. -/
theorem runClient_post (operands : List Byte) : ∀ (plan : List ClientStep) (acc : List Byte)
    (s : State),
    Post (runClient operands plan acc s) (fun _ t => True ∧ Reached s t)
      (fun c t => XchgCode c ∧ Reached s t) (CutReached s)
  | [], _, s => ⟨trivial, .refl s⟩
  | .clear :: more, acc, s =>
    (clearFifo_post s).bind (fun c _ h => ⟨.inl (.inl h.1), h.2.1.reached⟩) (fun _ h => h.reached)
      fun _ _ h => (runClient_post operands more acc _).reached h.1.reached
  | .command icop params :: more, acc, s =>
    (writeCommand_post _ _ s).bind (fun c _ h => ⟨.inl (.inl h.1), h.2.1.reached⟩)
      (fun _ h => h.reached) fun k t h => by
        split
        · exact ⟨.inr rfl, h.2.1.reached⟩
        · exact (runClient_post operands more acc _).reached h.2.1.reached
  | .poll :: more, acc, s =>
    (poll_post s).bind (fun c _ h => ⟨.inl h.1, h.2.reached⟩) (fun _ h => h.reached)
      fun _ _ h => (runClient_post operands more acc _).reached h.reached
  | .drain n :: more, acc, s =>
    (readFifo_post n s).bind (fun c _ h => ⟨.inl (.inl h.1), h.2.1.reached⟩) (fun _ h => h.reached)
      fun d _ h => (runClient_post operands more (acc ++ d) _).reached h.2.1.reached
  | .fill params :: more, acc, s =>
    (writeFifo_post _ s).bind (fun c _ h => ⟨.inl (.inl h.1), h.2.1.reached⟩) (fun _ h => h.reached)
      fun k t h => by
        split
        · exact ⟨.inr rfl, h.2.1.reached⟩
        · exact (runClient_post operands more acc _).reached h.2.1.reached
  | .readReg a :: more, acc, s =>
    (tRead_post a s).bind (fun c _ h => ⟨.inl (.inl h.1), h.2.1.reached⟩) (fun _ h => h.reached)
      fun b _ h => (runClient_post operands more (acc ++ [b]) _).reached h.1.reached
  | .writeReg a v :: more, acc, s =>
    (tWrite_post a v s).bind (fun c _ h => ⟨.inl (.inl h.1), h.2.1.reached⟩) (fun _ h => h.reached)
      fun _ _ h => (runClient_post operands more acc _).reached h.1.reached

/-- The writes of a profile (R171): done, or COMM_ERR. -/
theorem writePairs_post : ∀ (pairs : List ProfilePair) (s : State),
    Post (writePairs pairs s) (fun _ t => True ∧ Reached s t)
      (fun c t => c = .commErr ∧ Reached s t) (CutReached s)
  | [], s => ⟨trivial, .refl s⟩
  | p :: more, s =>
    (tWrite_post p.addr p.value s).bind (fun _ _ h => ⟨h.1, h.2.1.reached⟩) (fun _ h => h.reached)
      fun _ _ h => (writePairs_post more _).reached h.1.reached

/-- The readback of a profile (R171): done, or COMM_ERR. -/
theorem checkPairs_post : ∀ (pairs : List ProfilePair) (s : State),
    Post (checkPairs pairs s) (fun _ t => True ∧ Reached s t)
      (fun c t => c = .commErr ∧ Reached s t) (CutReached s)
  | [], s => ⟨trivial, .refl s⟩
  | p :: more, s => by
    unfold checkPairs
    split
    · exact checkPairs_post more s
    · refine (tRead_post p.addr s).bind (fun _ _ h => ⟨h.1, h.2.1.reached⟩)
        (fun _ h => h.reached) fun v t h => ?_
      split
      · exact (checkPairs_post more t).reached h.1.reached
      · exact ⟨rfl, h.1.reached⟩

/-- A free COUNT (R84): PE and the device are untouched. -/
theorem freeCount_post (c : Result) (s : State) :
    Post (freeCount c s) (fun r t => (r.code = c ∧ r.data = []) ∧ Reached s t)
      (fun _ t => False ∧ Reached s t) (CutReached s) :=
  ⟨⟨rfl, rfl⟩, 0, rfl, rfl, rfl, rfl, ⟨[], by simp, by simp [primitives]⟩, id⟩

@[simp] theorem keyLost_cfg (s : State) : s.keyLost.cfg = s.cfg := rfl
@[simp] theorem keyLost_pe (s : State) : s.keyLost.pe = s.pe := rfl
@[simp] theorem keyLost_settle (s : State) : s.keyLost.settle = s.settle := rfl
@[simp] theorem keyLost_agent (s : State) : s.keyLost.agent = s.agent := rfl
@[simp] theorem keyLost_host (s : State) : s.keyLost.host = s.host := rfl
@[simp] theorem keyLost_sent (s : State) : s.keyLost.sent = s.sent := rfl
@[simp] theorem keyLost_bus (s : State) : s.keyLost.bus = s.bus := rfl
@[simp] theorem keyLost_drawn (s : State) : s.keyLost.drawn = s.drawn + 1 := rfl
@[simp] theorem keyLost_dev (s : State) :
    s.keyLost.dev = { s.dev with key := Config.keyAfterFailure s.drawn } := rfl

/-- A write of the key slot touches nothing of PE. -/
theorem key_reached (k : Option (List Byte)) (n : Nat) (s : State) :
    Reached s { s with dev := { s.dev with key := k }, drawn := n } :=
  ⟨0, rfl, rfl, rfl, rfl, ⟨[], by simp, by simp [primitives]⟩, id⟩

/-- LOADKEY's end (R173): OK without data, or COMM_ERR, whatever code ended the calls. -/
theorem loadKeyEnd_post (held : Bool) (key : List Byte) {r : Reply (List Byte)} {s : State} {E : Result → Prop}
    (h : Post r (fun _ t => True ∧ Reached s t) (fun c t => E c ∧ Reached s t) (CutReached s)) :
    Post (loadKeyEnd held key r) (fun x t => (x.code = .ok ∧ x.data = []) ∧ Reached s t)
      (fun c t => c = .commErr ∧ Reached s t) (CutReached s) := by
  have free {t : State} (h : Reached s t) :
      Post (freeCount .ok t) (fun x t => (x.code = .ok ∧ x.data = []) ∧ Reached s t)
        (fun c t => c = .commErr ∧ Reached s t) (CutReached s) :=
    ((freeCount_post .ok t).reached h).mono (fun _ _ h => h) (fun _ _ h => h.1.elim) fun _ h => h
  cases r with
  | ok a t =>
    cases held
    · exact free (h.2.trans (key_reached _ _ t))
    · exact free (h.2.trans (key_reached _ t.drawn t))
  | err c t =>
    have hk : Reached s t.keyLost := h.2.trans (key_reached _ _ t)
    by_cases hc : c = .commErr
    · simpa only [loadKeyEnd, hc, if_true] using ⟨rfl, hk⟩
    · simpa only [loadKeyEnd, hc, if_false] using free hk
  | cut t =>
    obtain ⟨u, hu, rfl⟩ := h
    exact ⟨u.keyLost, hu.trans (key_reached _ _ u), rfl⟩

/-- AUTH's end (R174): OK or AUTH_REJECTED without data, or COMM_ERR or TIMEOUT. -/
theorem authEnd_post {r : Reply Response} {s : State} {E : Result → Prop}
    (h : Post r (fun x t => ((x.code = .ok ∨ x.code = .authRejected) ∧ x.data = []) ∧ Reached s t)
      (fun c t => E c ∧ Reached s t) (CutReached s)) :
    Post (authEnd r)
      (fun x t => ((x.code = .ok ∨ x.code = .authRejected) ∧ x.data = []) ∧ Reached s t)
      (fun c t => (c = .commErr ∨ c = .timeout) ∧ Reached s t) (CutReached s) := by
  cases r with
  | ok _ _ => exact h
  | cut _ => exact h
  | err c t =>
    by_cases hc : authCode t.cfg c = .authRejected
    · simp only [authEnd, hc, if_true]
      exact ((freeCount_post .authRejected t).reached h.2).mono
        (fun _ _ h => ⟨⟨.inr h.1.1, h.1.2⟩, h.2⟩) (fun _ _ h => h.1.elim) fun _ h => h
    · simp only [authEnd, hc, if_false]
      refine ⟨?_, h.2⟩
      unfold authCode at hc ⊢
      split <;> simp_all

/-- A client read (R175, R177): exactly `need` bytes, or a code. -/
theorem clientRead_post (icop : Byte) (params : List Byte) (need : Nat) (s : State) :
    Post (clientRead icop params need s)
      (fun r t => (r = dataResponse r.data ∧ r.data.length = need) ∧ Reached s t)
      (fun c t => XchgCode c ∧ Reached s t) (CutReached s) := by
  refine (xchg_post _ _ _ _ s).bind (fun c _ h => ⟨h.1, h.2.reached⟩) (fun _ h => h.reached)
    fun d t h => ?_
  split
  · exact ⟨.inr rfl, h.2.reached⟩
  · exact ⟨⟨rfl, by have := h.1; simp only [dataResponse]; omega⟩, h.2.reached⟩

/-- A client write (R176, R178): `writtenLen` is `n`, or a code. -/
theorem clientWrite_post (operands : List Byte) (plan : List ClientStep) (ack : Option (List Byte))
    (n : Nat) (s : State) :
    Post (clientWrite operands plan ack n s) (fun r t => r = countResponse n ∧ Reached s t)
      (fun c t => XchgCode c ∧ Reached s t) (CutReached s) := by
  refine (runClient_post operands plan [] s).bind (fun c _ h => h) (fun _ h => h)
    fun a t h => ?_
  split
  · exact ⟨rfl, h.2⟩
  · split
    · exact ⟨rfl, h.2⟩
    · exact ⟨.inr rfl, h.2⟩

end Sys2Proof.Laws
end

