-- ==== Sys2Proof/Laws/Config.lean ====
section
/-! SUPPORT. What a legal configuration gives (spec 00_scope.md R7), and how the registers PE uses
read and take writes under it (20_memory.md R56 to R59). -/

namespace Sys2Proof.Laws

open Sys2Proof.Machine

/-- The constraints of R7, one field each. -/
structure Legal (c : Cfg) : Prop where
  capPos   : 1 ≤ c.fifoCap
  capMax   : c.fifoCap ≤ 255
  regs     : [c.regCommand, c.regFifoControl, c.regFifoLength, c.regIrq, c.regStatus,
               c.regFrameCfg].Nodup
  done     : c.mDone ≠ 0
  coll     : c.mErrColl ≠ 0
  crc      : c.mErrCrc ≠ 0
  doneColl : c.mDone &&& c.mErrColl = 0
  doneCrc  : c.mDone &&& c.mErrCrc = 0
  collCrc  : c.mErrColl &&& c.mErrCrc = 0
  picc     : c.piccReqa ≠ c.piccWupa
  sel      : [c.selCl1, c.selCl2, c.selCl3].Nodup
  ct       : c.ct = 0x88
  cascade  : c.mSakCascade ≠ 0
  interval : 1 ≤ c.intervalDefault.toNat

theorem Legal.of {c : Cfg} (h : c.legal = true) : Legal c := by
  simp only [Cfg.legal, Bool.and_eq_true, decide_eq_true_eq] at h
  obtain ⟨⟨⟨⟨⟨⟨⟨⟨⟨⟨⟨⟨⟨⟨⟨h1, h2⟩, h3⟩, h4⟩, h5⟩, h6⟩, h7⟩, h8⟩, h9⟩, h10⟩, _⟩, _⟩, h13⟩, h14⟩,
    h15⟩, h16⟩ := h
  exact ⟨h1, h2, h3, h4, h5, h6, h7, h8, h9, h10, h13, h14, h15, h16⟩

/-- The six addresses PE uses are pairwise distinct (R7), each pair as a fact. -/
theorem Legal.distinct {c : Cfg} (h : Legal c) :
    (c.regCommand ≠ c.regFifoControl ∧ c.regCommand ≠ c.regFifoLength ∧ c.regCommand ≠ c.regIrq ∧
      c.regCommand ≠ c.regStatus ∧ c.regCommand ≠ c.regFrameCfg) ∧
    (c.regFifoControl ≠ c.regFifoLength ∧ c.regFifoControl ≠ c.regIrq ∧
      c.regFifoControl ≠ c.regStatus ∧ c.regFifoControl ≠ c.regFrameCfg) ∧
    (c.regFifoLength ≠ c.regIrq ∧ c.regFifoLength ≠ c.regStatus ∧
      c.regFifoLength ≠ c.regFrameCfg) ∧
    (c.regIrq ≠ c.regStatus ∧ c.regIrq ≠ c.regFrameCfg) ∧ c.regStatus ≠ c.regFrameCfg := by
  have h := h.regs
  simp only [List.nodup_cons, List.mem_cons, List.not_mem_nil, or_false, not_or] at h
  tauto

/-- R56: the length register reads as the occupancy. -/
theorem readReg_length (c : Cfg) (d : Device) :
    d.readReg c c.regFifoLength = BitVec.ofNat 8 (min d.fifo.length 255) := by
  simp [Device.readReg]

theorem toNat_length (n : Nat) : (BitVec.ofNat 8 (min n 255)).toNat = min n 255 := by
  simp only [BitVec.toNat_ofNat]
  omega

/-- R42: REG_IRQ reads as DEV.IRQ. -/
theorem readReg_irq {c : Cfg} (h : Legal c) (d : Device) : d.readReg c c.regIrq = d.irq := by
  have := h.distinct
  simp [Device.readReg, Ne.symm this.2.2.1.1]

/-- R43: REG_STATUS reads as DEV.STATUS. -/
theorem readReg_status {c : Cfg} (h : Legal c) (d : Device) :
    d.readReg c c.regStatus = d.status := by
  have := h.distinct
  simp [Device.readReg, Ne.symm this.2.2.1.2.1, Ne.symm this.2.2.2.1.1]

/-- R57: the flush empties the FIFO and changes nothing else. -/
theorem writeReg_flush (c : Cfg) (m : EnvMove) (d : Device) :
    d.writeReg c m c.regFifoControl c.vFifoFlush = { d with fifo := [] } := by
  simp [Device.writeReg]

/-- R59: the IRQ clear. -/
theorem writeReg_irqClear {c : Cfg} (h : Legal c) (m : EnvMove) (d : Device) :
    d.writeReg c m c.regIrq c.vIrqClear = { d with irq := 0 } := by
  have := h.distinct
  simp [Device.writeReg, Ne.symm this.2.1.2.1]

/-- R58: the opcode register, any opcode but the reset command. -/
theorem writeReg_command {c : Cfg} (h : Legal c) (m : EnvMove) (d : Device) {v : Byte}
    (hv : v ≠ c.icCmdSoftReset) : d.writeReg c m c.regCommand v = { d with cmd := v } := by
  have := h.distinct
  simp [Device.writeReg, this.1.1, this.1.2.2.1, hv]

/-- R59: the frame configuration. -/
theorem writeReg_frame {c : Cfg} (h : Legal c) (m : EnvMove) (d : Device) (v : Byte) :
    d.writeReg c m c.regFrameCfg v = { d with frame := v } := by
  have := h.distinct
  simp [Device.writeReg, Ne.symm this.2.1.2.2.2, Ne.symm this.2.2.2.1.2,
    Ne.symm this.1.2.2.2.2]

end Sys2Proof.Laws
end

