-- ==== Sys2Proof/Laws/PerInstr.lean ====
section
/-! SUPPORT. Per-instruction laws. `EncodedLength`: the host word of a well-formed operation has the
length its own first bytes require (spec 30_encoding.md R81, R86). -/

namespace Sys2Proof.Laws

/-- The host word of a well-formed operation has the length R86 requires of it. -/
def EncodedLength.Statement (i : Instr) : Prop :=
  i.wellFormed = true → wordLength (encode i) = some (encode i).length

theorem EncodedLength.wrcmd (icop : Byte) (params : List Byte) :
    EncodedLength.Statement (.wrcmd icop params) := fun h => by
  have h : params.length < 256 := Nat.lt_succ_of_le (by simpa [Instr.wellFormed] using h)
  simp [wordLength, encode, Instr.opcode, Instr.operands, Nat.mod_eq_of_lt h]
  omega

theorem EncodedLength.fifolen : EncodedLength.Statement .fifolen := fun _ => by decide

theorem EncodedLength.fiford (maxLen : Byte) : EncodedLength.Statement (.fiford maxLen) :=
  fun _ => rfl

theorem EncodedLength.fifowr (data : List Byte) : EncodedLength.Statement (.fifowr data) :=
  fun h => by
  have h : data.length < 256 := Nat.lt_succ_of_le (by simpa [Instr.wellFormed] using h)
  simp [wordLength, encode, Instr.opcode, Instr.operands, Nat.mod_eq_of_lt h]
  omega

theorem EncodedLength.fifoclr : EncodedLength.Statement .fifoclr := fun _ => by decide

theorem EncodedLength.getstat : EncodedLength.Statement .getstat := fun _ => by decide

theorem EncodedLength.sreset : EncodedLength.Statement .sreset := fun _ => by decide

theorem EncodedLength.reqa : EncodedLength.Statement .reqa := fun _ => by decide

theorem EncodedLength.wupa : EncodedLength.Statement .wupa := fun _ => by decide

theorem EncodedLength.select : EncodedLength.Statement .select := fun _ => by decide

theorem EncodedLength.rdctl (idx : Byte) : EncodedLength.Statement (.rdctl idx) := fun _ => rfl

theorem EncodedLength.wrctl (idx : Byte) (value : Half) :
    EncodedLength.Statement (.wrctl idx value) := fun _ => rfl

theorem EncodedLength.configure (profile : Byte) : EncodedLength.Statement (.configure profile) :=
  fun _ => rfl

theorem EncodedLength.loadkey (key : List Byte) : EncodedLength.Statement (.loadkey key) :=
  fun h => by
  have h : key.length = 6 := by simpa [Instr.wellFormed] using h
  simp [wordLength, encode, Instr.opcode, Instr.operands, h]

theorem EncodedLength.auth (keyType blockNum : Byte) (uid : List Byte) :
    EncodedLength.Statement (.auth keyType blockNum uid) := fun h => by
  have h : uid.length < 256 := Nat.lt_succ_of_le (by simpa [Instr.wellFormed] using h)
  simp [wordLength, encode, Instr.opcode, Instr.operands, Nat.mod_eq_of_lt h]
  omega

theorem EncodedLength.rdblk (blockNum : Byte) : EncodedLength.Statement (.rdblk blockNum) :=
  fun _ => rfl

theorem EncodedLength.wrblk (blockNum : Byte) (data : List Byte) :
    EncodedLength.Statement (.wrblk blockNum data) := fun h => by
  have h : data.length = 16 := by simpa [Instr.wellFormed] using h
  simp [wordLength, encode, Instr.opcode, Instr.operands, h]

theorem EncodedLength.rdpage (page : Half) : EncodedLength.Statement (.rdpage page) := fun _ => rfl

theorem EncodedLength.wrpage (page : Half) (data : List Byte) :
    EncodedLength.Statement (.wrpage page data) := fun h => by
  have h : data.length = 4 := by simpa [Instr.wellFormed] using h
  simp [wordLength, encode, Instr.opcode, Instr.operands, h]

end Sys2Proof.Laws
end

