-- ==== Sys2Proof/Laws/Quiet.lean ====
section
/-! SUPPORT. The micro-steps and procedures run out in an environment that lets every primitive
through: each `_quiet` lemma gives the whole reply. -/

namespace Sys2Proof.Laws

open Sys2Proof.Machine

/-- The next listed moves, and the state once the first of them is used up. -/
theorem moveFor_listed {s : State} {m : EnvMove} {ms : List EnvMove} (h : s.agent = .any (m :: ms))
    (op : BusOp) : s.moveFor op = m := by simp [State.moveFor, h]

theorem arrive_listed {s : State} {m : EnvMove} {ms : List EnvMove} (h : s.agent = .any (m :: ms))
    (op : BusOp) :
    s.arrive op = { s with dev := s.dev.takeSteps s.cfg m.steps, agent := .any ms } := by
  simp [State.arrive, State.moveFor, h]

/-- The state after a micro-step the environment let through, with the effect `f` on the device. -/
def passed (s : State) (ms : List EnvMove) (op : BusOp) (ans : BusAnswer) (d : Device) :
    State :=
  { s with dev := d, agent := .any ms, bus := s.bus ++ [{ op := op, answer := ans }] }

@[simp] theorem quiet_steps : EnvMove.quiet.steps = [] := rfl
@[simp] theorem quiet_fails : EnvMove.quiet.fails = false := rfl
@[simp] theorem quiet_moved : EnvMove.quiet.moved = none := rfl
@[simp] theorem quiet_value : EnvMove.quiet.value = none := rfl
@[simp] theorem quiet_react : EnvMove.quiet.react = [] := rfl
@[simp] theorem quiet_reset : EnvMove.quiet.reset = false := rfl

/-- A read the device answers after its own `steps`. -/
theorem tRead_listed {s : State} {m : EnvMove} {ms : List EnvMove}
    (ha : s.agent = .any (m :: ms)) (a : Byte)
    (hm : m.fails = false ∧ m.value = none ∧ m.react = [] ∧ m.reset = false) :
    tRead a s = .ok ((s.dev.takeSteps s.cfg m.steps).readReg s.cfg a)
      (passed s ms (.read a)
        (.value ((s.dev.takeSteps s.cfg m.steps).readReg s.cfg a))
        (s.dev.takeSteps s.cfg m.steps)) := by
  obtain ⟨h1, h2, h3, h4⟩ := hm
  simp [tRead, moveFor_listed ha, arrive_listed ha, conclude, State.readValue, State.record,
    passed, h1, h2, h3, h4]

theorem tRead_quiet {s : State} {ms : List EnvMove} (ha : s.agent = .any (EnvMove.quiet :: ms))
    (a : Byte) :
    tRead a s = .ok (s.dev.readReg s.cfg a)
      (passed s ms (.read a) (.value (s.dev.readReg s.cfg a)) s.dev) := by
  simpa using tRead_listed ha a ⟨rfl, rfl, rfl, rfl⟩

/-- A write to any register but the reset command. -/
theorem tWrite_quiet {s : State} {ms : List EnvMove} (ha : s.agent = .any (EnvMove.quiet :: ms))
    (hs : s.settle = 0) {a v : Byte} (hv : ¬ (a = s.cfg.regCommand ∧ v = s.cfg.icCmdSoftReset)) :
    tWrite a v s = .ok () (passed s ms (.write a v) .done
      (s.dev.writeReg s.cfg EnvMove.quiet a v)) := by
  simp [tWrite, moveFor_listed ha, arrive_listed ha, conclude, State.written, State.record,
    passed, hs, settleAfter, hv]

/-- A bulk read within the occupancy (R53). -/
theorem tFifoRead_quiet {s : State} {ms : List EnvMove} (ha : s.agent = .any (EnvMove.quiet :: ms))
    (hs : s.settle = 0) {n : Nat} (hn : n ≤ s.dev.fifo.length) :
    tFifoRead n s = .ok (s.dev.fifo.take n) (passed s ms (.fifoRead n)
      (.bytes (s.dev.fifo.take n)) { s.dev with fifo := s.dev.fifo.drop n }) := by
  have h0 : n - s.dev.fifo.length = 0 := by omega
  simp [tFifoRead, moveFor_listed ha, arrive_listed ha, conclude, State.fifoTaken, State.fifoBytes,
    State.record, passed, hs, h0, drawnBytes]

/-- A bulk write within the free capacity (R54). -/
theorem tFifoWrite_quiet {s : State} {ms : List EnvMove}
    (ha : s.agent = .any (EnvMove.quiet :: ms)) (hs : s.settle = 0) {bs : List Byte}
    (hn : bs.length ≤ s.cfg.fifoCap - s.dev.fifo.length) :
    tFifoWrite bs s = .ok bs.length (passed s ms (.fifoWrite bs) (.count bs.length)
      { s.dev with fifo := s.dev.fifo ++ bs }) := by
  simp [tFifoWrite, moveFor_listed ha, arrive_listed ha, conclude, State.fifoFilled, fifoReported,
    State.record, passed, hs, hn]

/-- Ticks pass. -/
theorem waitTicks_quiet {s : State} {ms : List EnvMove} (ha : s.agent = .any (EnvMove.quiet :: ms))
    (hs : s.settle = 0) (t : Nat) :
    waitTicks t s = .ok () (passed s ms (.wait t) .done s.dev) := by
  simp [waitTicks, moveFor_listed ha, arrive_listed ha, conclude, State.record, passed, hs]

@[simp] theorem passed_cfg (s : State) (ms op ans d) : (passed s ms op ans d).cfg = s.cfg := rfl
@[simp] theorem passed_pe (s : State) (ms op ans d) : (passed s ms op ans d).pe = s.pe := rfl
@[simp] theorem passed_dev (s : State) (ms op ans d) : (passed s ms op ans d).dev = d := rfl
@[simp] theorem passed_settle (s : State) (ms op ans d) :
    (passed s ms op ans d).settle = s.settle := rfl
@[simp] theorem passed_agent (s : State) (ms op ans d) :
    (passed s ms op ans d).agent = .any ms := rfl
@[simp] theorem passed_drawn (s : State) (ms op ans d) :
    (passed s ms op ans d).drawn = s.drawn := rfl
@[simp] theorem passed_host (s : State) (ms op ans d) :
    (passed s ms op ans d).host = s.host := rfl
@[simp] theorem passed_sent (s : State) (ms op ans d) :
    (passed s ms op ans d).sent = s.sent := rfl
@[simp] theorem passed_bus (s : State) (ms op ans d) :
    (passed s ms op ans d).bus = s.bus ++ [{ op := op, answer := ans }] := rfl

/-! ### The procedures -/

/-- `fifoLength` against a settled IC (R100, R56). -/
theorem fifoLength_quiet {s : State} {ms : List EnvMove}
    (ha : s.agent = .any (EnvMove.quiet :: ms)) (hc : s.cfg.fifoCap ≤ 255) :
    ∃ v, fifoLength s = .ok (min s.dev.fifo.length s.cfg.fifoCap)
      (passed s ms (.read s.cfg.regFifoLength) (.value v) s.dev) := by
  refine ⟨s.dev.readReg s.cfg s.cfg.regFifoLength, ?_⟩
  rw [fifoLength, tRead_quiet ha]
  simp only [bind_ok, passed_cfg, readReg_length, toNat_length]
  congr 1
  omega

/-- `readFIFO` against a settled IC (R102, R110): the first `min(maxLen, occupancy)` bytes; one
micro-step when that is none, two otherwise. -/
theorem readFifo_quiet {s : State} {ms : List EnvMove} {maxLen : Nat}
    (ha : s.agent = .any ((if min maxLen s.dev.fifo.length = 0 then [EnvMove.quiet]
      else [EnvMove.quiet, EnvMove.quiet]) ++ ms))
    (hs : s.settle = 0) (hc : s.cfg.fifoCap ≤ 255) (hf : s.dev.fifo.length ≤ s.cfg.fifoCap) :
    ∃ l, readFifo maxLen s = .ok (s.dev.fifo.take maxLen)
        { s with
          dev := { s.dev with fifo := s.dev.fifo.drop maxLen }, agent := .any ms, bus := s.bus ++ l }
      ∧ l.map (·.op) = BusOp.read s.cfg.regFifoLength ::
          (if min maxLen s.dev.fifo.length = 0 then []
           else [.fifoRead (min maxLen s.dev.fifo.length)]) := by
  by_cases h0 : min maxLen s.dev.fifo.length = 0
  · simp only [h0, if_true] at ha ⊢
    obtain ⟨v, hv⟩ := fifoLength_quiet (ms := ms) ha hc
    refine ⟨[⟨.read s.cfg.regFifoLength, .value v⟩], ?_, rfl⟩
    have h0' : min maxLen (min s.dev.fifo.length s.cfg.fifoCap) = 0 := by omega
    have hd : s.dev.fifo.drop maxLen = s.dev.fifo ∧ s.dev.fifo.take maxLen = [] := by
      rcases Nat.min_eq_zero_iff.mp h0 with h | h
      · simp [h]
      · have := List.eq_nil_of_length_eq_zero h
        simp [this]
    rw [readFifo, hv, bind_ok]
    simp only [h0', if_true]
    simp [hd, passed]
  · simp only [h0, if_false] at ha ⊢
    obtain ⟨v, hv⟩ := fifoLength_quiet (ms := EnvMove.quiet :: ms) ha hc
    have h0' : min maxLen (min s.dev.fifo.length s.cfg.fifoCap) = min maxLen s.dev.fifo.length := by
      omega
    refine ⟨[⟨.read s.cfg.regFifoLength, .value v⟩, ⟨.fifoRead (min maxLen s.dev.fifo.length),
      .bytes (s.dev.fifo.take (min maxLen s.dev.fifo.length))⟩], ?_, rfl⟩
    have ht : s.dev.fifo.take (min maxLen s.dev.fifo.length) = s.dev.fifo.take maxLen := by
      rw [← List.take_take, List.take_length]
    have hd : s.dev.fifo.drop (min maxLen s.dev.fifo.length) = s.dev.fifo.drop maxLen := by
      by_cases hle : maxLen ≤ s.dev.fifo.length
      · rw [Nat.min_eq_left hle]
      · rw [Nat.min_eq_right (by omega), List.drop_length, List.drop_eq_nil_of_le (by omega)]
    rw [readFifo, hv]
    simp only [bind_ok, h0', h0, if_false]
    rw [tFifoRead_quiet (s := passed _ _ _ _ _) (ms := ms) rfl (by simpa using hs) (by simp)]
    simp [passed, ht, hd, List.take_take]

/-- `writeFIFO` of bytes that fit, against a settled IC (R105, R110). -/
theorem writeFifo_quiet {s : State} {ms : List EnvMove} {bs : List Byte} (hb : bs ≠ [])
    (ha : s.agent = .any (EnvMove.quiet :: EnvMove.quiet :: ms)) (hs : s.settle = 0)
    (hc : s.cfg.fifoCap ≤ 255) (hf : s.dev.fifo.length + bs.length ≤ s.cfg.fifoCap) :
    ∃ l, writeFifo bs s = .ok bs.length
        { s with
          dev := { s.dev with fifo := s.dev.fifo ++ bs }, agent := .any ms, bus := s.bus ++ l }
      ∧ l.map (·.op) = [BusOp.read s.cfg.regFifoLength, .fifoWrite bs] := by
  obtain ⟨v, hv⟩ := fifoLength_quiet (ms := EnvMove.quiet :: ms) ha hc
  refine ⟨[⟨.read s.cfg.regFifoLength, .value v⟩, ⟨.fifoWrite bs, .count bs.length⟩], ?_, rfl⟩
  have hl : bs.length ≠ 0 := by simpa using hb
  have hw : min bs.length (s.cfg.fifoCap - min s.dev.fifo.length s.cfg.fifoCap) = bs.length := by
    omega
  rw [writeFifo, hv]
  simp only [bind_ok, passed_cfg, hw, hl, if_false, List.take_length]
  rw [tFifoWrite_quiet (s := passed _ _ _ _ _) (ms := ms) rfl (by simpa using hs)
    (by simp only [passed_cfg, passed_dev]; omega)]
  simp [passed]

/-- The poll loop when the device shows nothing for `q` reads and then `v` (R125): the loop ends with
the verdict on `v`, `q` intervals later. -/
theorem pollLoop_answered {b i : Half} {m : EnvMove} {ms : List EnvMove} {r : Result}
    (hm : m.fails = false ∧ m.value = none ∧ m.react = [] ∧ m.reset = false) :
    ∀ (q fuel : Nat) (s : State), q < fuel →
      s.agent = .any (List.replicate (2 * q) EnvMove.quiet ++ m :: ms) →
      s.settle = 0 →
      irqVerdict s.cfg (s.dev.readReg s.cfg s.cfg.regIrq) = none →
      irqVerdict s.cfg ((s.dev.takeSteps s.cfg m.steps).readReg s.cfg s.cfg.regIrq) = some r →
      (∀ j < q, s.pe.elapsed.toNat + j * i.toNat ≤ b.toNat) →
      ∃ l u, u = { s with
            pe := { s.pe with elapsed := s.pe.elapsed + BitVec.ofNat 17 (q * i.toNat) }
            dev := s.dev.takeSteps s.cfg m.steps, agent := .any ms, bus := s.bus ++ l }
        ∧ l.map (·.op) = pollOps s.cfg i q
        ∧ pollLoop b i fuel s = if r = .ok then .ok () u else .err r u := by
  intro q
  induction q with
  | zero =>
    intro fuel s hq ha hs h0 h1 hb
    obtain ⟨fuel, rfl⟩ : ∃ k, fuel = k + 1 := ⟨fuel - 1, by omega⟩
    refine ⟨[⟨.read s.cfg.regIrq,
      .value ((s.dev.takeSteps s.cfg m.steps).readReg s.cfg s.cfg.regIrq)⟩], _, rfl, rfl, ?_⟩
    · rw [pollLoop, tRead_listed (m := m) (ms := ms) (by simpa using ha) _ hm]
      simp only [bind_ok, passed_cfg, h1]
      cases r <;> simp [passed]
  | succ q ih =>
    intro fuel s hq ha hs h0 h1 hb
    obtain ⟨fuel, rfl⟩ : ∃ k, fuel = k + 1 := ⟨fuel - 1, by omega⟩
    have e : 2 * (q + 1) = 2 * q + 1 + 1 := by omega
    rw [e, List.replicate_succ, List.replicate_succ, List.cons_append, List.cons_append] at ha
    have hlt : ¬ (b.setWidth 17 < s.pe.elapsed) := by
      have := hb 0 (by omega)
      have hbb : (b.setWidth 17).toNat = b.toNat := by
        simp only [BitVec.toNat_setWidth]; have := b.isLt; omega
      rw [BitVec.lt_def, hbb]; omega
    rw [pollLoop, tRead_quiet ha]
    simp only [bind_ok, passed_cfg, h0, passed_pe, hlt, if_false]
    rw [waitTicks_quiet (s := passed _ _ _ _ _) rfl (by simpa using hs)]
    have hi : ((i.setWidth 17 : BitVec 17)).toNat = i.toNat := by
      simp only [BitVec.toNat_setWidth]; have := i.isLt; omega
    have hsum : s.pe.elapsed.toNat + i.toNat < 2 ^ 17 := by
      have := hb 0 (by omega); have := b.isLt; have := i.isLt; omega
    obtain ⟨l, u, hu, hl, hp⟩ := ih fuel
      { passed (passed s (EnvMove.quiet :: (List.replicate (2 * q) EnvMove.quiet ++ m :: ms))
          (.read s.cfg.regIrq) (.value (s.dev.readReg s.cfg s.cfg.regIrq)) s.dev)
          (List.replicate (2 * q) EnvMove.quiet ++ m :: ms) (.wait i.toNat) .done s.dev with
        pe := { s.pe with elapsed := s.pe.elapsed + i.setWidth 17 } }
      (by omega) rfl (by simpa using hs) (by simpa using h0) (by simpa using h1)
      (fun j hj => by
        have := hb (j + 1) (by omega)
        simp only [BitVec.toNat_add, hi]
        rw [Nat.mod_eq_of_lt hsum]
        rw [Nat.add_mul] at this; omega)
    refine ⟨⟨.read s.cfg.regIrq, .value (s.dev.readReg s.cfg s.cfg.regIrq)⟩ ::
      ⟨.wait i.toNat, .done⟩ :: l, u, ?_, ?_, ?_⟩
    · rw [hu]
      have hadd : s.pe.elapsed + i.setWidth 17 + BitVec.ofNat 17 (q * i.toNat)
          = s.pe.elapsed + BitVec.ofNat 17 ((q + 1) * i.toNat) := by
        apply BitVec.eq_of_toNat_eq
        simp only [BitVec.toNat_add, BitVec.toNat_ofNat, hi]
        rw [Nat.add_mul]; omega
      simp [passed, hadd]
    · simp only [List.map_cons, hl]
      simp [pollOps, List.replicate_succ]
    · simpa [passed] using hp

/-- What one exchange is run in: a legal configuration, a settled IC, parameters that fit, a poll that
is answered before the budget test ends it (R127), an opcode that is not the reset command. -/
structure Exchangeable (s : State) (icop : Byte) (params : List Byte) (quiet : Nat) (d : List Byte) :
    Prop where
  legal   : s.cfg.legal = true
  settled : s.settle = 0
  opcode  : icop ≠ s.cfg.icCmdSoftReset
  fits    : params.length ≤ s.cfg.fifoCap
  answer  : d.length ≤ s.cfg.fifoCap
  clocked : s.pe.pollInterval ≠ 0
  inTime  : quiet ≤ s.pe.pollBudget.toNat / s.pe.pollInterval.toNat + 1

/-- The first four micro-steps of an exchange (R128). -/
def openers (c : Cfg) (fc icop : Byte) : List BusStep :=
  [⟨.write c.regFifoControl c.vFifoFlush, .done⟩, ⟨.write c.regFrameCfg fc, .done⟩,
    ⟨.write c.regIrq c.vIrqClear, .done⟩, ⟨.write c.regCommand icop, .done⟩]

/-- The state once an exchange has cleared, configured and issued its opcode (R128). -/
def opened (s : State) (fc icop : Byte) (ms : List EnvMove) : State :=
  { s with
    dev := { s.dev with fifo := [], cmd := icop, irq := 0, frame := fc }
    agent := .any ms
    bus := s.bus ++ openers s.cfg fc icop }

/-- An exchange against an environment that lets its first four writes through (R128). -/
theorem xchg_opened {s : State} {icop : Byte} {ms : List EnvMove} (fc : Byte) (params : List Byte)
    (need : Nat) (hl : Legal s.cfg) (hs : s.settle = 0) (ho : icop ≠ s.cfg.icCmdSoftReset)
    (ha : s.agent = .any (List.replicate 4 EnvMove.quiet ++ ms)) :
    xchg fc icop params need s =
      (if params.length = 0 then Reply.ok 0 (opened s fc icop ms)
        else writeFifo params (opened s fc icop ms)).bind fun k s =>
          if k < params.length then .err .protoShort s
          else (poll s).bind fun _ s => readFifo need s := by
  have hd := hl.distinct
  simp only [List.replicate, List.cons_append, List.nil_append] at ha
  have hc : clearFifo s = _ := tWrite_quiet (s := s) ha hs (by simp [Ne.symm hd.1.1])
  rw [xchg, hc, bind_ok, writeReg_flush]
  simp only [passed_cfg]
  rw [tWrite_quiet (s := passed _ _ _ _ _) rfl (by simpa using hs)
    (by simp [Ne.symm hd.1.2.2.2.2]), bind_ok]
  simp only [passed_cfg, passed_dev, writeReg_frame hl]
  rw [tWrite_quiet (s := passed _ _ _ _ _) rfl (by simpa using hs)
    (by simp [Ne.symm hd.1.2.2.1]), bind_ok]
  simp only [passed_cfg, passed_dev, writeReg_irqClear hl, writeCommand]
  rw [tWrite_quiet (s := passed _ _ _ _ _) rfl (by simpa using hs) (by simpa using ho), bind_ok]
  simp only [passed_cfg, passed_dev, writeReg_command hl _ _ ho]
  simp [passed, opened, openers]

/-- The environment of an exchange whose first part is quiet: up to the parameters. -/
theorem xchg_prepared {s : State} {icop : Byte} {params : List Byte} {quiet : Nat} {d : List Byte}
    {ms : List EnvMove} (fc : Byte) (need : Nat) (h : Exchangeable s icop params quiet d)
    (ha : s.agent = .any (List.replicate (preparation params.length) EnvMove.quiet ++ ms)) :
    ∃ l, l.map (·.op) =
        openingOps s.cfg fc icop params ++ (if params = [] then [] else [.fifoWrite params])
      ∧ xchg fc icop params need s =
        (poll { s with
          dev := { s.dev with fifo := params, cmd := icop, irq := 0, frame := fc }
          agent := .any ms, bus := s.bus ++ l }).bind fun _ s => readFifo need s := by
  have hl := Legal.of h.legal
  by_cases h0 : params = []
  · subst h0
    rw [xchg_opened fc [] need hl h.settled h.opcode ha]
    exact ⟨openers s.cfg fc icop, rfl, rfl⟩
  · have h0' : params.length ≠ 0 := by simpa using h0
    have ha' : s.agent = .any (List.replicate 4 EnvMove.quiet ++ (.quiet :: .quiet :: ms)) := by
      rw [ha, preparation, if_neg h0']; rfl
    rw [xchg_opened fc params need hl h.settled h.opcode ha']
    obtain ⟨l, hw, hlo⟩ := writeFifo_quiet (s := opened s fc icop (.quiet :: .quiet :: ms)) h0 rfl
      h.settled hl.capMax (by simpa [opened] using h.fits)
    rw [if_neg h0', hw]
    refine ⟨openers s.cfg fc icop ++ l, ?_, by simp [bind_ok, opened]⟩
    rw [List.map_append, hlo]
    simp [openingOps, openers, h0, opened]

/-- The device's state as its answer arrives (R40, R42). -/
theorem answered_dev {c : Cfg} {dev : Device} {d : List Byte} {irq : Byte}
    (hd : d.length ≤ c.fifoCap) :
    dev.takeSteps c [.transmit dev.fifo.length, .receive d, .raise irq]
      = { dev with fifo := d, irq := dev.irq ||| irq } := by
  simp [Device.takeSteps, Device.takeStep, List.take_of_length_le hd]

/-- The verdict on the IRQ bits a completed command shows (R126). -/
theorem verdict_done {c : Cfg} (h : Legal c) : irqVerdict c c.mDone = some .ok := by
  have := h.done
  simp_all [irqVerdict, h.doneColl, h.doneCrc]

theorem verdict_none (c : Cfg) : irqVerdict c 0 = none := by simp [irqVerdict]

/-- An exchange the device answers (R128): whatever verdict `r` its IRQ bits give, after exactly the
micro-steps of `exchangeOps` when it is OK, without the drain otherwise. -/
theorem xchg_answered {s : State} {icop : Byte} {params : List Byte} {quiet : Nat} {d : List Byte}
    {irq : Byte} {ms : List EnvMove} (fc : Byte) (need : Nat)
    (h : Exchangeable s icop params quiet d)
    (hv : irqVerdict s.cfg irq = some .ok)
    (ha : s.agent = .any (exchangeMoves params.length quiet d irq ++
      ((if min need d.length = 0 then [EnvMove.quiet] else [EnvMove.quiet, EnvMove.quiet]) ++ ms))) :
    ∃ l, l.map (·.op) = exchangeOps s.cfg s.pe.pollInterval fc icop params quiet (min need d.length)
      ∧ xchg fc icop params need s = .ok (d.take need)
        { s with
          pe := { s.pe with elapsed := BitVec.ofNat 17 (quiet * s.pe.pollInterval.toNat) }
          dev := { s.dev with fifo := d.drop need, cmd := icop, irq := irq, frame := fc }
          agent := .any ms, bus := s.bus ++ l } := by
  have hl := Legal.of h.legal
  have e : exchangeMoves params.length quiet d irq =
      List.replicate (preparation params.length) EnvMove.quiet ++
      (List.replicate (2 * quiet) EnvMove.quiet
        ++ [{ steps := [.transmit params.length, .receive d, .raise irq] }]) := by
    simp only [exchangeMoves, List.replicate_add, List.append_assoc]
  rw [e, List.append_assoc] at ha
  obtain ⟨l1, hl1, hx⟩ := xchg_prepared fc need h ha
  have hi : 0 < s.pe.pollInterval.toNat := by
    rcases Nat.eq_zero_or_pos s.pe.pollInterval.toNat with h0 | h0
    · exact absurd (BitVec.eq_of_toNat_eq (by simpa using h0)) h.clocked
    · exact h0
  obtain ⟨l2, u, hu, hl2, hp⟩ := pollLoop_answered (b := s.pe.pollBudget) (i := s.pe.pollInterval)
    (m := { steps := [.transmit params.length, .receive d, .raise irq] })
    (ms := (if min need d.length = 0 then [EnvMove.quiet] else [EnvMove.quiet, EnvMove.quiet]) ++ ms)
    (r := .ok) ⟨rfl, rfl, rfl, rfl⟩ quiet
    (pollReads s.pe.pollBudget s.pe.pollInterval)
    { s with
      pe := { s.pe with elapsed := 0 }
      dev := { s.dev with fifo := params, cmd := icop, irq := 0, frame := fc }
      agent := .any (List.replicate (2 * quiet) EnvMove.quiet
        ++ [{ steps := [.transmit params.length, .receive d, .raise irq] }] ++
        ((if min need d.length = 0 then [EnvMove.quiet] else [EnvMove.quiet, EnvMove.quiet]) ++ ms))
      bus := s.bus ++ l1 }
    (by have := h.inTime; unfold pollReads; omega) (by simp) h.settled
    (by simp only [readReg_irq hl]; exact verdict_none _)
    (by simp only [readReg_irq hl]
        rw [answered_dev (dev := { s.dev with fifo := params, cmd := icop, irq := 0, frame := fc })
          h.answer]
        simpa using hv)
    (by
      intro j hj
      have h1 : j ≤ s.pe.pollBudget.toNat / s.pe.pollInterval.toNat := by have := h.inTime; omega
      have := Nat.mul_le_of_le_div _ _ _ h1
      simpa using this)
  have hpoll : poll { s with
      dev := { s.dev with fifo := params, cmd := icop, irq := 0, frame := fc }
      agent := .any (List.replicate (2 * quiet) EnvMove.quiet
        ++ [{ steps := [.transmit params.length, .receive d, .raise irq] }] ++
        ((if min need d.length = 0 then [EnvMove.quiet] else [EnvMove.quiet, EnvMove.quiet]) ++ ms))
      bus := s.bus ++ l1 } = .ok () u := by simpa [poll] using hp
  rw [answered_dev (dev := { s.dev with fifo := params, cmd := icop, irq := 0, frame := fc })
    h.answer] at hu
  obtain ⟨l3, hr, hl3⟩ := readFifo_quiet (s := u) (ms := ms) (maxLen := need)
    (by simp [hu]) (by simpa [hu] using h.settled) (by simpa [hu] using hl.capMax)
    (by simpa [hu] using h.answer)
  refine ⟨l1 ++ l2 ++ l3, ?_, ?_⟩
  · simp only [List.map_append, hl1, hl2, hl3, hu, exchangeOps]
    by_cases h0 : min need d.length = 0 <;> simp [h0]
  · rw [hx, hpoll]
    simp only [bind_ok, hr]
    simp [hu, List.append_assoc]

end Sys2Proof.Laws
end

