-- ==== Sys2Proof/Laws/Sequencer.lean ====
section
/-! SUPPORT. What the sequencer's procedures can do, each said once (spec 43_iso14443a_sequencer.md
R141 to R150): the codes they end with, the registers they write, how many primitives they issue. -/

namespace Sys2Proof.Laws

open Sys2Proof.Machine

/-- How a request that its exchange completed ends (R144, R145): from the state `u` the exchange
left, with ATQA and OK, or without a tag and NO_TAG. -/
def RequestEnd (u : State) (r : Response) (t : State) : Prop :=
  (∃ d0 d1 : Byte, joinBytes d0 d1 ≠ 0 ∧ r = { code := .ok, count := 2, data := [d0, d1] } ∧
    t = { u with pe := { u.pe with atqa := joinBytes d0 d1 } }) ∨
  (r = { code := .noTag, count := 2, data := [0, 0] } ∧
    t = { u with pe := { u.pe with atqa := 0, seq := .idle } })

/-- `request` (R144): one exchange from the opened attempt, then ATQA, NO_TAG or PROTO_SHORT. -/
theorem request_post (cmd : Byte) (s : State) :
    Post (request cmd s)
      (fun r t => ∃ u, Within (exchangeBound s.pe) s.openAttempt u ∧ RequestEnd u r t)
      (fun c t => XchgCode c ∧ Within (exchangeBound s.pe) s.openAttempt t)
      (CutWithin (exchangeBound s.pe) s.openAttempt) := by
  refine (xchg_post _ _ _ _ s.openAttempt).bind (fun _ _ h => h) (fun _ h => h) fun d t h => ?_
  have hw : Within (exchangeBound s.pe) s.openAttempt t := h.2
  unfold requestOutcome
  split
  · rename_i d0 d1
    dsimp only
    split
    · rename_i h0
      exact ⟨t, hw, .inr ⟨rfl, by rw [h0]⟩⟩
    · rename_i h0
      exact ⟨t, hw, .inl ⟨d0, d1, h0, rfl, rfl⟩⟩
  · exact ⟨t, hw, .inr ⟨rfl, rfl⟩⟩
  · exact ⟨.inr rfl, hw⟩

/-- What the cascade loop keeps of PE: all but the UID, UIDLEN, SAK, SEQ, LEVEL and ELAPSED. -/
structure Levels (n : Nat) (s t : State) : Prop where
  cfg  : t.cfg = s.cfg
  host : t.host = s.host
  sent : t.sent = s.sent
  pe   : t.pe = { s.pe with
    uid := t.pe.uid, uidLen := t.pe.uidLen, sak := t.pe.sak, seq := t.pe.seq
    level := t.pe.level, elapsed := t.pe.elapsed }
  bus  : ∃ l, t.bus = s.bus ++ l ∧ primitives l ≤ n
  dev  : s.dev.wf s.cfg → t.dev.wf s.cfg

theorem Within.levels {n : Nat} {s t : State} (h : Within n s t) : Levels n s t :=
  ⟨h.cfg, h.host, h.sent, by rw [h.pe], h.bus, h.dev⟩

theorem Levels.trans {n k : Nat} {s t u : State} (h : Levels n s t) (h' : Levels k t u) :
    Levels (n + k) s u := by
  obtain ⟨l, hl, hn⟩ := h.bus
  obtain ⟨l', hl', hk⟩ := h'.bus
  refine ⟨h'.cfg.trans h.cfg, h'.host.trans h.host, h'.sent.trans h.sent, ?_,
    ⟨l ++ l', by rw [hl', hl, List.append_assoc], by rw [primitives_append]; omega⟩, ?_⟩
  · rw [h'.pe, h.pe]
  · intro hs
    have := h'.dev (by rw [h.cfg]; exact h.dev hs)
    rwa [h.cfg] at this

theorem Levels.mono {n k : Nat} {s t : State} (h : Levels n s t) (hk : n ≤ k) : Levels k s t := by
  obtain ⟨l, hl, hn⟩ := h.bus
  exact ⟨h.cfg, h.host, h.sent, h.pe, ⟨l, hl, by omega⟩, h.dev⟩

/-- The length of `UID[at ..]` after a write, byte by byte: bytes outside the written range stay. -/
theorem uidWrite_get_outside : ∀ (bs : List Byte) (u : Vector Byte 10) (k : Nat) (i : Fin 10),
    (i.val < k ∨ k + bs.length ≤ i.val) → (uidWrite u k bs)[i] = u[i]
  | [], _, _, _, _ => rfl
  | b :: bs, u, k, i, h => by
    have h' : i.val < k + 1 ∨ k + 1 + bs.length ≤ i.val := by
      rcases h with h | h
      · exact .inl (by omega)
      · exact .inr (by simp only [List.length_cons] at h; omega)
    rw [uidWrite, uidWrite_get_outside bs _ (k + 1) i h']
    have hk : k ≠ i.val := by
      rcases h with h | h
      · omega
      · simp only [List.length_cons] at h; omega
    simp [hk]

/-- A completed SELECT (R147, R149): SEQ is SELECTED, 4, 7 or 10 UID bytes by the level, nothing
beyond them. -/
structure Chosen (t : State) : Prop where
  seq    : t.pe.seq = .selected
  level  : t.pe.level = 1 ∨ t.pe.level = 2 ∨ t.pe.level = 3
  len    : t.pe.uidLen.toNat = 3 * t.pe.level.toNat + 1
  beyond : ∀ i : Fin 10, t.pe.uidLen.toNat ≤ i.val → t.pe.uid[i] = 0

/-- The cascade loop over the levels still to run (R147): at most `8 + N` primitives a level; a
completed one is `Chosen` and answers its UID and SAK. -/
theorem selectLevels_post : ∀ (k : Nat) (more : List Nat) (s : State),
    more = (List.range' (k + 1) (3 - k)) → k ≤ 3 → s.pe.uidLen.toNat = 3 * k →
    (∀ i : Fin 10, s.pe.uidLen.toNat ≤ i.val → s.pe.uid[i] = 0) →
    Post (selectLevels more s)
      (fun r t => r = selectResponse t ∧ Levels (more.length * exchangeBound s.pe) s t ∧ Chosen t)
      (fun c t => (XchgCode c ∨ c = .protoCascade) ∧
        Levels (more.length * exchangeBound s.pe) s t)
      (fun t => ∃ u, Levels (more.length * exchangeBound s.pe) s u ∧ t = u.resetPe)
  | k, [], s, _, _, _, _ => ⟨.inr rfl, (Within.refl 0 s).levels.mono (by simp)⟩
  | k, level :: more, s, hm, hk, hl, hz => by
    have hk3 : k < 3 := by
      rcases Nat.lt_or_ge k 3 with h | h
      · exact h
      · have : 3 - k = 0 := by omega
        simp [this] at hm
    have h3 : 3 - k = (3 - (k + 1)) + 1 := by omega
    rw [h3, List.range'_succ] at hm
    have hm' := (List.cons.inj hm).2
    have hlv := (List.cons.inj hm).1
    subst hlv
    have h0 : Levels 0 s { s with pe := { s.pe with level := BitVec.ofNat 2 (k + 1) } } :=
      ⟨rfl, rfl, rfl, rfl, ⟨[], by simp, by simp [primitives]⟩, id⟩
    have hlen : (((k + 1) :: more).length) * exchangeBound s.pe
        = exchangeBound s.pe + more.length * exchangeBound s.pe := by
      rw [List.length_cons, Nat.succ_mul, Nat.add_comm]
    rw [hlen]
    refine (xchg_post _ _ _ _ _).bind
      (fun c _ h => ⟨.inl h.1, (h0.trans h.2.levels).mono (by simp [exchangeBound])⟩)
      (fun _ h => ?_) fun d t h => ?_
    · obtain ⟨u, hu, rfl⟩ := h
      exact ⟨u, (h0.trans hu.levels).mono (by simp [exchangeBound]), rfl⟩
    · have hst : Levels (exchangeBound s.pe) s t :=
        (h0.trans h.2.levels).mono (by simp [exchangeBound])
      have hpe := h.2.pe
      dsimp only
      split
      · exact ⟨.inl (.inr rfl), hst.mono (by omega)⟩
      · exact ⟨.inr rfl, hst.mono (by omega)⟩
      · rename_i f1 f2 f3 _
        have hkeep : Levels (exchangeBound s.pe) s (t.keepFragment f1 f2 f3) :=
          ⟨hst.cfg, hst.host, hst.sent, by simp only [State.keepFragment]; rw [hst.pe], hst.bus,
            hst.dev⟩
        have hlen' : t.pe.uidLen.toNat = 3 * k := by rw [hpe]; exact hl
        have huid : t.pe.uid = s.pe.uid := by rw [hpe]
        have hlen2 : (t.pe.uidLen + 3#4).toNat = 3 * (k + 1) := by
          rw [BitVec.toNat_add, hlen']; simp; omega
        have ih := selectLevels_post (k + 1) more (t.keepFragment f1 f2 f3) hm' (by omega) hlen2
          (by
            intro i hi
            have hi' : 3 * (k + 1) ≤ i.val := by
              rw [← hlen2]; exact hi
            show (uidWrite t.pe.uid t.pe.uidLen.toNat [f1, f2, f3])[i] = 0
            rw [uidWrite_get_outside _ _ _ _ (.inr (by rw [hlen']; simp; omega)), huid]
            exact hz i (by rw [hl]; omega))
        have hb : exchangeBound (t.keepFragment f1 f2 f3).pe = exchangeBound s.pe := by
          rw [hkeep.pe]; rfl
        rw [hb] at ih
        refine ih.mono (fun _ _ h => ⟨h.1, hkeep.trans h.2.1, h.2.2⟩)
          (fun _ _ h => ⟨h.1, hkeep.trans h.2⟩) ?_
        rintro _ ⟨u, hu, rfl⟩
        exact ⟨u, hkeep.trans hu, rfl⟩
      · rename_i f0 f1 f2 f3 sak _
        have hlen' : t.pe.uidLen.toNat = 3 * k := by rw [hpe]; exact hl
        have huid : t.pe.uid = s.pe.uid := by rw [hpe]
        have hlevel : t.pe.level = BitVec.ofNat 2 (k + 1) := by rw [hpe]
        have hlen2 : (t.pe.uidLen + 4#4).toNat = 3 * (k + 1) + 1 := by
          rw [BitVec.toNat_add, hlen']; simp; omega
        refine ⟨rfl, Levels.mono (n := exchangeBound s.pe) ⟨hst.cfg, hst.host, hst.sent, by
            simp only [State.keepFinal]; rw [hst.pe], hst.bus, hst.dev⟩ (by omega),
          ⟨rfl, ?_, ?_, ?_⟩⟩
        · show t.pe.level = 1 ∨ t.pe.level = 2 ∨ t.pe.level = 3
          rw [hlevel]
          interval_cases k <;> simp
        · show (t.pe.uidLen + 4#4).toNat = 3 * t.pe.level.toNat + 1
          rw [hlen2, hlevel]
          interval_cases k <;> simp
        · intro i hi
          have hi' : 3 * (k + 1) + 1 ≤ i.val := by rw [← hlen2]; exact hi
          show (uidWrite t.pe.uid t.pe.uidLen.toNat [f0, f1, f2, f3])[i] = 0
          rw [uidWrite_get_outside _ _ _ _ (.inr (by rw [hlen']; simp; omega)), huid]
          exact hz i (by rw [hl]; omega)

end Sys2Proof.Laws
end

