-- ==== Sys2Proof/Tests/Slice0.lean ====
section
/-! SUPPORT. Tests: ill-formed operations refused, every constructor decoded from bytes written out
from the spec's tables, one step of every operation against values of 95_test_vectors.md, and a
witness for the hypotheses of every statement. -/

namespace Sys2Proof.Tests

open Sys2Proof.Machine

/-! ### Ill-formed operations (R81, R83, R170) -/

theorem test_wrcmd_256_parameters_illformed (l : List Byte) (h : l.length = 256) :
    (Instr.wrcmd 7 l).wellFormed = false := by simp [Instr.wellFormed, h]
theorem test_fifowr_256_bytes_illformed (l : List Byte) (h : l.length = 256) :
    (Instr.fifowr l).wellFormed = false := by simp [Instr.wellFormed, h]
theorem test_loadkey_short_key_illformed :
    (Instr.loadkey [1, 2, 3, 4, 5]).wellFormed = false := by decide
theorem test_auth_256_uid_bytes_illformed (l : List Byte) (h : l.length = 256) :
    (Instr.auth 0 0 l).wellFormed = false := by simp [Instr.wellFormed, h]
theorem test_wrblk_15_bytes_illformed :
    (Instr.wrblk 4 (List.replicate 15 0)).wellFormed = false := by decide
theorem test_wrpage_5_bytes_illformed :
    (Instr.wrpage 4 [1, 2, 3, 4, 5]).wellFormed = false := by decide

/-! ### Words written from the tables of R81, R82, R90 and R170 -/

theorem test_decode_wrcmd : decode [0x01, 0x07, 0x01, 0x26] = .instr (.wrcmd 0x07 [0x26]) := by decide
theorem test_decode_fifolen : decode [0x02] = .instr .fifolen := by decide
theorem test_decode_fiford : decode [0x03, 0x05] = .instr (.fiford 5) := by decide
theorem test_decode_fifowr : decode [0x04, 0x03, 0x01, 0x02, 0x03] = .instr (.fifowr [1, 2, 3]) := by
  decide
theorem test_decode_fifoclr : decode [0x05] = .instr .fifoclr := by decide
theorem test_decode_getstat : decode [0x06] = .instr .getstat := by decide
theorem test_decode_sreset : decode [0x07] = .instr .sreset := by decide
theorem test_decode_reqa : decode [0x08] = .instr .reqa := by decide
theorem test_decode_wupa : decode [0x09] = .instr .wupa := by decide
theorem test_decode_select : decode [0x0A] = .instr .select := by decide
theorem test_decode_rdctl : decode [0x0B, 0x10] = .instr (.rdctl 0x10) := by decide
theorem test_decode_wrctl : decode [0x0C, 0x00, 0x2C, 0x01] = .instr (.wrctl 0 300) := by decide
theorem test_decode_configure : decode [0x10, 0x00] = .instr (.configure 0) := by decide
theorem test_decode_loadkey :
    decode [0x11, 0xD3, 0xF7, 0xD3, 0xF7, 0xD3, 0xF7]
      = .instr (.loadkey [0xD3, 0xF7, 0xD3, 0xF7, 0xD3, 0xF7]) := by decide
theorem test_decode_auth :
    decode [0x12, 0x00, 0x04, 0x04, 0xDE, 0xAD, 0xBE, 0xEF]
      = .instr (.auth 0 4 [0xDE, 0xAD, 0xBE, 0xEF]) := by decide
theorem test_decode_rdblk : decode [0x13, 0x04] = .instr (.rdblk 4) := by decide
theorem test_decode_wrblk :
    decode [0x14, 0x04, 0, 1, 2, 3, 4, 5, 6, 7, 8, 9, 10, 11, 12, 13, 14, 15]
      = .instr (.wrblk 4 [0, 1, 2, 3, 4, 5, 6, 7, 8, 9, 10, 11, 12, 13, 14, 15]) := by decide
theorem test_decode_rdpage : decode [0x15, 0x04, 0x01] = .instr (.rdpage 0x0104) := by decide
theorem test_decode_wrpage :
    decode [0x16, 0x04, 0x01, 1, 2, 3, 4] = .instr (.wrpage 0x0104 [1, 2, 3, 4]) := by decide

/-- E5 to E8 and E10 of 95_test_vectors.md. -/
theorem test_decode_malformed :
    decode [0x03] = .malformed 3 ∧ decode [0x04, 3, 0xAA, 0xBB] = .malformed 4 ∧
    decode [0x08, 0x00] = .malformed 8 ∧ decode [0x01, 0x07] = .malformed 1 ∧
    decode [0x0C, 0x00, 0x2C] = .malformed 12 := by decide

/-- E1, E2, E4 of 95_test_vectors.md, and the gap above the client operations. -/
theorem test_decode_illegal :
    decode [0x00] = .badOp ∧ decode [0x0D] = .badOp ∧ decode [0xFF, 1, 2] = .badOp ∧
    decode [0x17] = .badOp := by decide

/-- A table row's bits read from bit 0 of the first byte on: `0C 00 2C 01`. -/
theorem test_table_word : decodeTableWord 32 0x012C000C = some (.wrctl 0 300) := by decide

/-! ### One step each, values of 95_test_vectors.md -/

/-- Right after reset against the reference device with a FIFO content and a script. -/
def bench (fifo : List Byte) (script : List ScriptEntry) : State :=
  { State.reset with dev := { fifo := fifo }, agent := .reference { script := script } }

/-- Right after reset against the listed moves. -/
def tape (ms : List EnvMove) : State := { State.reset with agent := .any ms }

/-- The client extension on, with a profile and a plan for every operation of it. -/
def clientCfg : Cfg :=
  { Cfg.ref with
    extClient := true
    client := {
      profiles := [(0x00, [⟨0x2E, 0x08, none⟩, ⟨0x40, 0x01, none⟩]),
        (0x01, [⟨0x41, 0x05, some 0x05⟩])]
      loadKey := { before := [.fill [.operandsFrom 0]], icop := 0x02, after := [.poll] }
      auth := { icop := 0x03, params := [.mapped 0 [0x60, 0x61], .operand 1, .operandsFrom 3] }
      authReg := 0x0B
      authMask := 0x20
      rdBlkOp := 0x07
      rdBlkParams := [.lit 0x30, .operand 0]
      wrBlk := {
        before := [.clear], icop := 0x07, params := [.lit 0xA0, .operand 0, .operandsFrom 1] }
      rdPageOp := 0x07
      rdPageParams := [.lit 0x30, .operand 0]
      wrPage := {
        before := [.clear], icop := 0x07, params := [.lit 0xA2, .operand 0, .operandsFrom 2]
        after := [.poll, .drain 1] }
      wrPageAck := some [0x0A] } }

/-- The environment of a page write whose device answers `ack` (R178). -/
def wrPageMoves (ack : List Byte) : List EnvMove :=
  [.quiet, .quiet, .quiet, .quiet, { steps := [.transmit 6, .receive ack, .raise 4] }, .quiet, .quiet]

/-- A state with the client extension on. -/
def clientTape (ms : List EnvMove) : State :=
  { State.resetWith clientCfg with agent := .any ms }

/-- The state an outcome answers, if it is a next state. -/
def after : Host.Outcome State Fault Refusal → Option State
  | .next t => some t
  | _ => none

/-- The responses sent. -/
def sentBy (i : Instr) (s : State) : Option (List (List Byte)) := (after (exec i s)).map (·.sent)

/-- C2: the parameters are truncated, COUNT says so. -/
theorem test_wrcmd_truncates :
    sentBy (.wrcmd 0 [0xA1, 0xA2, 0xA3])
      { bench [1, 2, 3, 4, 5, 6, 7] [] with cfg := { Cfg.ref with fifoCap := 8 } }
      = some [[0x00, 0x01]] := by decide
/-- F2. -/
theorem test_fifolen : sentBy .fifolen (bench [0x44, 0x00] []) = some [[0x00, 0x02]] := by decide
/-- F3. -/
theorem test_fiford :
    sentBy (.fiford 2) (bench [0x04, 0x00, 0xAA] []) = some [[0x00, 0x02, 0x04, 0x00]] := by decide
/-- F8: the overflow guard keeps the first three. -/
theorem test_fifowr :
    (after (exec (.fifowr [0x11, 0x22, 0x33, 0x44, 0x55, 0x66])
      { bench [1, 2, 3, 4, 5] [] with cfg := { Cfg.ref with fifoCap := 8 } })).map
        (fun t => (t.sent, t.dev.fifo))
      = some ([[0x00, 0x03]], [1, 2, 3, 4, 5, 0x11, 0x22, 0x33]) := by decide
/-- F11. -/
theorem test_fifoclr :
    (after (exec .fifoclr (bench [1, 2, 3] []))).map (fun t => (t.sent, t.dev.fifo))
      = some ([[0x00, 0x00]], []) := by decide
/-- C3. -/
theorem test_getstat :
    sentBy .getstat { bench [] [] with dev := { status := 5 } } = some [[0x00, 0x01, 0x05]] := by
  decide
/-- C5: the sequencer is cleared, POLL_BUDGET stays. -/
theorem test_sreset :
    (after (exec .sreset { bench [] [] with
      pe := { Regs.afterReset Cfg.ref with
        seq := .selected, level := 1, uidLen := 4, sak := 8, atqa := 4, pollBudget := 300 } })).map
        (fun t => (t.pe.seq, t.pe.uidLen, t.pe.pollBudget, t.sent))
      = some (.idle, 0, 300, [[0x00, 0x00]]) := by decide
/-- S6b: the second byte is the high byte of ATQA. -/
theorem test_reqa :
    (after (exec .reqa (bench [] [⟨some 0, 4, [0x00, 0x01]⟩]))).map
        (fun t => (t.sent, t.pe.atqa, t.pe.seq))
      = some ([[0x00, 0x02, 0x00, 0x01]], 0x0100, .request) := by decide
/-- S2: an empty field is no error. -/
theorem test_reqa_empty_field :
    (after (exec .reqa (bench [] [⟨some 1, 4, []⟩]))).map (fun t => (t.sent, t.pe.seq))
      = some ([[0x01, 0x02, 0x00, 0x00]], .idle) := by decide
/-- S1b: WUPA sends 0x52. -/
theorem test_wupa :
    (after (exec .wupa (bench [] [⟨some 0, 4, [0x44, 0x00]⟩]))).map (fun t => (t.sent, t.agent))
      = some ([[0x00, 0x02, 0x44, 0x00]],
        .reference { frames := [[0x52]], ordinal := 9 }) := by decide

/-- SEQ = REQUEST, ATQA = 0x0004, as S1 leaves it. -/
def requested : Regs := { Regs.afterReset Cfg.ref with seq := .request, atqa := 4 }

/-- S8: two levels, seven UID bytes, no cascade tag among them. -/
theorem test_select_seven :
    sentBy .select { bench [] [⟨some 1, 4, [0x88, 0x04, 0xA1, 0xB2, 0x04]⟩,
      ⟨some 1, 4, [0xC3, 0xD4, 0xE5, 0xF6, 0x00]⟩] with pe := requested }
      = some [[0x00, 0x07, 0x04, 0xA1, 0xB2, 0xC3, 0xD4, 0xE5, 0xF6, 0x00]] := by decide
/-- S11: continuation asked at level 3. -/
theorem test_select_fourth_level :
    (after (exec .select { bench [] [⟨some 0, 4, [0x88, 1, 2, 3, 4]⟩,
      ⟨some 0, 4, [0x88, 4, 5, 6, 4]⟩, ⟨some 0, 4, [0x88, 7, 8, 9, 4]⟩] with pe := requested })).map
        (fun t => (t.sent, t.pe.level, t.pe.uidLen))
      = some ([[0x07, 0x00]], 3, 0) := by decide
/-- E12: low byte first. -/
theorem test_rdctl :
    sentBy (.rdctl 0) { bench [] [] with pe := { requested with pollBudget := 300 } }
      = some [[0x00, 0x02, 0x2C, 0x01]] := by decide
/-- E15: the interval is never 0. -/
theorem test_wrctl_zero_interval : sentBy (.wrctl 1 0) (bench [] []) = some [[0x0B, 0x00]] := by
  decide
/-- R171: pairs in table order. -/
theorem test_configure :
    (after (exec (.configure 0) (clientTape [.quiet, .quiet]))).map (fun t => t.bus.map (·.op))
      = some [.write 0x2E 0x08, .write 0x40 0x01] := by decide
/-- R173: the key slot. -/
theorem test_loadkey :
    (after (exec (.loadkey [1, 2, 3, 4, 5, 6])
      (clientTape [.quiet, .quiet, .quiet, { steps := [.raise 4] }]))).map (·.dev.key)
      = some (some [1, 2, 3, 4, 5, 6]) := by decide
/-- R173: a key the overflow guard cuts is no transport failure; the slot is open (log entry 18). -/
theorem test_loadkey_cut :
    (after (exec (.loadkey [1, 2, 3, 4, 5, 6])
      { clientTape [.quiet, .quiet] with cfg := { clientCfg with fifoCap := 4 } })).map
        (fun t => (t.pe.result, t.bus.length)) = some (.ok, 2) := by decide
/-- 95_test_vectors.md 2.5: key type 2. -/
theorem test_auth_key_type_2 :
    sentBy (.auth 2 4 [0xDE, 0xAD, 0xBE, 0xEF]) (clientTape []) = some [[0x0B, 0x00]] := by decide
/-- R174: no authenticated state is a rejection, not an error. -/
theorem test_auth_rejected :
    (after (exec (.auth 0 4 [0xDE, 0xAD, 0xBE, 0xEF])
      (clientTape [.quiet, .quiet, .quiet, { steps := [.raise 4] }, .quiet]))).map (·.pe.result)
      = some .authRejected := by decide
/-- R175. -/
theorem test_rdblk :
    sentBy (.rdblk 4) (clientTape (exchangeMoves 2 1
      [0, 1, 2, 3, 4, 5, 6, 7, 8, 9, 10, 11, 12, 13, 14, 15] 4 ++ [.quiet, .quiet]))
      = some [[0x00, 0x10, 0, 1, 2, 3, 4, 5, 6, 7, 8, 9, 10, 11, 12, 13, 14, 15]] := by decide
/-- R176: the payload reaches the device's FIFO behind the command and the block number. -/
theorem test_wrblk :
    (after (exec (.wrblk 4 [0, 1, 2, 3, 4, 5, 6, 7, 8, 9, 10, 11, 12, 13, 14, 15])
      (clientTape [.quiet, .quiet, .quiet, .quiet]))).map (fun t => (t.sent, t.dev.fifo))
      = some ([[0x00, 0x10]],
        [0xA0, 4, 0, 1, 2, 3, 4, 5, 6, 7, 8, 9, 10, 11, 12, 13, 14, 15]) := by decide
/-- R190: a write the overflow guard cuts has written less than required. -/
theorem test_wrblk_cut :
    sentBy (.wrblk 4 [0, 1, 2, 3, 4, 5, 6, 7, 8, 9, 10, 11, 12, 13, 14, 15])
      { clientTape [.quiet, .quiet, .quiet, .quiet] with
        cfg := { clientCfg with fifoCap := 8 } } = some [[0x06, 0x00]] := by decide
/-- R177: three bytes of four. -/
theorem test_rdpage_short :
    sentBy (.rdpage 4) (clientTape (exchangeMoves 2 0 [1, 2, 3] 4 ++ [.quiet, .quiet]))
      = some [[0x06, 0x00]] := by decide
/-- R178. -/
theorem test_wrpage :
    sentBy (.wrpage 4 [1, 2, 3, 4]) (clientTape (wrPageMoves [0x0A])) = some [[0x00, 0x04]] := by
  decide

/-- R226, U4: an access inside the settle window is a draw against the reference device too. -/
theorem test_reference_in_window (s : State) (r : RefDevice) (h : s.agent = .reference r)
    (hs : s.settle = 1) :
    s.moveFor (.read 0x04) = { Config.envMove s.drawn with reset := false } := by
  simp [State.moveFor, State.inWindow, h, hs]
/-- R226: no key for certain from a LOADKEY inside the window, nor from one that resets the IC. -/
theorem test_loadkey_settled :
    clientCfg.client.loadKey.settled (clientTape []) = true ∧
    clientCfg.client.loadKey.settled { clientTape [] with settle := 1 } = false ∧
    ({ icop := 0x1F : ClientPlan }).settled (clientTape []) = false := by decide
/-- N14: a layout that takes the last four UID bytes whatever their number. -/
theorem test_layout_last_four :
    layoutBytes (Instr.auth 0 9 [1, 2, 3, 4, 5, 6, 7]).operands
      [.operand 1, .operandFromEnd 3, .operandFromEnd 2, .operandFromEnd 1, .operandFromEnd 0]
      = [9, 4, 5, 6, 7] := by decide

/-- Z1: RESET; the device stays. -/
theorem test_reset_event :
    (after (step { bench [9] [] with pe := { requested with pollBudget := 300 }, host := [.reset] })).map
        (fun t => (t.pe, t.dev.fifo)) = some (Regs.afterReset Cfg.ref, [9]) := by decide
/-- Z2: RESET inside a POLL: no response. -/
theorem test_reset_cuts :
    (after (exec .reqa (tape (List.replicate 7 .quiet ++ [{ reset := true }])))).map
        (fun t => (t.pe, t.sent)) = some (Regs.afterReset Cfg.ref, []) := by decide

/-! ### Witnesses: a state and operands that meet the hypotheses of each statement -/

theorem ref_legal : Cfg.ref.legal = true := by decide
theorem client_legal : clientCfg.legal = true := by decide

theorem witness_round_trips :
    (Instr.fifowr [1, 2, 3]).wellFormed = true ∧
    decode [0x03, 0x05] = .instr (.fiford 5) := by decide
theorem witness_DecodingFollowsLengthRule :
    (baseOp 0x08 || clientOp 0x08) = true ∧ (baseOp 0x16 || clientOp 0x16) = true ∧
    wordLength [0x08] = some (0 + 1) ∧ wordLength [0x08, 0x00] ≠ some (1 + 1) ∧
    wordLength [0x01, 0x07] ≠ some (1 + 1) := by decide

/-- A host word presented right after reset. -/
def presented (w : List Byte) : State := { State.reset with host := [.word w] }

theorem witness_StepRunsDecodedInstruction :
    (presented [0x0A]).host = .word [0x0A] :: [] ∧ (presented [0x0A]).pe.busy = false ∧
    decode [0x0A] = .instr .select := by decide
theorem witness_IllegalOpcodeAnswersBadOp :
    ((presented [0x0D]).pe.busy = false ∧ baseOp 0x0D = false ∧ clientOp 0x0D = false) ∧
    (baseOp 0x00 = false ∧ clientOp 0x00 = false) ∧ (baseOp 0x0F = false ∧ clientOp 0x0F = false) ∧
    (baseOp 0x17 = false ∧ clientOp 0x17 = false) ∧
    ((presented [0x10, 0x00]).pe.busy = false ∧ baseOp 0x10 = false ∧
      (presented [0x10, 0x00]).cfg.extClient = false) := by decide
theorem witness_MalformedWordAnswersBadArg :
    ((presented [0x08, 0x00]).pe.busy = false ∧ baseOp 0x08 = true ∧
      wordLength [0x08, 0x00] ≠ some (1 + 1)) ∧
    (clientOp 0x13 = true ∧ (clientTape []).cfg.extClient = true ∧
      wordLength [0x13] ≠ some (0 + 1)) := by decide
theorem witness_BusyPortIgnoresWords :
    ∃ s : State, s.host = .word [0x02] :: [] ∧ s.pe.busy = true :=
  ⟨{ presented [0x02] with pe := { Regs.afterReset Cfg.ref with busy := true } }, rfl, rfl⟩
theorem witness_ResetEventResetsPeOnly :
    ∃ s : State, s.host = .reset :: [] ∧ s.pe.pollBudget = 300 :=
  ⟨{ State.reset with pe := { requested with pollBudget := 300 }, host := [.reset] }, rfl, rfl⟩
theorem witness_OneResponseUnlessReset :
    (∃ t, exec .getstat (tape [.quiet]) = .next t ∧ t.sent = [] ++ [[0x00, 0x01, 0x00]]) ∧
    (∃ t, exec .getstat (tape [{ reset := true }]) = .next t ∧ t.sent = []) :=
  ⟨⟨_, rfl, by decide⟩, ⟨_, rfl, by decide⟩⟩
theorem witness_ResponseMirrorsResultAndCount :
    ∃ t, exec .select State.reset = .next t ∧ t.sent = State.reset.sent ++ [[0x09, 0x00]] ∧
      t.pe.result = .badSeq := ⟨_, rfl, by decide, by decide⟩

/-- A full FIFO of 8 bytes. -/
def fullTape (ms : List EnvMove) : State :=
  { tape ms with
    cfg := { Cfg.ref with fifoCap := 8 }, dev := { fifo := [1, 2, 3, 4, 5, 6, 7, 8] } }

theorem witness_FifolenReportsOccupancy :
    ((tape [.quiet]).settle = 0 ∧ ((tape [.quiet]).moveFor (.read 0x04)).reset = false ∧
      ((tape [.quiet]).moveFor (.read 0x04)).fails = false) ∧
    ((fullTape [{ fails := true }]).cfg.legal = true ∧
      ((fullTape [{ fails := true }]).moveFor (.read 0x04)).reset = false ∧
      ((fullTape [{ fails := true }]).moveFor (.read 0x04)).fails = true) := by decide
theorem witness_FifordDrainsOccupancy :
    ((fullTape []).dev.fifo.length ≤ (fullTape []).cfg.fifoCap ∧
      (fullTape [.quiet, .quiet]).Meets
        (if min (255 : Byte).toNat 8 = 0 then [.quiet] else [.quiet, .quiet]) []) ∧
    (fullTape [.quiet]).Meets
      (if min (0 : Byte).toNat 8 = 0 then [.quiet] else [.quiet, .quiet]) [] := by decide
theorem witness_FifordNeverExceedsRequest :
    (∃ t, exec (.fiford 2) (fullTape [.quiet, .quiet]) = .next t ∧ t.sent ≠ [] ∧
      t.pe.result = .ok) ∧
    (∃ t, exec (.fiford 2) (fullTape [.quiet, { fails := true }]) = .next t ∧ t.sent ≠ [] ∧
      t.pe.result = .commErr) :=
  ⟨⟨_, rfl, by decide, by decide⟩, ⟨_, rfl, by decide, by decide⟩⟩
theorem witness_FifowrKeepsOverflowGuard :
    ((fullTape [.quiet]).dev.fifo.length ≤ (fullTape []).cfg.fifoCap ∧
      (fullTape [.quiet]).Meets (if min 3 (8 - 8) = 0 then [.quiet] else [.quiet, .quiet]) []) ∧
    (tape [.quiet, .quiet]).Meets (if min 3 (255 - 0) = 0 then [.quiet] else [.quiet, .quiet]) [] := by
  decide
theorem witness_FifoclrEmptiesFifo : (fullTape [.quiet]).Meets [.quiet] [] := by decide
theorem witness_WrcmdWritesOpcodeFirst :
    (0x07 : Byte) ≠ (fullTape []).cfg.icCmdSoftReset ∧ (tape [.quiet]).Meets [.quiet] [] ∧
    (fullTape [.quiet, .quiet]).Meets [.quiet, .quiet] [] ∧
    (tape [.quiet, .quiet, .quiet]).Meets [.quiet, .quiet, .quiet] [] := by decide
theorem witness_WrcmdPassesAnyOpcode :
    ((tape [.quiet]).moveFor (.write 0x00 0x1F)).reset = false ∧
    ((tape [.quiet]).moveFor (.write 0x00 0x1F)).fails = false ∧
    ((tape [{ fails := true }]).moveFor (.write 0x00 0xFF)).reset = false ∧
    ((tape [{ fails := true }]).moveFor (.write 0x00 0xFF)).fails = true := by decide
theorem witness_GetstatReturnsStatus :
    ((tape [.quiet]).settle = 0 ∧ ((tape [.quiet]).moveFor (.read 0x0B)).reset = false ∧
      ((tape [.quiet]).moveFor (.read 0x0B)).fails = false) ∧
    (((tape [{ fails := true }]).moveFor (.read 0x0B)).reset = false ∧
      ((tape [{ fails := true }]).moveFor (.read 0x0B)).fails = true) := by decide
theorem witness_SresetClearsAttempt :
    ((tape [.quiet]).moveFor (.write 0x00 0x1F)).reset = false ∧
    ((tape [{ fails := true }]).moveFor (.write 0x00 0x1F)).reset = false := by decide
theorem witness_SettleWindowOpensAndCloses :
    ∃ s t : State, (s.moveFor (.write s.cfg.regCommand s.cfg.icCmdSoftReset)).fails = false ∧
      exec .sreset s = .next t ∧ t.host = .wait 3 :: [] ∧ s.cfg.tSettle = 5 :=
  ⟨{ tape [.quiet] with cfg := { Cfg.ref with tSettle := 5 }, host := [.wait 3] }, _, by decide, rfl,
    by decide, rfl⟩
theorem witness_RdctlReadsControlMap :
    State.reset.cfg.legal = true ∧ 0x0A ≤ (0x0A : Byte).toNat ∧ (0x0F : Byte).toNat ≤ 0x0F ∧
    0x1A ≤ (0x1A : Byte).toNat ∧ 0x1A ≤ (0xFF : Byte).toNat := by decide
theorem witness_WrctlWritesPollRegisters :
    1 ≤ (1 : Half).toNat ∧ 1 ≤ (0xFFFF : Half).toNat ∧ 2 ≤ (2 : Byte).toNat ∧
    2 ≤ (0xFF : Byte).toNat := by decide

/-- Right after reset with the poll registers at given values. -/
def polled (b i : Half) (ms : List EnvMove) : State :=
  { tape ms with pe := { Regs.afterReset Cfg.ref with pollBudget := b, pollInterval := i } }

/-- C14's budget and interval: a POLL that ends in TIMEOUT, and one that completes. -/
theorem witness_PollBound :
    (∃ t, poll (polled 0 1 [.quiet, .quiet, .quiet]) = .err .timeout t) ∧
    (∃ t, poll (polled 0 1 [{ steps := [.raise 4] }]) = .ok () t) := ⟨⟨_, rfl⟩, ⟨_, rfl⟩⟩
/-- C15: the greatest budget and interval. -/
theorem witness_ElapsedNeverWraps :
    (∃ t, poll (polled 65535 65535 (List.replicate 5 .quiet)) = .err .timeout t ∧
      t.pe.elapsed = 131070 ∧ waits t.bus = 2) ∧
    (∃ t, poll (polled 65535 1 [{ fails := true }]) = .err .commErr t ∧ t.pe.elapsed = 0) :=
  ⟨⟨_, rfl, by decide, by decide⟩, ⟨_, rfl, by decide⟩⟩
theorem witness_OperationsAreBounded :
    baseOp (Instr.reqa).opcode = true ∧ ∃ t, exec .reqa (bench [] []) = .next t :=
  ⟨by decide, _, rfl⟩

theorem witness_RequestReadsAtqa :
    RequestRun .reqa (polled 0 1 (exchangeMoves 1 1 [4, 0] 4 ++ [.quiet, .quiet])) 1 [4, 0] 4
      (.quiet :: .quiet :: []) :=
  ⟨.inl rfl, by decide, by decide, by decide, by decide, by decide, by decide⟩
theorem witness_RequestWithoutTag :
    RequestRun .wupa (polled 0 1 (exchangeMoves 1 0 [] 4 ++ [.quiet])) 0 [] 4
      (List.replicate (if ([] : List Byte) = [] then 1 else 2) .quiet ++ []) ∧
    RequestRun .reqa (polled 0 1 (exchangeMoves 1 0 [0, 0, 9] 4 ++ [.quiet, .quiet])) 0 [0, 0, 9] 4
      (List.replicate (if ([0, 0, 9] : List Byte) = [] then 1 else 2) .quiet ++ []) :=
  ⟨⟨.inr rfl, by decide, by decide, by decide, by decide, by decide, by decide⟩,
    ⟨.inl rfl, by decide, by decide, by decide, by decide, by decide, by decide⟩⟩
theorem witness_RequestShortAnswerFails :
    RequestRun .reqa (polled 0 1 (exchangeMoves 1 0 [4] 4 ++ [.quiet, .quiet])) 0 [4] 4
      (.quiet :: .quiet :: []) :=
  ⟨.inl rfl, by decide, by decide, by decide, by decide, by decide, by decide⟩
theorem witness_RequestErrorBitFails :
    RequestRun .reqa (polled 0 1 (exchangeMoves 1 0 [4, 0] 7)) 0 [4, 0] 7 [] ∧
    irqVerdict Cfg.ref 7 = some .protoCollision ∧ irqVerdict Cfg.ref 6 = some .protoCrc :=
  ⟨⟨.inl rfl, by decide, by decide, by decide, by decide, by decide, by decide⟩, by decide, by decide⟩
theorem witness_SilentDeviceTimesOut :
    (polled 0 1 (List.replicate 9 .quiet)).Meets (List.replicate (6 + 2 * (0 / 1 + 1) + 1) .quiet) [] := by
  decide
theorem witness_FirstFailureEndsAttempt :
    (tape [{ fails := true }]).pe.pollInterval ≠ 0 ∧
    ((tape [{ fails := true }]).moveFor (.write 0x02 0x10)).fails = true ∧
    ((tape [{ fails := true }]).moveFor (.write 0x02 0x10)).reset = false ∧
    ({ tape [{ fails := true }] with pe := requested } : State).pe.seq = .request := by decide
/-- A state from REQUEST with a tape. -/
def requestedTape (ms : List EnvMove) : State := { tape ms with pe := requested }

theorem witness_SelectRefusedOutOfSequence :
    State.reset.pe.seq ≠ .request ∧ (requestedTape [{ fails := true }]).pe.seq = .request ∧
    ∃ t, exec .select (requestedTape [{ fails := true }]) = .next t ∧ t.sent ≠ [] :=
  ⟨by decide, by decide, _, rfl, by decide⟩
theorem witness_CascadeDecisionTable :
    ((0x04 : Byte) &&& Cfg.ref.mSakCascade ≠ 0 ∧ (0x88 : Byte) = Cfg.ref.ct) ∧
    ((0x08 : Byte) &&& Cfg.ref.mSakCascade = 0 ∧ (0xDE : Byte) ≠ Cfg.ref.ct) := by decide

/-- The second run has the silent polls of P2 of 95_test_vectors.md: 2, 0 and 3. -/
theorem witness_SelectAssemblesUid :
    SelectRun (requestedTape (selectMoves Cfg.ref [⟨0, [1, 2, 3, 4, 8]⟩])) [⟨0, [1, 2, 3, 4, 8]⟩] [] ∧
    SelectRun (requestedTape (selectMoves Cfg.ref [⟨2, [0x88, 1, 2, 3, 4]⟩,
        ⟨0, [0x88, 4, 5, 6, 4, 99]⟩, ⟨3, [7, 8, 9, 10, 0]⟩]))
      ([{ f1 := 1, f2 := 2, f3 := 3, sak := 4, quiet := 2 },
        { f1 := 4, f2 := 5, f3 := 6, sak := 4, more := [99] }].map (Continuing.answer Cfg.ref) ++
        [⟨3, [7, 8, 9, 10, 0]⟩]) [] ∧
    ((0x04 : Byte) &&& Cfg.ref.mSakCascade ≠ 0 ∧ (0x08 : Byte) &&& Cfg.ref.mSakCascade = 0) :=
  ⟨⟨by decide, by decide, by decide, by decide, by decide, by decide, by decide, by decide,
      by decide⟩,
    ⟨by decide, by decide, by decide, by decide, by decide, by decide, by decide, by decide,
      by decide⟩, by decide⟩
theorem witness_SelectFailsAtLevel :
    SelectRun (requestedTape (selectMoves Cfg.ref [⟨0, []⟩])) [⟨0, []⟩] [] ∧
    SelectRun (requestedTape (selectMoves Cfg.ref [⟨51, [0x88, 1, 2, 3, 4]⟩, ⟨0, [9, 8, 7, 6, 4, 5]⟩]))
      ([{ f1 := 1, f2 := 2, f3 := 3, sak := 4, quiet := 51 }].map (Continuing.answer Cfg.ref) ++
        [⟨0, [9, 8, 7, 6, 4, 5]⟩]) [] ∧
    levelOutcome Cfg.ref (1 + 1) [9, 8, 7, 6, 4, 5] = .cascade :=
  ⟨⟨by decide, by decide, by decide, by decide, by decide, by decide, by decide, by decide,
      by decide⟩,
    ⟨by decide, by decide, by decide, by decide, by decide, by decide, by decide, by decide,
      by decide⟩, by decide⟩
theorem witness_SequencerFollowsTable :
    requested.atRest ∧ (Regs.afterReset Cfg.ref).atRest ∧
    (∃ t, exec .select { bench [] [] with pe := requested } = .next t ∧ t.sent ≠ [] ∧
      t.pe.seq = .failed) ∧
    (∃ t, exec .reqa (bench [] [⟨some 0, 4, [4, 0]⟩]) = .next t ∧ t.sent ≠ [] ∧
      t.pe.seq = .request) ∧
    (∃ t, exec .sreset (bench [] []) = .next t ∧ t.sent ≠ []) ∧
    (∃ t, exec .getstat { bench [] [] with pe := requested } = .next t ∧ t.sent ≠ [] ∧
      t.pe.seq = .request) :=
  ⟨by decide, by decide, ⟨_, rfl, by decide, by decide⟩, ⟨_, rfl, by decide, by decide⟩,
    ⟨_, rfl, by decide⟩, ⟨_, rfl, by decide, by decide⟩⟩
theorem witness_ResultCodesPerOperation :
    (allowedCodes Cfg.ref .getstat ≠ [] ∧
      ∃ t, exec .getstat (tape [.quiet]) = .next t ∧ t.sent ≠ []) ∧
    (allowedCodes clientCfg (.loadkey [1, 2, 3, 4, 5, 6]) ≠ [] ∧
      ∃ t, exec (.loadkey [1, 2, 3, 4, 5, 6]) (clientTape [{ fails := true }]) = .next t ∧
        t.sent ≠ []) := ⟨⟨by decide, _, rfl, by decide⟩, ⟨by decide, _, rfl, by decide⟩⟩
/-- A failure at the second primitive, and an operation without one. -/
theorem witness_FailureEndsOperation :
    (∃ t, exec (.fiford 2) (fullTape [.quiet, { fails := true }]) = .next t ∧ t.sent ≠ [] ∧
      t.bus.length = 2) ∧
    (∃ t, exec .select State.reset = .next t ∧ t.sent ≠ [] ∧ t.bus = []) ∧
    (∃ t, exec (.wrpage 4 [1, 2, 3, 4]) (clientTape [.quiet, { fails := true }]) = .next t ∧
      t.sent ≠ [] ∧ t.pe.result = .commErr) :=
  ⟨⟨_, rfl, by decide, by decide⟩, ⟨_, rfl, by decide, by decide⟩, ⟨_, rfl, by decide, by decide⟩⟩
theorem witness_OperationsFramePe :
    (∃ t, exec .fifolen (tape [.quiet]) = .next t ∧ t.sent ≠ (tape [.quiet]).sent) ∧
    (∃ t, exec .wupa (tape [{ fails := true }]) = .next t ∧ t.sent ≠ [] ∧ t.pe.seq = .failed) ∧
    (∃ t, exec (.wrctl 0 7) (tape []) = .next t ∧ t.sent ≠ [] ∧ t.pe.pollBudget = 7) :=
  ⟨⟨_, rfl, by decide⟩, ⟨_, rfl, by decide, by decide⟩, ⟨_, rfl, by decide, by decide⟩⟩
theorem witness_ClearIsIdempotent : (fullTape [.quiet, .quiet]).Meets [.quiet, .quiet] [] := by decide
theorem witness_FailedWriteIsOldOrNew :
    ((tape [{ fails := true }]).moveFor (.write 0x00 0x07)).fails = true ∧
    ((tape [{ fails := true, landed := 1 }]).moveFor (.write 0x00 0x07)).reset = false ∧
    (tape []).settle = 0 ∧ (0x07 : Byte) ≠ Cfg.ref.icCmdSoftReset := by decide
/-- C9: the answer comes at the last read. -/
theorem witness_ReferenceDeviceAnswersRequest :
    Cfg.ref.icCmdTransceive ≠ Cfg.ref.icCmdSoftReset ∧ 2 ≤ Cfg.ref.fifoCap ∧
    (51 + 1 - 1) / 1 ≤ (50 : Half).toNat / 1 + 1 ∧
    (bench [] [⟨some 51, Cfg.ref.mDone, [4, 0]⟩]).agent = .reference
      { script := { lat := some 51, irq := Cfg.ref.mDone, resp := [4, 0] } :: []
        fails := [], pend := none, ordinal := 0, frames := [] } := by decide
theorem witness_StepKeepsRestRules :
    (presented [0x0B, 0x09]).Inv ∧ ∃ t, step (presented [0x0B, 0x09]) = .next t :=
  ⟨by decide, _, rfl⟩
/-- Two devices that differ in what PE does not ask for. -/
theorem witness_SameAnswersSameBehaviour :
    ∃ t t' : State, exec .getstat (tape [.quiet]) = .next t ∧
      exec .getstat { tape [.quiet] with dev := { fifo := [1] } } = .next t' ∧
      t.bus.map (·.answer) = t'.bus.map (·.answer) ∧ t.sent = [[0, 1, 0]] ∧ t'.sent = [[0, 1, 0]] ∧
      t.dev ≠ t'.dev := ⟨_, _, rfl, rfl, by decide, by decide, by decide, by decide⟩
theorem witness_ClientOffAnswersBadOp :
    clientOp (Instr.rdblk 4).opcode = true ∧ State.reset.cfg.extClient = false := by decide
theorem witness_ClientLeavesSequencer :
    clientOp (Instr.rdblk 4).opcode = true ∧
    ∃ t, exec (.rdblk 4) (clientTape (exchangeMoves 2 0 [1] 4 ++ [.quiet, .quiet])) = .next t ∧
      t.sent ≠ [] := ⟨by decide, _, rfl, by decide⟩
theorem witness_ConfigureWritesTableInOrder :
    (profilePairs clientCfg 0 = some [⟨0x2E, 0x08, none⟩, ⟨0x40, 0x01, none⟩] ∧
      (∀ p ∈ [(⟨0x2E, 0x08, none⟩ : ProfilePair), ⟨0x40, 0x01, none⟩],
        ¬ (p.addr = clientCfg.regCommand ∧ p.value = clientCfg.icCmdSoftReset)) ∧
      (clientTape [.quiet, .quiet]).Meets (List.replicate (2 + 0) .quiet) []) ∧
    (profilePairs clientCfg 1 = some [⟨0x41, 0x05, some 0x05⟩] ∧
      (({} : Device).writeReg clientCfg .quiet 0x41 0x05).readReg clientCfg 0x41 = 0x05 ∧
      (clientTape [.quiet, .quiet]).Meets (List.replicate (1 + 1) .quiet) []) := by decide
theorem witness_ConfigureFailures :
    profilePairs clientCfg 7 = none ∧
    (∃ t, writePairs [⟨0x2E, 0x08, none⟩, ⟨0x40, 0x01, none⟩] (clientTape [.quiet, { fails := true }])
      = .err .commErr t) ∧
    profilePairs clientCfg 0 = some ([⟨0x2E, 0x08, none⟩] ++ ⟨0x40, 0x01, none⟩ :: []) ∧
    profilePairs clientCfg 1 = some ([] ++ ⟨0x41, 0x05, some 0x05⟩ :: []) ∧
    (∃ u w : State, writePairs ([] ++ ⟨0x41, 0x05, some 0x05⟩ :: [])
        (clientTape [.quiet, { value := some 9 }]) = .ok () u ∧
      checkPairs [] u = .ok () u ∧ tRead 0x41 u = .ok 9 w) :=
  ⟨by decide, ⟨_, rfl⟩, by decide, by decide, ⟨_, _, rfl, rfl, rfl⟩⟩
theorem witness_LoadkeyLoadsKey :
    (∃ a u, runClient [1, 2, 3, 4, 5, 6] clientCfg.client.loadKey.steps []
      (clientTape [.quiet, .quiet, .quiet, { steps := [.raise 4] }]) = .ok a u) ∧
    ((clientTape []).settle = 0 ∧
      ∀ call ∈ clientCfg.client.loadKey.steps, call.resetsDevice clientCfg = false) ∧
    (∃ u, runClient [1, 2, 3, 4, 5, 6] clientCfg.client.loadKey.steps []
      (clientTape [.quiet, .quiet, .quiet, { steps := [.raise 2] }]) = .err .protoCrc u) ∧
    (∃ u, runClient [1, 2, 3, 4, 5, 6] clientCfg.client.loadKey.steps []
      (clientTape [{ fails := true }]) = .err .commErr u) :=
  ⟨⟨_, _, rfl⟩, by decide, ⟨_, rfl⟩, ⟨_, rfl⟩⟩
/-- The calls of AUTH before its poll. -/
def authCalls (ms : List EnvMove) : Reply (List Byte) :=
  runClient (Instr.auth 0 4 [1, 2, 3, 4]).operands clientCfg.client.auth.steps [] (clientTape ms)

theorem witness_AuthReportsVerdict :
    (∃ a u v, authCalls (List.replicate 3 .quiet ++ [{ steps := [.raise 4] }, .quiet]) = .ok a u ∧
      poll u = .ok () v ∧ v.Meets [.quiet] []) ∧
    (∃ u, authCalls [.quiet, { fails := true }] = .err .commErr u) ∧
    (∃ a u v, authCalls (List.replicate 107 .quiet) = .ok a u ∧ poll u = .err .timeout v) ∧
    (∃ a u v, authCalls (List.replicate 3 .quiet ++ [{ steps := [.raise 2] }]) = .ok a u ∧
      poll u = .err .protoCrc v) ∧
    (∃ a u v, authCalls (List.replicate 3 .quiet ++ [{ steps := [.raise 4] }, { fails := true }])
        = .ok a u ∧ poll u = .ok () v ∧ v.agent = .any ({ fails := true, landed := 0 } :: [])) :=
  ⟨⟨_, _, _, rfl, rfl, by decide⟩, ⟨_, rfl⟩, ⟨_, _, _, rfl, rfl⟩, ⟨_, _, _, rfl, rfl⟩,
    ⟨_, _, _, rfl, rfl, by decide⟩⟩
theorem witness_AuthRefusesIllegalArguments :
    2 ≤ (2 : Byte).toNat ∧ (([1, 2, 3, 4, 5] : List Byte).length ≠ 4 ∧
      ([1, 2, 3, 4, 5] : List Byte).length ≠ 7 ∧ ([1, 2, 3, 4, 5] : List Byte).length ≠ 10) := by decide
theorem witness_ClientReadsPayload :
    clientReadOf clientCfg (.rdblk 4) = (0x07, [0x30, 4], 16) ∧
    clientReadOf clientCfg (.rdpage 4) = (0x07, [0x30, 4], 4) ∧
    (clientTape (exchangeMoves 2 51 [1, 2, 3, 4, 5] 4 ++ [.quiet, .quiet])).Meets
      (exchangeMoves 2 51 [1, 2, 3, 4, 5] 4 ++ [.quiet, .quiet]) [] ∧
    (clientTape (exchangeMoves 2 0 [] 4 ++ [.quiet])).Meets (exchangeMoves 2 0 [] 4 ++ [.quiet]) [] ∧
    51 ≤ (50 : Half).toNat / (1 : Half).toNat + 1 := by decide
theorem witness_ClientWritesPayload :
    clientCfg.client.wrBlkAck = none ∧ clientCfg.client.wrPageAck = some [0x0A] ∧
    (∃ a u, runClient (Instr.wrblk 4 []).operands clientCfg.client.wrBlk.steps []
      (clientTape [.quiet, .quiet, .quiet, .quiet]) = .ok a u) ∧
    (∃ u, runClient (Instr.wrpage 4 [1, 2, 3, 4]).operands clientCfg.client.wrPage.steps []
      (clientTape (wrPageMoves [0x0A])) = .ok [0x0A] u) ∧
    (∃ u, runClient (Instr.wrpage 4 [1, 2, 3, 4]).operands clientCfg.client.wrPage.steps []
      (clientTape (wrPageMoves [0x05])) = .ok [0x05] u) ∧
    (∃ u, runClient (Instr.wrblk 4 []).operands clientCfg.client.wrBlk.steps []
      (clientTape [.quiet, { fails := true }]) = .err .commErr u) :=
  ⟨by decide, by decide, ⟨_, _, rfl⟩, ⟨_, rfl⟩, ⟨_, rfl⟩, ⟨_, rfl⟩⟩

theorem witness_CutParameterEndsAttempt :
    ParameterCut (fullTape []).cfg
      (List.replicate 4 .quiet ++ [{ steps := [.receive (List.replicate 8 0)] }])
      ((List.replicate 8 0).take 8) false ∧
    ParameterCut Cfg.ref (List.replicate 5 .quiet ++ [{ moved := some 0 }]) [] true ∧
    (fullTape (List.replicate 4 .quiet ++ [{ steps := [.receive (List.replicate 8 0)] }])).Meets
      (List.replicate 4 .quiet ++ [{ steps := [.receive (List.replicate 8 0)] }]) [] ∧
    SelectRun (requestedTape (selectMoves Cfg.ref [⟨1, [0x88, 1, 2, 3, 4]⟩, ⟨0, [0x88, 4, 5, 6, 4]⟩]
        ++ (List.replicate 5 .quiet ++ [{ moved := some 0 }])))
      ([{ f1 := 1, f2 := 2, f3 := 3, sak := 4, quiet := 1 },
        { f1 := 4, f2 := 5, f3 := 6, sak := 4 }].map (Continuing.answer Cfg.ref))
      ((List.replicate 5 .quiet ++ [{ moved := some 0 }]) ++ []) :=
  ⟨.full (List.replicate 8 0) (by decide), .short, by decide,
    ⟨by decide, by decide, by decide, by decide, by decide, by decide, by decide, by decide,
      by decide⟩⟩

/-- One ending of each kind, at the ends of its range. -/
theorem witness_ExchangeErrorEndsOperation :
    ExchangeEnds Cfg.ref 0 1 1 (exchangeMoves 1 1 [] 7) .protoCollision (some 1) ∧
    ExchangeEnds Cfg.ref 0 1 2 (List.replicate (6 + 2 * (0 / 1 + 1) + 1) .quiet) .timeout
      (some (0 / 1 + 1)) ∧
    ExchangeEnds Cfg.ref 0 1 1 (List.replicate 5 .quiet ++ [{ fails := true, landed := 0 }]) .commErr
      none ∧
    ExchangeEnds Cfg.ref 0 1 1 (List.replicate (6 + 2 * 1) .quiet ++ [{ fails := true, landed := 0 }])
      .commErr (some 1) ∧
    ExchangeEnds Cfg.ref 0 1 0 (exchangeMoves 0 0 [] 4 ++ [{ fails := true, landed := 0 }]) .commErr
      (some 0) ∧
    ExchangeEnds Cfg.ref 0 1 1 (exchangeMoves 1 0 [1] 4 ++ [.quiet, { fails := true, landed := 0 }])
      .commErr (some 0) ∧
    ExchangeEnds (fullTape []).cfg 0 1 2
      (List.replicate 4 .quiet ++ { steps := [.receive (List.replicate 7 0)] } :: [.quiet])
      .protoShort none ∧
    ExchangeEnds Cfg.ref 0 1 2 (List.replicate 5 .quiet ++ [{ moved := some 1 }]) .protoShort none ∧
    (polled 0 1 (exchangeMoves 1 1 [] 7)).Meets (exchangeMoves 1 1 [] 7) [] ∧
    SelectRun (requestedTape (selectMoves Cfg.ref [⟨3, [0x88, 1, 2, 3, 4]⟩] ++ [{ fails := true }]))
      ([{ f1 := 1, f2 := 2, f3 := 3, sak := 4, quiet := 3 }].map (Continuing.answer Cfg.ref))
      ([{ fails := true }] ++ []) ∧
    ((clientReadOf clientCfg (.rdblk 4)).2.1.length = 2 ∧
      (clientReadOf clientCfg (.rdblk 4)).1 ≠ clientCfg.icCmdSoftReset ∧
      (clientTape (List.replicate 5 .quiet ++ [{ moved := some 1 }])).Meets
        (List.replicate 5 .quiet ++ [{ moved := some 1 }]) []) :=
  ⟨.errorBit 1 [] 7 _ (by decide) (by decide) (by decide) (by decide) (by decide),
    .expired (by decide), .failedBefore 5 0 (by decide), .failedPoll 1 0 (by decide) (by decide),
    .failedLength 0 0 [] (by decide) (by decide) (by decide),
    .failedDrain 0 0 [1] (by decide) (by decide) (by decide) (by decide),
    .cut (List.replicate 7 0) (by decide) (by decide), .short 1 (by decide) (by decide), by decide,
    ⟨by decide, by decide, by decide, by decide, by decide, by decide, by decide, by decide,
      by decide⟩, by decide⟩

/-- A plan with every call there is. -/
theorem witness_ClientPlanRunsInOrder :
    ∃ ms ops e a, ClientRun clientCfg 50 1 [7]
        [.clear, .fill [.operand 0], .command 0x02 [], .command 0x03 [.operand 0], .poll, .poll,
          .drain 1, .readReg 0x40, .writeReg 0x40 1, .drain 2] {} ms ops e a ∧
      (clientTape ms).Meets ms [] ∧ a = [7, 0, 7] :=
  ⟨_, _, _, _, .clear (.fill _ [7] (by decide) (by decide) (.command _ _ [] (by decide) (by decide)
    (by decide) (.command _ _ [7] (by decide) (by decide) (by decide) (.poll 51 (by decide) (by decide)
    (.pollDone (by decide) (.drain 1 (by decide) (.readReg _ (.writeReg _ _ (by decide)
    (.drain 2 (by decide) (.done _)))))))))), by decide, by decide⟩
/-- One ending of each kind, and a call that ends with a code behind one that does not. -/
theorem witness_ClientPlanEndsOnCode :
    ((∃ u, runClient [] [.clear] [] (clientTape [.quiet, { fails := true }]) = .ok [] u) ∧
      ∃ v, runClient [] [.poll] [] (clientTape [{ fails := true }]) = .err .commErr v) ∧
    ClientEnds clientCfg 0 1 [] .clear {} [{ fails := true, landed := 0 }] .commErr
      [.write 0x02 0x10] ∧
    (∃ ops, ClientEnds clientCfg 0 1 [5, 6] (.command 7 [.operandsFrom 0]) {}
      [.quiet, { fails := true, landed := 0 }] .commErr ops) ∧
    (∃ ops, ClientEnds clientCfg 0 1 [5, 6] (.fill [.operandsFrom 0]) {}
      [.quiet, { fails := true, landed := 1 }] .commErr ops) ∧
    (∃ ops, ClientEnds { clientCfg with fifoCap := 1 } 0 1 [5, 6] (.fill [.operandsFrom 0])
      { fifo := [9] } [.quiet] .protoShort ops) ∧
    (∃ ops, ClientEnds { clientCfg with fifoCap := 1 } 0 1 [5, 6] (.command 7 [.operandsFrom 0]) {}
      [.quiet, .quiet, { moved := none }] .protoShort ops) ∧
    (∃ ops, ClientEnds clientCfg 0 1 [5, 6] (.fill [.operandsFrom 0]) {}
      [.quiet, { moved := some 1 }] .protoShort ops) ∧
    (∃ ops, ClientEnds clientCfg 0 1 [] (.drain 2) { fifo := [9] }
      [.quiet, { fails := true, landed := 0 }] .commErr ops) ∧
    (∃ ops, ClientEnds clientCfg 0 1 [] .poll {}
      [.quiet, .quiet, { fails := true, landed := 0 }] .commErr ops) ∧
    (∃ ops, ClientEnds clientCfg 0 1 [] .poll {} [.quiet, .quiet, .quiet] .timeout ops) ∧
    (∃ ops, ClientEnds clientCfg 0 1 [] .poll { irq := 5 } [{ steps := [] }] .protoCollision ops) ∧
    (∃ ops, ClientEnds clientCfg 0 1 [] .poll {} [.quiet, .quiet, { steps := [.raise 2] }] .protoCrc
      ops) ∧
    ClientRun clientCfg 0 1 [] [] {} [] [] {} [] ∧
    (clientTape [{ fails := true }]).Meets ([] ++ [{ fails := true, landed := 0 }]) [] :=
  ⟨⟨⟨_, rfl⟩, _, rfl⟩, .failed .clear _ 0,
    ⟨_, .command 7 _ (by decide) (by decide) (.lengthFailed _ _ 0)⟩,
    ⟨_, .fill _ (.writeFailed _ _ 1 (by decide) (by decide))⟩,
    ⟨_, .fill _ (.full _ _ (by decide) (by decide))⟩,
    ⟨_, .command 7 _ (by decide) (by decide)
      (.short _ _ none (by decide) (by decide) (.inl (by decide)))⟩,
    ⟨_, .fill _ (.short _ _ (some 1) (by decide) (by decide) (.inr ⟨1, rfl, by decide⟩))⟩,
    ⟨_, .drainFailed 2 _ 0 (by decide) (by decide)⟩,
    ⟨_, .pollFailed 1 _ 0 (by decide) (.inr (by decide))⟩, ⟨_, .expired _ (by decide)⟩,
    ⟨_, .errorBit 0 _ [] _ (by decide) (.inl rfl) (by decide) (by decide)⟩,
    ⟨_, .errorBit 1 _ [.raise 2] _ (by decide) (.inr (by decide)) (by decide) (by decide)⟩,
    .done _, by decide⟩

end Sys2Proof.Tests
end

section
/-! PROOFS. How every operation can end, against any device: one inversion lemma for `exec`
(`exec_ends`), assembled from the `_post` lemmas of the procedures. The statements about all operations
follow from it. -/

namespace Sys2Proof.Proofs

open Sys2Proof.Machine Sys2Proof.Laws

/-! ### The ends of operations -/

/-- An operation answered from a state that meets `Q`, or RESET struck somewhere after `s` (R220). -/
def Ends (Q : State → Prop) (s t : State) : Prop :=
  (∃ x u, Q u ∧ t = u.respond x) ∨ CutReached s t

/-- Micro-steps led from `s` to `u` and PE is as it was. -/
def Undisturbed (s u : State) : Prop := Reached s u ∧ u.pe = s.pe

/-- The end of RDCTL and WRCTL (R129, R130): an answer, the poll registers perhaps written, the interval
never with 0. -/
def ControlEnd (s t : State) : Prop :=
  ∃ p x, p = { s.pe with pollBudget := p.pollBudget, pollInterval := p.pollInterval } ∧
    (s.pe.pollInterval ≠ 0 → p.pollInterval ≠ 0) ∧ t = { s with pe := p }.answer x

/-- The end of SRESET (R123): the attempt is dropped before the answer, whatever it is. -/
def SresetEnd (s t : State) : Prop :=
  (∃ x u, Undisturbed s u ∧ t = u.dropAttempt.respond x) ∨ CutReached s t

/-- The end of REQA and WUPA (R142 to R145, R150), from the attempt they open. -/
def AttemptEnd (s t : State) : Prop :=
  (∃ r u v, Reached s.openAttempt u ∧ RequestEnd u r v ∧ t = v.respond r) ∨
  (∃ c u, XchgCode c ∧ Reached s.openAttempt u ∧ t = u.fail c) ∨ CutReached s.openAttempt t

/-- PE holds no UID byte, as before the first level of a SELECT (R33 (ii), (v)). -/
def NoUid (p : Regs) : Prop := p.uidLen = 0 ∧ ∀ i : Fin 10, p.uid[i] = 0

/-- The end of SELECT (R146 to R150): refused, or the cascade loop completed, failed or cut. -/
def SelectEnd (s t : State) : Prop :=
  if s.pe.seq = .request then
    ∃ n u, Levels n s u ∧
      (((NoUid s.pe → Chosen u) ∧ t = u.respond (selectResponse u)) ∨
        (∃ c, c ≠ .ok ∧ t = u.fail c) ∨ t = u.resetPe)
  else t = s.raiseCode .badSeq

/-- How each operation ends, against any device. -/
def EndsAs (i : Instr) (s t : State) : Prop :=
  match i with
  | .wrcmd _ _ | .fifolen | .fiford _ | .fifowr _ | .fifoclr | .getstat => Ends (Undisturbed s) s t
  | .sreset => SresetEnd s t
  | .reqa | .wupa => AttemptEnd s t
  | .select => SelectEnd s t
  | .rdctl _ | .wrctl _ _ => ControlEnd s t
  | _ => Ends (Reached s) s t

theorem Ends.mono {Q Q' : State → Prop} {s t : State} (h : Ends Q s t) (hq : ∀ u, Q u → Q' u) :
    Ends Q' s t :=
  h.imp_left fun ⟨x, u, hu, ht⟩ => ⟨x, u, hq u hu, ht⟩

theorem ends_raiseCode (c : Result) (s : State) : Ends (Reached s) s (s.raiseCode c) :=
  .inl ⟨_, s, .refl s, rfl⟩

theorem finish_ends {Q : State → Prop} {s : State} {r : Reply Response}
    (h : Post r (fun _ u => Q u) (fun _ u => Q u) (CutReached s)) : Ends Q s r.finish := by
  cases r with
  | ok x u => exact .inl ⟨x, u, h, rfl⟩
  | err c u => exact .inl ⟨_, u, h, rfl⟩
  | cut u => exact .inr h

/-- A client operation's reply: whatever its value and its code, PE kept all but ELAPSED. -/
theorem reached_finish {s : State} {r : Reply Response} {P : Response → Prop} {E : Result → Prop}
    (h : Post r (fun a u => P a ∧ Reached s u) (fun c u => E c ∧ Reached s u) (CutReached s)) :
    Ends (Reached s) s r.finish :=
  finish_ends (h.mono (fun _ _ h => h.2) (fun _ _ h => h.2) fun _ h => h)

/-- A raw operation: a procedure that leaves PE alone, and a response made of its value. -/
theorem undisturbed_finish {α : Type} {n : Nat} {s : State} {r : Reply α} {P : α → State → Prop}
    {E : Result → State → Prop} (f : α → Response) (h : Post r P E (CutWithin n s))
    (hP : ∀ a u, P a u → Within n s u ∧ u.pe = s.pe)
    (hE : ∀ c u, E c u → Within n s u ∧ u.pe = s.pe) :
    Ends (Undisturbed s) s (r.bind fun a u => .ok (f a) u).finish :=
  finish_ends (h.bind (fun c u h => (hE c u h).imp_left Within.reached) (fun _ h => h.reached)
    fun a u h => (hP a u h).imp_left Within.reached)

/-! ### Operations that may stop or be refused -/

theorem polling_next {s t u : State} (h : polling s t = .next u) : t = u := by
  unfold polling at h
  split at h
  · cases h
  · exact Host.Outcome.next.inj h

theorem pollingPlan_next {plan : List ClientStep} {s t u : State}
    (h : pollingPlan plan s t = .next u) : t = u := by
  unfold pollingPlan at h
  split at h
  · exact polling_next h
  · exact Host.Outcome.next.inj h

/-- A client operation (R170): BAD_OP, or what it does with the extension on. -/
theorem ifClient_ends {s t : State} {f : Host.Outcome State Fault Refusal}
    (h : ifClient s f = .next t) (hf : f = .next t → Ends (Reached s) s t) :
    Ends (Reached s) s t := by
  unfold ifClient at h
  split at h
  · exact hf h
  · exact Host.Outcome.next.inj h ▸ ends_raiseCode _ _

/-! ### The end of each operation -/

theorem execSreset_ends (s : State) {t : State} (h : execSreset s = .next t) : SresetEnd s t := by
  have hw := writeCommand_post s.cfg.icCmdSoftReset [] s
  obtain rfl := Host.Outcome.next.inj h
  cases hr : writeCommand s.cfg.icCmdSoftReset [] s with
  | ok k u =>
    rw [hr] at hw
    obtain ⟨_, hu, hpe⟩ := hw
    exact .inl ⟨_, u, ⟨hu.reached, hpe⟩, rfl⟩
  | err c u =>
    rw [hr] at hw
    obtain ⟨_, hu, hpe⟩ := hw
    exact .inl ⟨_, u, ⟨hu.reached, hpe⟩, rfl⟩
  | cut u => rw [hr] at hw; exact .inr (CutWithin.reached hw)

theorem request_ends (cmd : Byte) (s : State) : AttemptEnd s (request cmd s).finishAttempt := by
  have hp := request_post cmd s
  cases hr : request cmd s with
  | ok r v =>
    rw [hr] at hp
    obtain ⟨u, hu, hv⟩ := hp
    exact .inl ⟨r, u, v, hu.reached, hv, rfl⟩
  | err c u => rw [hr] at hp; exact .inr (.inl ⟨c, u, hp.1, hp.2.reached, rfl⟩)
  | cut u => rw [hr] at hp; exact .inr (.inr (CutWithin.reached hp))

/-- Writing the UID registers, SEQ or LEVEL is within what the cascade loop may do. -/
theorem levels_pe (s : State) (p : Regs)
    (h : p = { s.pe with
      uid := p.uid, uidLen := p.uidLen, sak := p.sak, seq := p.seq, level := p.level
      elapsed := p.elapsed }) : Levels 0 s { s with pe := p } :=
  ⟨rfl, rfl, rfl, h, ⟨[], by simp, by simp [primitives]⟩, id⟩

theorem exchangeBound_of_levels {n : Nat} {s t : State} (h : Levels n s t) :
    exchangeBound t.pe = exchangeBound s.pe := by rw [h.pe]; rfl

theorem xchgCode_ne_ok {c : Result} (h : XchgCode c) : c ≠ .ok := by
  rcases h with (rfl | rfl | rfl | rfl) | rfl <;> decide

theorem xchgCode_ne_noTag {c : Result} (h : XchgCode c) : c ≠ .noTag := by
  rcases h with (rfl | rfl | rfl | rfl) | rfl <;> decide

/-- The cascade loop from any state (R147): what it keeps of PE, its codes and its primitives do not
depend on the UID registers it starts from; `selectLevels_post` says what it makes of them. -/
theorem selectLevels_keeps : ∀ (levels : List Nat) (s : State),
    Post (selectLevels levels s)
      (fun r t => r = selectResponse t ∧ Levels (levels.length * exchangeBound s.pe) s t)
      (fun c t => c ≠ .ok ∧ Levels (levels.length * exchangeBound s.pe) s t)
      (fun t => ∃ u, Levels (levels.length * exchangeBound s.pe) s u ∧ t = u.resetPe)
  | [], s => ⟨by decide, (Within.refl _ s).levels⟩
  | level :: more, s => by
    have hlen : (level :: more).length * exchangeBound s.pe
        = 0 + exchangeBound s.pe + more.length * exchangeBound s.pe := by
      rw [List.length_cons, Nat.succ_mul]; omega
    rw [hlen]
    have h0 := levels_pe s { s.pe with level := BitVec.ofNat 2 level } rfl
    refine (xchg_post _ _ _ _ _).bind
      (fun c _ h => ⟨xchgCode_ne_ok h.1, (h0.trans h.2.levels).mono (Nat.le_add_right _ _)⟩)
      (fun _ ⟨u, hu, ht⟩ => ⟨u, (h0.trans hu.levels).mono (Nat.le_add_right _ _), ht⟩)
      fun d t h => ?_
    have hst : Levels (0 + exchangeBound s.pe) s t := h0.trans h.2.levels
    dsimp only
    split
    · exact ⟨by decide, hst.mono (Nat.le_add_right _ _)⟩
    · exact ⟨by decide, hst.mono (Nat.le_add_right _ _)⟩
    · rename_i f1 f2 f3 _
      have hkeep := hst.trans (u := t.keepFragment f1 f2 f3) (levels_pe t _ rfl)
      have ih := selectLevels_keeps more (t.keepFragment f1 f2 f3)
      rw [exchangeBound_of_levels hkeep] at ih
      exact ih.mono (fun _ _ h => ⟨h.1, hkeep.trans h.2⟩) (fun _ _ h => ⟨h.1, hkeep.trans h.2⟩)
        fun _ ⟨u, hu, ht⟩ => ⟨u, hkeep.trans hu, ht⟩
    · exact ⟨rfl, (hst.trans (levels_pe t _ rfl)).mono (Nat.le_add_right _ _)⟩

/-- A completed cascade loop that began without a UID is `Chosen`. -/
theorem selectLevels_chosen {s t : State} {r : Response} (hs : NoUid s.pe)
    (h : selectLevels [1, 2, 3] s = .ok r t) : Chosen t := by
  have hp := selectLevels_post 0 [1, 2, 3] s rfl (by decide) (by simp [hs.1]) fun i _ => hs.2 i
  rw [h] at hp
  exact hp.2.2

theorem execSelect_ends (s : State) {t : State} (h : execSelect s = .next t) : SelectEnd s t := by
  unfold execSelect at h
  unfold SelectEnd
  split at h
  next hseq =>
    rw [if_pos hseq]
    obtain rfl := polling_next h
    have h0 := levels_pe s { s.pe with seq := .select } rfl
    have hp := selectLevels_keeps [1, 2, 3] { s with pe := { s.pe with seq := .select } }
    cases hr : selectLevels [1, 2, 3] { s with pe := { s.pe with seq := .select } } with
    | ok r u =>
      rw [hr] at hp
      obtain ⟨rfl, hu⟩ := hp
      have hch : NoUid s.pe → Chosen u := fun hs =>
        selectLevels_chosen (s := { s with pe := { s.pe with seq := .select } }) hs hr
      exact ⟨_, u, h0.trans hu, .inl ⟨hch, rfl⟩⟩
    | err c u => rw [hr] at hp; exact ⟨_, u, h0.trans hp.2, .inr (.inl ⟨c, hp.1, rfl⟩)⟩
    | cut v =>
      rw [hr] at hp
      obtain ⟨u, hu, rfl⟩ := hp
      exact ⟨_, u, h0.trans hu, .inr (.inr rfl)⟩
  next hseq =>
    rw [if_neg hseq]
    exact (Host.Outcome.next.inj h).symm

theorem execRdctl_ends (idx : Byte) (s : State) {t : State} (h : execRdctl idx s = .next t) :
    ControlEnd s t := by
  obtain rfl := Host.Outcome.next.inj h
  split
  · exact ⟨s.pe, _, rfl, id, rfl⟩
  · exact ⟨s.pe, _, rfl, id, rfl⟩

theorem execWrctl_ends (idx : Byte) (value : Half) (s : State) {t : State}
    (h : execWrctl idx value s = .next t) : ControlEnd s t := by
  obtain rfl := Host.Outcome.next.inj h
  split
  · exact ⟨{ s.pe with pollBudget := value }, _, rfl, id, rfl⟩
  split
  next hv => exact ⟨{ s.pe with pollInterval := value }, _, rfl, fun _ => hv.2, rfl⟩
  next => exact ⟨s.pe, _, rfl, id, rfl⟩

theorem execConfigure_ends (profile : Byte) (s : State) {t : State}
    (h : execConfigure profile s = .next t) : Ends (Reached s) s t := by
  refine ifClient_ends h fun h => ?_
  obtain rfl := Host.Outcome.next.inj h
  split
  · exact ends_raiseCode _ s
  next pairs _ =>
    refine reached_finish (P := fun _ => True) (E := fun _ => True)
      ((writePairs_post pairs s).bind (fun _ _ h => ⟨trivial, h.2⟩) (fun _ h => h) fun _ u hu => ?_)
    refine (((checkPairs_post pairs u).reached hu.2).bind (fun _ _ h => ⟨trivial, h.2⟩)
      (fun _ h => h) fun _ v hv => ?_)
    exact ((freeCount_post .ok v).reached hv.2).mono (fun _ _ h => ⟨trivial, h.2⟩)
      (fun _ _ h => ⟨trivial, h.2⟩) fun _ h => h

theorem execLoadkey_ends (key : List Byte) (s : State) {t : State}
    (h : execLoadkey key s = .next t) : Ends (Reached s) s t :=
  ifClient_ends h fun h => pollingPlan_next h ▸
    reached_finish (loadKeyEnd_post _ key (runClient_post _ _ [] s))

/-- The verdict of AUTH (R174): OK or AUTH_REJECTED without data, or a failed read. -/
theorem authVerdict_post (s : State) :
    Post (authVerdict s)
      (fun x t => ((x.code = .ok ∨ x.code = .authRejected) ∧ x.data = []) ∧ Reached s t)
      (fun c t => c = .commErr ∧ Reached s t) (CutReached s) := by
  refine (tRead_post _ s).bind (fun _ _ h => ⟨h.1, h.2.1.reached⟩) (fun _ h => h.reached)
    fun v t h => ?_
  split
  · exact ((freeCount_post .ok t).reached h.1.reached).mono
      (fun _ _ h => ⟨⟨.inl h.1.1, h.1.2⟩, h.2⟩) (fun _ _ h => h.1.elim) fun _ h => h
  · exact ((freeCount_post .authRejected t).reached h.1.reached).mono
      (fun _ _ h => ⟨⟨.inr h.1.1, h.1.2⟩, h.2⟩) (fun _ _ h => h.1.elim) fun _ h => h

theorem execAuth_ends (keyType blockNum : Byte) (uid : List Byte) (s : State) {t : State}
    (h : execAuth keyType blockNum uid s = .next t) : Ends (Reached s) s t := by
  refine ifClient_ends h fun h => ?_
  split at h
  · obtain rfl := polling_next h
    refine reached_finish (authEnd_post (E := XchgCode)
      ((runClient_post _ _ [] s).bind (fun _ _ h => h) (fun _ h => h) fun _ u hu => ?_))
    refine (poll_post u).bind (fun _ _ h => ⟨.inl h.1, hu.2.trans h.2.reached⟩)
      (fun _ h => h.reached.after hu.2) fun _ v hv => ?_
    exact ((authVerdict_post v).reached (hu.2.trans hv.reached)).mono (fun _ _ h => h)
      (fun _ _ h => ⟨.inl (.inl h.1), h.2⟩) fun _ h => h
  · exact Host.Outcome.next.inj h ▸ ends_raiseCode _ s

/-- Every operation ends as `EndsAs` says, unless it stops with a fault. -/
theorem exec_ends {i : Instr} {s t : State} (h : exec i s = .next t) : EndsAs i s t := by
  cases i with
  | wrcmd icop params =>
    exact Host.Outcome.next.inj h ▸
      undisturbed_finish _ (writeCommand_post icop params s) (fun _ _ h => h.2) fun _ _ h => h.2
  | fifolen =>
    exact Host.Outcome.next.inj h ▸
      undisturbed_finish _ (fifoLength_post s) (fun _ _ h => h.2) fun _ _ h => h.2
  | fiford maxLen =>
    exact Host.Outcome.next.inj h ▸
      undisturbed_finish _ (readFifo_post _ s) (fun _ _ h => h.2) fun _ _ h => h.2
  | fifowr data =>
    exact Host.Outcome.next.inj h ▸
      undisturbed_finish _ (writeFifo_post data s) (fun _ _ h => h.2) fun _ _ h => h.2
  | fifoclr =>
    exact Host.Outcome.next.inj h ▸
      undisturbed_finish _ (clearFifo_post s) (fun _ _ h => h) fun _ _ h => h.2
  | getstat =>
    exact Host.Outcome.next.inj h ▸
      undisturbed_finish _ (tRead_post _ s) (fun _ _ h => h) fun _ _ h => h.2
  | sreset => exact execSreset_ends s h
  | reqa => exact polling_next h ▸ request_ends _ s
  | wupa => exact polling_next h ▸ request_ends _ s
  | select => exact execSelect_ends s h
  | rdctl idx => exact execRdctl_ends idx s h
  | wrctl idx value => exact execWrctl_ends idx value s h
  | configure profile => exact execConfigure_ends profile s h
  | loadkey key => exact execLoadkey_ends key s h
  | auth keyType blockNum uid => exact execAuth_ends keyType blockNum uid s h
  | rdblk blockNum =>
    exact ifClient_ends h fun h => polling_next h ▸ reached_finish (clientRead_post _ _ _ s)
  | wrblk blockNum data =>
    exact ifClient_ends h fun h => pollingPlan_next h ▸ reached_finish (clientWrite_post _ _ _ _ s)
  | rdpage page =>
    exact ifClient_ends h fun h => polling_next h ▸ reached_finish (clientRead_post _ _ _ s)
  | wrpage page data =>
    exact ifClient_ends h fun h => pollingPlan_next h ▸ reached_finish (clientWrite_post _ _ _ _ s)

end Sys2Proof.Proofs
end

section
/-! PROOFS. What an operation that answers leaves of PE (spec 10_state.md R20), and how it moves SEQ
(R26). -/

namespace Sys2Proof.Proofs

open Sys2Proof.Machine Sys2Proof.Laws

/-! ### What an operation that answers keeps -/

/-- RESET sends nothing (R220), so an operation that it cut has sent nothing. -/
theorem sent_of_cutReached {s t : State} : CutReached s t → t.sent = s.sent
  | ⟨_, ⟨_, hu⟩, ht⟩ => by rw [ht, resetPe_sent, hu.sent]

theorem ends_answered {Q : State → Prop} {s t : State} (h : Ends Q s t) (hs : t.sent ≠ s.sent) :
    ∃ x u, Q u ∧ t = u.respond x :=
  h.resolve_right fun hc => hs (sent_of_cutReached hc)

theorem sresetEnd_answered {s t : State} (h : SresetEnd s t) (hs : t.sent ≠ s.sent) :
    ∃ x u, Undisturbed s u ∧ t = u.dropAttempt.respond x :=
  h.resolve_right fun hc => hs (sent_of_cutReached hc)

theorem attemptEnd_answered {s t : State} (h : AttemptEnd s t) (hs : t.sent ≠ s.sent) :
    (∃ r u v, Reached s.openAttempt u ∧ RequestEnd u r v ∧ t = v.respond r) ∨
    (∃ c u, XchgCode c ∧ Reached s.openAttempt u ∧ t = u.fail c) :=
  h.imp_right fun h => h.resolve_right fun hc =>
    hs ((sent_of_cutReached hc).trans (openAttempt_sent s))

theorem selectEnd_refused {s t : State} (h : SelectEnd s t) (hq : s.pe.seq ≠ .request) :
    t = s.raiseCode .badSeq := by
  unfold SelectEnd at h
  rwa [if_neg hq] at h

theorem selectEnd_admitted {s t : State} (h : SelectEnd s t) (hq : s.pe.seq = .request) :
    ∃ n u, Levels n s u ∧
      (((NoUid s.pe → Chosen u) ∧ t = u.respond (selectResponse u)) ∨
        (∃ c, c ≠ .ok ∧ t = u.fail c) ∨ t = u.resetPe) := by
  unfold SelectEnd at h
  rwa [if_pos hq] at h

/-- What no operation of the block but WRCTL writes: the configuration, the host's stream and the poll
registers (R20, R92). -/
structure PollKept (s t : State) : Prop where
  cfg      : t.cfg = s.cfg
  host     : t.host = s.host
  budget   : t.pe.pollBudget = s.pe.pollBudget
  interval : t.pe.pollInterval = s.pe.pollInterval

theorem pollKept_of_levels {n : Nat} {s t : State} (h : Levels n s t) : PollKept s t :=
  ⟨h.cfg, h.host, by rw [h.pe], by rw [h.pe]⟩

theorem pollKept_of_reached {s t : State} : Reached s t → PollKept s t
  | ⟨_, h⟩ => pollKept_of_levels h.levels

theorem pollKept_respond {s t : State} (h : PollKept s t) (x : Response) :
    PollKept s (t.respond x) :=
  ⟨h.cfg, h.host, h.budget, h.interval⟩

theorem pollKept_fail {s t : State} (h : PollKept s t) (c : Result) : PollKept s (t.fail c) :=
  ⟨h.cfg, h.host, h.budget, h.interval⟩

theorem pollKept_of_openAttempt {s t : State} (h : PollKept s.openAttempt t) : PollKept s t :=
  ⟨h.cfg, h.host, h.budget, h.interval⟩

theorem pollKept_of_requestEnd {s u v : State} {r : Response} (h : PollKept s u)
    (hv : RequestEnd u r v) : PollKept s v := by
  rcases hv with ⟨_, _, _, _, rfl⟩ | ⟨_, rfl⟩
  · exact ⟨h.cfg, h.host, h.budget, h.interval⟩
  · exact ⟨h.cfg, h.host, h.budget, h.interval⟩

theorem attempt_pollKept {s t : State} (h : AttemptEnd s t) (hs : t.sent ≠ s.sent) :
    PollKept s t := by
  rcases attemptEnd_answered h hs with ⟨r, u, v, hu, hv, rfl⟩ | ⟨c, u, _, hu, rfl⟩
  · exact pollKept_respond
      (pollKept_of_requestEnd (pollKept_of_openAttempt (pollKept_of_reached hu)) hv) r
  · exact pollKept_fail (pollKept_of_openAttempt (pollKept_of_reached hu)) c

theorem select_pollKept {s t : State} (h : SelectEnd s t) (hs : t.sent ≠ s.sent) :
    PollKept s t := by
  by_cases hq : s.pe.seq = .request
  · obtain ⟨n, u, hu, ⟨_, rfl⟩ | ⟨c, _, rfl⟩ | rfl⟩ := selectEnd_admitted h hq
    · exact pollKept_respond (pollKept_of_levels hu) _
    · exact pollKept_fail (pollKept_of_levels hu) c
    · exact absurd hu.sent hs
  · rw [selectEnd_refused h hq]
    exact pollKept_respond ⟨rfl, rfl, rfl, rfl⟩ _

theorem sreset_pollKept {s t : State} (h : SresetEnd s t) (hs : t.sent ≠ s.sent) :
    PollKept s t := by
  obtain ⟨x, u, ⟨hu, _⟩, rfl⟩ := sresetEnd_answered h hs
  have hk := pollKept_of_reached hu
  exact ⟨hk.cfg, hk.host, hk.budget, hk.interval⟩

/-- Settles O41: each operation's end is one of `EndsAs`, and none of those writes more of PE. -/
theorem operationsFramePe : Obligations.OperationsFramePe := by
  intro i s t h hs
  have he := exec_ends h
  cases i with
  | wrcmd | fifolen | fiford | fifowr | fifoclr | getstat =>
    obtain ⟨x, u, ⟨hu, hpe⟩, rfl⟩ := ends_answered he hs
    have hk := pollKept_of_reached hu
    exact ⟨hk.cfg, hk.host, by rw [← hpe]; rfl⟩
  | reqa | wupa =>
    have hk := attempt_pollKept he hs
    exact ⟨hk.cfg, hk.host, hk.budget, hk.interval⟩
  | select =>
    have hk := select_pollKept he hs
    exact ⟨hk.cfg, hk.host, hk.budget, hk.interval⟩
  | sreset =>
    have hk := sreset_pollKept he hs
    exact ⟨hk.cfg, hk.host, hk.budget, hk.interval⟩
  | rdctl | wrctl =>
    obtain ⟨p, x, _, _, rfl⟩ := he
    exact ⟨rfl, rfl, trivial⟩
  | configure | loadkey | auth | rdblk | wrblk | rdpage | wrpage =>
    obtain ⟨x, u, hu, rfl⟩ := ends_answered he hs
    have hk := pollKept_of_reached hu
    exact ⟨hk.cfg, hk.host, trivial⟩

/-! ### How SEQ moves (R26) -/

theorem seq_of_reached {s t : State} : Reached s t → t.pe.seq = s.pe.seq
  | ⟨_, h⟩ => by rw [h.pe]

/-- A request at rest (R26, R144, R145): REQUEST with an ATQA, IDLE without a tag, FAILED on a code. -/
theorem attempt_moves_seq {s t : State} (h : AttemptEnd s t) (hs : t.sent ≠ s.sent) :
    (t.pe.result = .ok ∧ t.pe.seq = .request ∧ t.pe.atqa ≠ 0) ∨
    (t.pe.result = .noTag ∧ t.pe.seq = .idle) ∨
    (t.pe.result ≠ .ok ∧ t.pe.result ≠ .noTag ∧ t.pe.seq = .failed) := by
  rcases attemptEnd_answered h hs with ⟨r, u, v, hu, hv, rfl⟩ | ⟨c, u, hc, _, rfl⟩
  · rcases hv with ⟨d0, d1, h0, rfl, rfl⟩ | ⟨rfl, rfl⟩
    · exact .inl ⟨rfl, seq_of_reached hu, h0⟩
    · exact .inr (.inl ⟨rfl, rfl⟩)
  · exact .inr (.inr ⟨xchgCode_ne_ok hc, xchgCode_ne_noTag hc, rfl⟩)

/-- At rest in REQUEST no UID byte is held (R33 (ii), (v)). -/
theorem noUid_of_request {p : Regs} (hr : p.atRest) (hq : p.seq = .request) : NoUid p := by
  obtain ⟨_, hreq, _, _, hbeyond, _⟩ := hr
  obtain ⟨_, hlen, _, _⟩ := hreq hq
  exact ⟨hlen, fun i => hbeyond i (by simp [hlen])⟩

theorem select_moves_seq {s t : State} (hr : s.pe.atRest) (h : SelectEnd s t)
    (hs : t.sent ≠ s.sent) :
    if s.pe.seq = .request then
      (t.pe.result = .ok ∧ t.pe.seq = .selected) ∨ (t.pe.result ≠ .ok ∧ t.pe.seq = .failed)
    else t.pe.result = .badSeq ∧ t.pe.seq = s.pe.seq := by
  split
  next hq =>
    obtain ⟨n, u, hu, ⟨hch, rfl⟩ | ⟨c, hc, rfl⟩ | rfl⟩ := selectEnd_admitted h hq
    · exact .inl ⟨rfl, (hch (noUid_of_request hr hq)).seq⟩
    · exact .inr ⟨hc, rfl⟩
    · exact absurd hu.sent hs
  next hq =>
    rw [selectEnd_refused h hq]
    exact ⟨rfl, rfl⟩

/-- Settles O38: SEQ as each end of `EndsAs` leaves it. -/
theorem sequencerFollowsTable : Obligations.SequencerFollowsTable := by
  intro i s t hr h hs
  have he := exec_ends h
  cases i with
  | wrcmd | fifolen | fiford | fifowr | fifoclr | getstat =>
    obtain ⟨x, u, ⟨hu, _⟩, rfl⟩ := ends_answered he hs
    exact (respond_pe_seq u x).trans (seq_of_reached hu)
  | reqa | wupa => exact attempt_moves_seq he hs
  | select => exact select_moves_seq hr he hs
  | sreset =>
    obtain ⟨x, u, _, rfl⟩ := sresetEnd_answered he hs
    rfl
  | rdctl | wrctl =>
    obtain ⟨p, x, hp, _, rfl⟩ := he
    have hseq : p.seq = s.pe.seq := by rw [hp]
    exact (answer_pe_seq _ x).trans hseq
  | configure | loadkey | auth | rdblk | wrblk | rdpage | wrpage =>
    obtain ⟨x, u, hu, rfl⟩ := ends_answered he hs
    exact (respond_pe_seq u x).trans (seq_of_reached hu)

end Sys2Proof.Proofs
end

section
/-! PROOFS. The rest rules (spec 10_state.md R33): they hold right after RESET, and every end of an
operation is at rest again. -/

namespace Sys2Proof.Proofs

open Sys2Proof.Machine Sys2Proof.Laws

/-- What holds of every state, also within an operation: a legal configuration (R7), an interval of at
least 1 (R33 (vi)), a device of the form R40 gives it. -/
structure Sane (s : State) : Prop where
  legal    : s.cfg.legal = true
  interval : 1 ≤ s.pe.pollInterval.toNat
  dev      : s.dev.wf s.cfg

theorem sane_of_inv {s : State} (h : s.Inv) : Sane s := by
  obtain ⟨hl, _, ⟨_, _, _, _, _, hi⟩, hd⟩ := h
  exact ⟨hl, hi, hd⟩

theorem sane_of_levels {n : Nat} {s t : State} (hs : Sane s) (h : Levels n s t) : Sane t :=
  ⟨by rw [h.cfg]; exact hs.legal, by rw [h.pe]; exact hs.interval,
    by rw [h.cfg]; exact h.dev hs.dev⟩

theorem sane_of_reached {s t : State} (hs : Sane s) : Reached s t → Sane t
  | ⟨_, h⟩ => sane_of_levels hs h.levels

theorem sane_openAttempt {s : State} (h : Sane s) : Sane s.openAttempt :=
  ⟨h.legal, h.interval, h.dev⟩

theorem sane_accepted {s : State} (h : Sane s) : Sane s.accepted := ⟨h.legal, h.interval, h.dev⟩

/-- Rest rules (iv) and (v): SEQ is IDLE or FAILED and the Tag registers are clear. -/
theorem atRest_of_clear {p : Regs} (hq : p.seq = .idle ∨ p.seq = .failed) (ha : p.atqa = 0)
    (hu : p.uid = Vector.replicate 10 0) (hl : p.uidLen = 0) (hk : p.sak = 0)
    (hi : 1 ≤ p.pollInterval.toNat) : p.atRest := by
  have hz : ∀ i : Fin 10, p.uid[i] = 0 := by simp [hu]
  refine ⟨?_, ?_, ?_, fun _ => ⟨ha, hl, hk, hz⟩, fun i _ => hz i, hi⟩
  · exact hq.imp_right fun h => .inr (.inr h)
  · rcases hq with h | h <;> simp [h]
  · rcases hq with h | h <;> simp [h]

/-- Rest rules (ii) and (v): SEQ is REQUEST, an ATQA is held and nothing else of a tag. -/
theorem atRest_of_request {p : Regs} (hq : p.seq = .request) (ha : p.atqa ≠ 0)
    (hu : p.uid = Vector.replicate 10 0) (hl : p.uidLen = 0) (hk : p.sak = 0) (hv : p.level = 0)
    (hi : 1 ≤ p.pollInterval.toNat) : p.atRest :=
  ⟨.inr (.inl hq), fun _ => ⟨ha, hl, hk, hv⟩, by simp [hq], by simp [hq], by simp [hu], hi⟩

/-- Rest rules (iii) and (v): a completed SELECT that began with an ATQA. -/
theorem atRest_of_chosen {t : State} (h : Chosen t) (ha : t.pe.atqa ≠ 0)
    (hi : 1 ≤ t.pe.pollInterval.toNat) : t.pe.atRest := by
  have hlen : t.pe.uidLen = 4 ∨ t.pe.uidLen = 7 ∨ t.pe.uidLen = 10 := by
    have hn := h.len
    rcases h.level with hv | hv | hv <;> rw [hv] at hn
    · exact .inl (BitVec.eq_of_toNat_eq hn)
    · exact .inr (.inl (BitVec.eq_of_toNat_eq hn))
    · exact .inr (.inr (BitVec.eq_of_toNat_eq hn))
  exact ⟨.inr (.inr (.inl h.seq)), by simp [h.seq], fun _ => ⟨ha, hlen, h.level, h.len⟩,
    by simp [h.seq], h.beyond, hi⟩

theorem inv_respond {s : State} (h : Sane s) (hr : s.pe.atRest) (x : Response) : (s.respond x).Inv :=
  ⟨h.legal, rfl, hr, h.dev⟩

theorem inv_fail {s : State} (h : Sane s) (c : Result) : (s.fail c).Inv :=
  ⟨h.legal, rfl, atRest_of_clear (.inr rfl) rfl rfl rfl rfl h.interval, h.dev⟩

theorem afterReset_atRest {c : Cfg} (h : c.legal = true) : (Regs.afterReset c).atRest :=
  atRest_of_clear (.inl rfl) rfl rfl rfl rfl (Legal.of h).interval

theorem inv_resetPe {s : State} (hl : s.cfg.legal = true) (hd : s.dev.wf s.cfg) : s.resetPe.Inv :=
  ⟨hl, rfl, afterReset_atRest hl, hd⟩

theorem atRest_of_reached {s t : State} (hr : s.pe.atRest) : Reached s t → t.pe.atRest
  | ⟨_, h⟩ => by rw [h.pe]; exact hr

theorem cutReached_inv {s t : State} (hs : Sane s) : CutReached s t → t.Inv
  | ⟨_, hu, ht⟩ =>
    have h := sane_of_reached hs hu
    ht ▸ inv_resetPe h.legal h.dev

theorem ends_inv {s t : State} (hs : Sane s) (hr : s.pe.atRest) (h : Ends (Reached s) s t) :
    t.Inv := by
  rcases h with ⟨x, u, hu, rfl⟩ | hc
  · exact inv_respond (sane_of_reached hs hu) (atRest_of_reached hr hu) x
  · exact cutReached_inv hs hc

theorem control_inv {s t : State} (hs : Sane s) (hr : s.pe.atRest) (h : ControlEnd s t) :
    t.Inv := by
  obtain ⟨p, x, hp, hi, rfl⟩ := h
  obtain ⟨hseq, hreq, hsel, hclear, hbeyond, hpos⟩ := hr
  have hne : p.pollInterval ≠ 0 := hi fun h0 => by simp [h0] at hpos
  have hp1 : 1 ≤ p.pollInterval.toNat := by
    rw [Nat.one_le_iff_ne_zero]
    exact fun h0 => hne (BitVec.eq_of_toNat_eq h0)
  refine ⟨hs.legal, rfl, ?_, hs.dev⟩
  show p.atRest
  rw [hp]
  exact ⟨hseq, hreq, hsel, hclear, hbeyond, hp1⟩

theorem sreset_inv {s t : State} (hs : Sane s) (h : SresetEnd s t) : t.Inv := by
  rcases h with ⟨x, u, ⟨hu, _⟩, rfl⟩ | hc
  · have h := sane_of_reached hs hu
    exact ⟨h.legal, rfl, atRest_of_clear (.inl rfl) rfl rfl rfl rfl h.interval, h.dev⟩
  · exact cutReached_inv hs hc

/-- A completed request rests in REQUEST with its ATQA or in IDLE without a tag (R144, R145). -/
theorem requestEnd_inv {s u v : State} {r : Response} (hs : Sane s) (hu : Reached s.openAttempt u)
    (hv : RequestEnd u r v) : (v.respond r).Inv := by
  have h := sane_of_reached (sane_openAttempt hs) hu
  obtain ⟨n, hw⟩ := hu
  have hpe := hw.pe
  have huid : u.pe.uid = Vector.replicate 10 0 := by rw [hpe]; rfl
  have hlen : u.pe.uidLen = 0 := by rw [hpe]; rfl
  have hsak : u.pe.sak = 0 := by rw [hpe]; rfl
  rcases hv with ⟨d0, d1, h0, rfl, rfl⟩ | ⟨rfl, rfl⟩
  · exact ⟨h.legal, rfl, atRest_of_request (by rw [respond_pe_seq, hpe]; rfl) h0 huid hlen hsak
      (by rw [respond_pe_level, hpe]; rfl) h.interval, h.dev⟩
  · exact ⟨h.legal, rfl, atRest_of_clear (.inl rfl) rfl huid hlen hsak h.interval, h.dev⟩

theorem attempt_inv {s t : State} (hs : Sane s) (h : AttemptEnd s t) : t.Inv := by
  rcases h with ⟨r, u, v, hu, hv, rfl⟩ | ⟨c, u, _, hu, rfl⟩ | hc
  · exact requestEnd_inv hs hu hv
  · exact inv_fail (sane_of_reached (sane_openAttempt hs) hu) c
  · exact cutReached_inv (sane_openAttempt hs) hc

theorem select_inv {s t : State} (hs : Sane s) (hr : s.pe.atRest) (h : SelectEnd s t) : t.Inv := by
  by_cases hq : s.pe.seq = .request
  · obtain ⟨n, u, hu, ⟨hch, rfl⟩ | ⟨c, _, rfl⟩ | rfl⟩ := selectEnd_admitted h hq
    · have hsu := sane_of_levels hs hu
      have ⟨_, hreq, _⟩ := hr
      have hatqa : u.pe.atqa ≠ 0 := by rw [hu.pe]; exact (hreq hq).1
      exact inv_respond hsu
        (atRest_of_chosen (hch (noUid_of_request hr hq)) hatqa hsu.interval) _
    · exact inv_fail (sane_of_levels hs hu) c
    · have hsu := sane_of_levels hs hu
      exact inv_resetPe hsu.legal hsu.dev
  · rw [selectEnd_refused h hq]
    exact inv_respond hs hr _

/-- Every operation that begins at rest ends at rest, also where RESET cut it. -/
theorem exec_inv {i : Instr} {s t : State} (hs : Sane s) (hr : s.pe.atRest)
    (h : exec i s = .next t) : t.Inv := by
  have he := exec_ends h
  cases i with
  | wrcmd | fifolen | fiford | fifowr | fifoclr | getstat =>
    exact ends_inv hs hr (Ends.mono he fun _ h => h.1)
  | reqa | wupa => exact attempt_inv hs he
  | select => exact select_inv hs hr he
  | sreset => exact sreset_inv hs he
  | rdctl | wrctl => exact control_inv hs hr he
  | configure | loadkey | auth | rdblk | wrblk | rdpage | wrpage => exact ends_inv hs hr he

/-- An accepted host word, whatever it encodes (R80, R85, R86). -/
theorem present_inv {w : List Byte} {s t : State} (hs : s.Inv) (h : present w s = .next t) :
    t.Inv := by
  have ⟨_, _, hr, _⟩ := hs
  have ha := sane_accepted (sane_of_inv hs)
  unfold present at h
  split at h
  · exact exec_inv ha hr h
  · cases h; exact hs
  · cases h; exact inv_respond ha hr _
  · split at h
    · cases h; exact inv_respond ha hr _
    · cases h; exact inv_respond ha hr _

theorem hostEvent_inv {e : HostEvent} {s t : State} (hs : s.Inv) (h : s.hostEvent e = .next t) :
    t.Inv := by
  cases e with
  | word w =>
    have ⟨_, hbusy, _, _⟩ := hs
    have h : present w s = .next t := by simpa [State.hostEvent, hbusy] using h
    exact present_inv hs h
  | reset =>
    cases h
    exact inv_resetPe (sane_of_inv hs).legal (sane_of_inv hs).dev
  | wait n => cases h; exact hs

/-- Settles O46. -/
theorem resetMeetsRestRules : Obligations.ResetMeetsRestRules := by
  have hreset : ∀ c : Cfg, c.legal = true → (State.resetWith c).Inv := fun c hc =>
    ⟨hc, rfl, afterReset_atRest hc, Nat.zero_le _, rfl⟩
  exact ⟨hreset, hreset Cfg.ref (by decide)⟩

/-- Settles O45, over the event at the host port and the operation of its word. -/
theorem stepKeepsRestRules : Obligations.StepKeepsRestRules := by
  intro s t hs h
  unfold step at h
  split at h
  · cases h; exact hs
  next e rest _ => exact hostEvent_inv (s := { s with host := rest }) hs h

end Sys2Proof.Proofs
end

section
/-! PROOFS. What POLL does to ELAPSED (spec 10_state.md R32): it counts the waits exactly, because the
loop waits only within the budget. -/

namespace Sys2Proof.Proofs

open Sys2Proof.Machine Sys2Proof.Laws

/-- The traffic from `s` to `t`: ELAPSED grew by `i` for every wait in it, as natural numbers. -/
def Ticked (i : Half) (s t : State) : Prop :=
  ∃ l, t.bus = s.bus ++ l ∧ t.pe.elapsed.toNat = s.pe.elapsed.toNat + waits l * i.toNat

theorem waits_append (l k : List BusStep) : waits (l ++ k) = waits l + waits k := by
  simp [waits, List.filter_append]

theorem Ticked.refl (i : Half) (s : State) : Ticked i s s := ⟨[], by simp, by simp [waits]⟩

theorem Ticked.trans {i : Half} {s t u : State} : Ticked i s t → Ticked i t u → Ticked i s u
  | ⟨l, hl, he⟩, ⟨k, hk, hf⟩ =>
    ⟨l ++ k, by rw [hk, hl, List.append_assoc], by rw [hf, he, waits_append, Nat.add_mul]; omega⟩

@[simp] theorem conclude_bus {α : Type} (m : EnvMove) (r : Reply α) :
    (conclude m r).state.bus = r.state.bus := by
  unfold conclude
  split <;> rfl

/-- `TRead` is one micro-step, whatever comes of it (R12, R51). -/
theorem tRead_bus (a : Byte) (s : State) :
    ∃ ans, (tRead a s).state.bus = s.bus ++ [⟨.read a, ans⟩] := by
  unfold tRead
  dsimp only
  split
  · exact ⟨_, (conclude_bus _ _).trans (congrArg (· ++ _) (arrive_bus _ s))⟩
  · exact ⟨_, (conclude_bus _ _).trans (congrArg (· ++ _) (arrive_bus _ s))⟩

/-- `Wait` is one micro-step (R12, R63). -/
theorem waitTicks_bus (n : Nat) (s : State) :
    ∃ ans, (waitTicks n s).state.bus = s.bus ++ [⟨.wait n, ans⟩] :=
  ⟨.done, (conclude_bus _ _).trans (congrArg (· ++ _) (arrive_bus _ s))⟩

/-- A read of POLL takes no ticks (R63) and leaves ELAPSED alone. -/
theorem tRead_ticked (i : Half) (a : Byte) (s : State) :
    Post (tRead a s) (fun _ t => Ticked i s t ∧ t.pe = s.pe) (fun _ t => Ticked i s t ∧ t.pe = s.pe)
      (fun _ => True) := by
  obtain ⟨ans, hb⟩ := tRead_bus a s
  have hp := tRead_post a s
  have ticked {t : State} (hb : t.bus = s.bus ++ [⟨.read a, ans⟩]) (hpe : t.pe = s.pe) :
      Ticked i s t := ⟨_, hb, by rw [hpe]; simp [waits]⟩
  cases hr : tRead a s with
  | ok v t => rw [hr] at hb hp; exact ⟨ticked hb hp.2, hp.2⟩
  | err c t => rw [hr] at hb hp; exact ⟨ticked hb hp.2.2, hp.2.2⟩
  | cut t => trivial

/-- One wait of POLL and the addition after it (R125): ELAPSED grows by the interval where the sum stays
within 17 bits. -/
theorem waitTicks_ticked {i : Half} {s : State} (h : s.pe.elapsed.toNat + i.toNat < 2 ^ 17) :
    Post (waitTicks i.toNat s)
      (fun _ t =>
        Ticked i s { t with pe := { t.pe with elapsed := t.pe.elapsed + i.setWidth 17 } } ∧
        (t.pe.elapsed + i.setWidth 17).toNat = s.pe.elapsed.toNat + i.toNat)
      (fun _ _ => False) (fun _ => True) := by
  obtain ⟨ans, hb⟩ := waitTicks_bus i.toNat s
  have hp := waitTicks_post i.toNat s
  cases hr : waitTicks i.toNat s with
  | ok _ t =>
    rw [hr] at hb hp
    have hsum : (t.pe.elapsed + i.setWidth 17).toNat = s.pe.elapsed.toNat + i.toNat := by
      have hi := i.isLt
      rw [hp.2, BitVec.toNat_add, BitVec.toNat_setWidth]
      omega
    exact ⟨⟨_, hb, by rw [hsum]; simp [waits]⟩, hsum⟩
  | err c t => rw [hr] at hp; exact hp
  | cut t => trivial

/-- The loop of POLL waits only while ELAPSED is at most the budget, so one interval beyond it is the
most ELAPSED reaches, and that fits 17 bits (R32). -/
theorem pollLoop_ticked (b i : Half) : ∀ (fuel : Nat) (s : State),
    s.pe.elapsed.toNat ≤ b.toNat + i.toNat →
    Post (pollLoop b i fuel s)
      (fun _ t => Ticked i s t ∧ t.pe.elapsed.toNat ≤ b.toNat + i.toNat)
      (fun _ t => Ticked i s t ∧ t.pe.elapsed.toNat ≤ b.toNat + i.toNat) (fun _ => True)
  | 0, s, hs => ⟨.refl i s, hs⟩
  | fuel + 1, s, hs => by
    refine (tRead_ticked i _ s).bind (fun _ _ h => ⟨h.1, by rw [h.2]; exact hs⟩) (fun _ h => h)
      fun v t ⟨hst, hpe⟩ => ?_
    have ht : t.pe.elapsed.toNat ≤ b.toNat + i.toNat := by rw [hpe]; exact hs
    dsimp only
    split
    · exact ⟨hst, ht⟩
    · exact ⟨hst, ht⟩
    split
    · exact ⟨hst, ht⟩
    next hbudget =>
      have hle : t.pe.elapsed.toNat ≤ b.toNat := by
        have hb := b.isLt
        rw [BitVec.lt_def, BitVec.toNat_setWidth] at hbudget
        omega
      have hfit : t.pe.elapsed.toNat + i.toNat < 2 ^ 17 := by
        have hb := b.isLt
        have hi := i.isLt
        omega
      refine (waitTicks_ticked hfit).bind (fun _ _ h => h.elim) (fun _ h => h)
        fun _ u ⟨htu, hsum⟩ => ?_
      have hloop := pollLoop_ticked b i fuel
        { u with pe := { u.pe with elapsed := u.pe.elapsed + i.setWidth 17 } }
        (by rw [hsum]; omega)
      exact hloop.mono (fun _ _ h => ⟨(hst.trans htu).trans h.1, h.2⟩)
        (fun _ _ h => ⟨(hst.trans htu).trans h.1, h.2⟩) fun _ h => h

/-- What R32 says of a POLL from `s` to `t`: ELAPSED is the interval times the waits, within its bound. -/
def ElapsedExact (s t : State) : Prop :=
  ∃ l, t.bus = s.bus ++ l ∧ t.pe.elapsed.toNat = waits l * s.pe.pollInterval.toNat ∧
    t.pe.elapsed.toNat ≤ s.pe.pollBudget.toNat + s.pe.pollInterval.toNat

/-- POLL sets ELAPSED to 0 (R125), so what the loop adds is all there is. -/
theorem elapsedExact_of_ticked {s t : State}
    (h : Ticked s.pe.pollInterval { s with pe := { s.pe with elapsed := 0 } } t)
    (hle : t.pe.elapsed.toNat ≤ s.pe.pollBudget.toNat + s.pe.pollInterval.toNat) :
    ElapsedExact s t := by
  obtain ⟨l, hl, he⟩ := h
  exact ⟨l, hl, by simpa using he, hle⟩

theorem poll_elapsedExact (s : State) :
    Post (poll s) (fun _ t => ElapsedExact s t) (fun _ t => ElapsedExact s t) (fun _ => True) :=
  (pollLoop_ticked _ _ _ { s with pe := { s.pe with elapsed := 0 } } (Nat.zero_le _)).mono
    (fun _ _ h => elapsedExact_of_ticked h.1 h.2) (fun _ _ h => elapsedExact_of_ticked h.1 h.2)
    fun _ h => h

/-- Settles O26, by induction on the reads of the loop (`pollLoop_ticked`). -/
theorem elapsedNeverWraps : Obligations.ElapsedNeverWraps := by
  intro s _ hcut
  have hp := poll_elapsedExact s
  cases hr : poll s with
  | ok a t => rw [hr] at hp; exact hp
  | err c t => rw [hr] at hp; exact hp
  | cut t => exact absurd hr (hcut t)

end Sys2Proof.Proofs
end

section
/-! PROOFS. The transport (spec 20_memory.md): the clear (R57), a failed write of the opcode
register (R55, U6), and the reference device (R70 to R73): each micro-step against it as an
equation, then POLL and XCHG against a script entry that completes in time. -/

namespace Sys2Proof.Proofs

open Sys2Proof.Machine Sys2Proof.Laws

/-! ### The clear and the failed write -/

/-- `clearFIFO` where the environment lets it through (R57, R107). -/
theorem clearFifo_quiet {s : State} {ms : List EnvMove} (hl : Legal s.cfg)
    (ha : s.agent = .any (EnvMove.quiet :: ms)) (hs : s.settle = 0) :
    clearFifo s = .ok () (passed s ms (.write s.cfg.regFifoControl s.cfg.vFifoFlush) .done
      { s.dev with fifo := [] }) := by
  have hne : s.cfg.regFifoControl ≠ s.cfg.regCommand := Ne.symm hl.distinct.1.1
  rw [clearFifo, tWrite_quiet ha hs (fun h => hne h.1), writeReg_flush]

/-- Settles O42: the second clear starts from an empty FIFO. -/
theorem clearIsIdempotent : Obligations.ClearIsIdempotent := by
  intro s rest hlegal ⟨ha, hs⟩
  have hl := Legal.of hlegal
  exact ⟨_, _, clearFifo_quiet hl ha hs, clearFifo_quiet (s := passed _ _ _ _ _) hl rfl hs, rfl,
    rfl⟩

/-- A write that fails and that RESET does not follow (R55): COMM_ERR, and what U6 lets it leave. -/
theorem tWrite_failed {s : State} {a v : Byte} (hf : (s.moveFor (.write a v)).fails = true)
    (hr : (s.moveFor (.write a v)).reset = false) :
    tWrite a v s = .err .commErr
      (((s.arrive (.write a v)).written (s.moveFor (.write a v)) a v).record
        (s.moveFor (.write a v)) (.write a v) .failed) := by
  simp [tWrite, conclude, hf, hr]

/-- U6: a failed write of an opcode other than the reset command took no effect or all of it. -/
theorem written_command_dev {s : State} {m : EnvMove} {v : Byte} (hl : Legal s.cfg)
    (hs : s.settle = 0) (hv : v ≠ s.cfg.icCmdSoftReset) :
    (s.written m s.cfg.regCommand v).dev = s.dev ∨
      (s.written m s.cfg.regCommand v).dev = { s.dev with cmd := v } := by
  by_cases hland : m.fails = true ∧ m.landed = 0
  · exact .inl (by simp [State.written, hs, hland])
  · exact .inr (by simp [State.written, hs, hland, writeReg_command hl m s.dev hv])

/-- Settles O43: `tWrite_failed` gives the answer, `written_command_dev` the register. -/
theorem failedWriteIsOldOrNew : Obligations.FailedWriteIsOldOrNew := by
  intro s v hlegal hs hv m hsteps hreact hfails hreset
  have harrive : (s.arrive (.write s.cfg.regCommand v)).dev = s.dev := by
    rw [arrive_dev, hsteps, takeSteps_nil]
  have hold := written_command_dev (s := s.arrive (.write s.cfg.regCommand v)) (m := m) (v := v)
    (by simpa using Legal.of hlegal) (by simpa using hs) (by simpa using hv)
  have hpe := (written_untouched m s.cfg.regCommand v (s.arrive (.write s.cfg.regCommand v))).pe
  refine ⟨_, tWrite_failed hfails hreset, by simpa using hpe, ?_⟩
  rw [arrive_cfg, harrive] at hold
  have hreact' : (s.moveFor (.write s.cfg.regCommand v)).react = [] := hreact
  rw [record_dev, hreact', takeSteps_nil]
  exact hold

/-! ### The reference device: its answers and its clock -/

/-- The reference device once it has counted one more primitive (R70). -/
def counted (r : RefDevice) : RefDevice := { r with ordinal := r.ordinal + 1 }

/-- The reference device's state but for the pending command and the count of primitives: what is
left of the script, the frames it transmitted, the failures to come (R70). -/
structure SameScript (r r' : RefDevice) : Prop where
  script : r'.script = r.script
  frames : r'.frames = r.frames
  fails  : r'.fails = r.fails

theorem SameScript.trans {r r' r'' : RefDevice} (h : SameScript r r') (h' : SameScript r' r'') :
    SameScript r r'' :=
  ⟨h'.script.trans h.script, h'.frames.trans h.frames, h'.fails.trans h.fails⟩

theorem SameScript.eq {r r' : RefDevice} (h : SameScript r r') :
    r' = { r with pend := r'.pend, ordinal := r'.ordinal } := by
  rw [← h.script, ← h.frames, ← h.fails]

theorem counted_sameScript (r : RefDevice) : SameScript r (counted r) := ⟨rfl, rfl, rfl⟩

theorem tick_sameScript (t : Nat) (r : RefDevice) : SameScript r (r.tick t).2 := by
  unfold RefDevice.tick
  split
  · split
    · split <;> exact ⟨rfl, rfl, rfl⟩
    · exact ⟨rfl, rfl, rfl⟩
  · exact ⟨rfl, rfl, rfl⟩

/-- R72: with an empty FIFO nothing is fired. -/
theorem fire_empty (c : Cfg) (cmd : Byte) (r : RefDevice) : r.fire c cmd [] = ([], r) := by
  simp [RefDevice.fire]

section Answers

variable {c : Cfg} {d : Device} {r : RefDevice}

theorem answer_read (hf : r.fails = []) (a : Byte) :
    r.answer c d (.read a) = ({ value := if c.lawful a then none else some 0 }, counted r) := by
  simp [RefDevice.answer, counted, hf]

/-- R71: the writes PE makes beside the opcode. -/
theorem answer_write (hf : r.fails = []) {a v : Byte} (hc : a ≠ c.regCommand)
    (ha : a = c.regFrameCfg ∨ a = c.regIrq ∨ (a = c.regFifoControl ∧ v = c.vFifoFlush)) :
    r.answer c d (.write a v) = ({ value := some 0 }, counted r) := by
  simp [RefDevice.answer, counted, hf, hc, ha]

/-- R71, R72: an opcode written while the FIFO is empty waits for a frame. -/
theorem answer_opcode (hf : r.fails = []) (hd : d.fifo = []) {v : Byte}
    (hv : v ≠ c.icCmdSoftReset) :
    r.answer c d (.write c.regCommand v) = ({}, { counted r with pend := none }) := by
  simp [RefDevice.answer, counted, hf, hv, hd, fire_empty]

theorem answer_fifoRead (hf : r.fails = []) (n : Nat) :
    r.answer c d (.fifoRead n) = ({}, counted r) := by
  simp [RefDevice.answer, counted, hf]

theorem answer_fifoWrite (hf : r.fails = []) (bs : List Byte) :
    r.answer c d (.fifoWrite bs) =
      ({ react := ((counted r).fire c d.cmd (d.fifo ++ bs)).1 },
        ((counted r).fire c d.cmd (d.fifo ++ bs)).2) := by
  simp [RefDevice.answer, counted, hf]

theorem answer_wait (t : Nat) :
    r.answer c d (.wait t) = ({ react := (r.tick t).1 }, (r.tick t).2) := rfl

end Answers

/-! ### The micro-steps against it -/

/-- The state after micro-steps `l` against the reference device, which they leave as `r` with the
device `d`. -/
def served (s : State) (r : RefDevice) (d : Device) (l : List BusStep) : State :=
  { s with dev := d, agent := .reference r, bus := s.bus ++ l }

@[simp] theorem served_cfg (s : State) (r d l) : (served s r d l).cfg = s.cfg := rfl
@[simp] theorem served_pe (s : State) (r d l) : (served s r d l).pe = s.pe := rfl
@[simp] theorem served_dev (s : State) (r d l) : (served s r d l).dev = d := rfl
@[simp] theorem served_settle (s : State) (r d l) : (served s r d l).settle = s.settle := rfl
@[simp] theorem served_agent (s : State) (r d l) : (served s r d l).agent = .reference r := rfl
@[simp] theorem served_sent (s : State) (r d l) : (served s r d l).sent = s.sent := rfl

@[simp] theorem served_served (s : State) (r r' d d' l l') :
    served (served s r d l) r' d' l' = served s r' d' (l ++ l') := by
  simp [served]

/-- The reference device answers outside the settle window, and no failure is to come (R70). -/
structure Serving (s : State) (r : RefDevice) : Prop where
  agent   : s.agent = .reference r
  settled : s.settle = 0
  fails   : r.fails = []

theorem Serving.served {s : State} {r r' : RefDevice} (h : Serving s r) (hr : SameScript r r')
    (d : Device) (l : List BusStep) : Serving (served s r' d l) r' :=
  ⟨rfl, h.settled, hr.fails.trans h.fails⟩

/-- A read at an address whose value a law fixes (R71). -/
theorem tRead_serving {s : State} {r : RefDevice} (h : Serving s r) {a : Byte}
    (ha : s.cfg.lawful a = true) :
    tRead a s = .ok (s.dev.readReg s.cfg a)
      (served s (counted r) s.dev [⟨.read a, .value (s.dev.readReg s.cfg a)⟩]) := by
  simp [tRead, moveFor_reference h.agent h.settled, arrive_reference h.agent h.settled,
    answer_read h.fails, conclude, State.readValue, State.record, served, h.settled, ha]

/-- The clear, the frame configuration, the IRQ clear (R71). -/
theorem tWrite_serving {s : State} {r : RefDevice} (h : Serving s r) {a v : Byte}
    (hc : a ≠ s.cfg.regCommand) (ha : a = s.cfg.regFrameCfg ∨ a = s.cfg.regIrq ∨
      (a = s.cfg.regFifoControl ∧ v = s.cfg.vFifoFlush)) :
    tWrite a v s = .ok () (served s (counted r)
      (s.dev.writeReg s.cfg { value := some 0 } a v) [⟨.write a v, .done⟩]) := by
  simp [tWrite, moveFor_reference h.agent h.settled, arrive_reference h.agent h.settled,
    answer_write h.fails hc ha, conclude, State.written, State.record, served, settleAfter,
    h.settled, hc]

/-- An opcode written into an empty FIFO (R71, R72). -/
theorem tWrite_opcode_serving {s : State} {r : RefDevice} (h : Serving s r) (hl : Legal s.cfg)
    (hd : s.dev.fifo = []) {v : Byte} (hv : v ≠ s.cfg.icCmdSoftReset) :
    tWrite s.cfg.regCommand v s = .ok () (served s { counted r with pend := none }
      { s.dev with cmd := v } [⟨.write s.cfg.regCommand v, .done⟩]) := by
  simp [tWrite, moveFor_reference h.agent h.settled, arrive_reference h.agent h.settled,
    answer_opcode h.fails hd hv, conclude, State.written, State.record, served, settleAfter,
    h.settled, hv, writeReg_command hl _ _ hv]

/-- A bulk read within the occupancy (R71, R53). -/
theorem tFifoRead_serving {s : State} {r : RefDevice} (h : Serving s r) {n : Nat}
    (hn : n ≤ s.dev.fifo.length) :
    tFifoRead n s = .ok (s.dev.fifo.take n) (served s (counted r)
      { s.dev with fifo := s.dev.fifo.drop n } [⟨.fifoRead n, .bytes (s.dev.fifo.take n)⟩]) := by
  have h0 : n - s.dev.fifo.length = 0 := by omega
  simp [tFifoRead, moveFor_reference h.agent h.settled, arrive_reference h.agent h.settled,
    answer_fifoRead h.fails, conclude, State.fifoTaken, State.fifoBytes, State.record, served,
    h.settled, h0, drawnBytes]

/-- A bulk write into an empty FIFO, which may fire the command (R71, R72). -/
theorem tFifoWrite_serving {s : State} {r : RefDevice} (h : Serving s r) {bs : List Byte}
    (hd : s.dev.fifo = []) (hn : bs.length ≤ s.cfg.fifoCap) :
    tFifoWrite bs s = .ok bs.length (served s ((counted r).fire s.cfg s.dev.cmd bs).2
      (({ s.dev with fifo := bs } : Device).takeSteps s.cfg
        ((counted r).fire s.cfg s.dev.cmd bs).1)
      [⟨.fifoWrite bs, .count bs.length⟩]) := by
  simp [tFifoWrite, moveFor_reference h.agent h.settled, arrive_reference h.agent h.settled,
    answer_fifoWrite h.fails, conclude, State.fifoFilled, fifoReported, State.record, served,
    h.settled, hd, hn]

/-- Ticks pass (R73). -/
theorem waitTicks_serving {s : State} {r : RefDevice} (h : Serving s r) (t : Nat) :
    waitTicks t s = .ok () (served s (r.tick t).2 (s.dev.takeSteps s.cfg (r.tick t).1)
      [⟨.wait t, .done⟩]) := by
  simp [waitTicks, moveFor_reference h.agent h.settled, arrive_reference h.agent h.settled,
    answer_wait, conclude, State.record, served, h.settled]

/-! ### The procedures against it -/

theorem lawful_length (c : Cfg) : c.lawful c.regFifoLength = true := by simp [Cfg.lawful]

theorem lawful_irq (c : Cfg) : c.lawful c.regIrq = true := by simp [Cfg.lawful]

/-- `fifoLength` (R100): the occupancy. -/
theorem fifoLength_serving {s : State} {r : RefDevice} (h : Serving s r) (hl : Legal s.cfg)
    (hf : s.dev.fifo.length ≤ s.cfg.fifoCap) :
    ∃ l, fifoLength s = .ok s.dev.fifo.length (served s (counted r) s.dev l) := by
  have hcap := hl.capMax
  have hmin : min (min s.dev.fifo.length 255) s.cfg.fifoCap = s.dev.fifo.length := by omega
  rw [fifoLength, tRead_serving h (lawful_length s.cfg), bind_ok, readReg_length, toNat_length,
    served_cfg, hmin]
  exact ⟨_, rfl⟩

/-- `readFIFO` of some bytes of a FIFO that holds any (R102). -/
theorem readFifo_serving {s : State} {r : RefDevice} (h : Serving s r) (hl : Legal s.cfg)
    (hf : s.dev.fifo.length ≤ s.cfg.fifoCap) {need : Nat} (hn : 0 < need) (hd : s.dev.fifo ≠ []) :
    ∃ d l, readFifo need s = .ok (s.dev.fifo.take need) (served s (counted (counted r)) d l) := by
  obtain ⟨l, hlen⟩ := fifoLength_serving h hl hf
  have hpos := List.length_pos_iff.mpr hd
  have hne : min need s.dev.fifo.length ≠ 0 := by omega
  have htake : (s.dev.fifo.take (min need s.dev.fifo.length)).take (min need s.dev.fifo.length)
      = s.dev.fifo.take need := by
    rw [List.take_take, Nat.min_self, ← List.take_take, List.take_length]
  rw [readFifo, hlen, bind_ok]
  simp only [hne, if_false]
  rw [tFifoRead_serving (h.served (counted_sameScript r) s.dev l) (by simp), bind_ok,
    served_served, served_dev, htake]
  exact ⟨_, _, rfl⟩

/-- `writeFIFO` of bytes that fit into an empty FIFO (R105), which may fire the command (R72). -/
theorem writeFifo_serving {s : State} {r : RefDevice} (h : Serving s r) (hl : Legal s.cfg)
    (hd : s.dev.fifo = []) {bs : List Byte} (hb : bs ≠ []) (hn : bs.length ≤ s.cfg.fifoCap) :
    ∃ l, writeFifo bs s = .ok bs.length
      (served s ((counted (counted r)).fire s.cfg s.dev.cmd bs).2
        (({ s.dev with fifo := bs } : Device).takeSteps s.cfg
          ((counted (counted r)).fire s.cfg s.dev.cmd bs).1) l) := by
  obtain ⟨l, hlen⟩ := fifoLength_serving h hl (by simp [hd])
  have hpos := List.length_pos_iff.mpr hb
  have hw : min bs.length (s.cfg.fifoCap - s.dev.fifo.length) = bs.length := by simp [hd, hn]
  rw [writeFifo, hlen, bind_ok]
  simp only [served_cfg, hw, hpos.ne', if_false, List.take_length]
  rw [tFifoWrite_serving (h.served (counted_sameScript r) s.dev l) hd hn, bind_ok, served_served,
    Nat.min_self]
  exact ⟨_, rfl⟩

/-- The device as an exchange has opened it and put its parameters into the FIFO (R128). -/
def loaded (d : Device) (fc icop : Byte) (bs : List Byte) : Device :=
  { d with fifo := bs, cmd := icop, irq := 0, frame := fc }

/-- The clear, the frame configuration, the IRQ clear and the opcode of an exchange (R128): with the
FIFO empty the reference device fires nothing. -/
theorem xchg_issued {s : State} {r : RefDevice} (h : Serving s r) (hl : Legal s.cfg) {icop : Byte}
    (ho : icop ≠ s.cfg.icCmdSoftReset) (fc : Byte) {bs : List Byte} (need : Nat) (hb : bs ≠ []) :
    ∃ r' l, SameScript r r' ∧ r'.pend = none ∧ xchg fc icop bs need s =
      (writeFifo bs (served s r' (loaded s.dev fc icop []) l)).bind fun k s =>
        if k < bs.length then .err .protoShort s
        else (poll s).bind fun _ s => readFifo need s := by
  obtain ⟨⟨hcc, -, hci, -, hcf⟩, -⟩ := hl.distinct
  have hpos := List.length_pos_iff.mpr hb
  have opcode (l : List BusStep) := tWrite_opcode_serving
    (s := served s _ { s.dev with fifo := [], irq := 0, frame := fc } l)
    (h.served (r' := counted (counted (counted r))) ⟨rfl, rfl, rfl⟩ _ _) hl rfl ho
  simp only [served_cfg] at opcode
  rw [xchg, clearFifo, tWrite_serving h hcc.symm (.inr (.inr ⟨rfl, rfl⟩)), bind_ok, writeReg_flush]
  simp only [served_cfg]
  rw [tWrite_serving (h.served (counted_sameScript r) _ _) hcf.symm (.inl rfl), bind_ok]
  simp only [served_cfg, served_dev, served_served, writeReg_frame hl]
  rw [tWrite_serving (h.served (r' := counted (counted r)) ⟨rfl, rfl, rfl⟩ _ _) hci.symm
    (.inr (.inl rfl)), bind_ok]
  simp only [served_cfg, served_dev, served_served, writeReg_irqClear hl]
  rw [writeCommand, served_cfg, opcode, bind_ok]
  simp only [hpos.ne', if_false, served_dev, served_served]
  exact ⟨{ counted (counted (counted (counted r))) with pend := none }, _, ⟨rfl, rfl, rfl⟩, rfl,
    rfl⟩

/-- An exchange up to its POLL (R128): its parameters, once in the FIFO, are what is fired. -/
theorem xchg_fired {s : State} {r : RefDevice} (h : Serving s r) (hl : Legal s.cfg) {icop : Byte}
    (ho : icop ≠ s.cfg.icCmdSoftReset) (fc : Byte) {bs : List Byte} (need : Nat) (hb : bs ≠ [])
    (hn : bs.length ≤ s.cfg.fifoCap) :
    ∃ r' l, SameScript r r' ∧ r'.pend = none ∧ xchg fc icop bs need s =
      (poll (served s (r'.fire s.cfg icop bs).2
        ((loaded s.dev fc icop bs).takeSteps s.cfg (r'.fire s.cfg icop bs).1) l)).bind
        fun _ s => readFifo need s := by
  obtain ⟨r', l, hr, hp, hx⟩ := xchg_issued h hl ho fc need hb
  obtain ⟨l', hw⟩ := writeFifo_serving (h.served hr (loaded s.dev fc icop []) l) hl rfl hb hn
  rw [hx, hw, bind_ok, served_served]
  simp only [Nat.lt_irrefl, if_false]
  exact ⟨counted (counted r'), _, hr.trans ⟨rfl, rfl, rfl⟩, hp, rfl⟩

/-! ### The answer of the reference device -/

/-- What `Wait`s bring (R73): the reference device shows the answer `resp` and completion, or will
show it after exactly `q` waits of `i` ticks. -/
inductive Awaits (c : Cfg) (i : Nat) (resp : List Byte) : Nat → Device → Option ScriptEntry →
    Prop where
  | arrived {d : Device} {pend : Option ScriptEntry} : d.irq = c.mDone → d.fifo = resp →
      pend = none → Awaits c i resp 0 d pend
  | pending {d : Device} {pend : Option ScriptEntry} {q left : Nat} : d.irq = 0 → d.fifo = [] →
      pend = some { lat := some left, irq := c.mDone, resp := resp } →
      q * i < left → left ≤ (q + 1) * i → Awaits c i resp (q + 1) d pend

/-- How many waits of `i` ticks it takes to let `lat` ticks pass: `⌈lat / i⌉`. -/
def waitsFor (lat i : Nat) : Nat := (lat + i - 1) / i

/-- The device's state as a pending command completes (R73). -/
theorem complete_dev {c : Cfg} {d : Device} (e : ScriptEntry) (hf : d.fifo = []) (hi : d.irq = 0)
    (hn : e.resp.length ≤ c.fifoCap) :
    d.takeSteps c e.complete = { d with fifo := e.resp, irq := e.irq } := by
  simp [Device.takeSteps, Device.takeStep, ScriptEntry.complete, hf, hi, List.take_of_length_le hn]

theorem tick_due {r : RefDevice} {k t : Nat} {irq : Byte} {resp : List Byte}
    (hp : r.pend = some { lat := some k, irq := irq, resp := resp }) (hk : k ≤ t) :
    r.tick t = (({ lat := some k, irq := irq, resp := resp } : ScriptEntry).complete,
      { r with pend := none }) := by
  simp [RefDevice.tick, hp, hk]

theorem tick_running {r : RefDevice} {k t : Nat} {irq : Byte} {resp : List Byte}
    (hp : r.pend = some { lat := some k, irq := irq, resp := resp }) (hk : t < k) :
    r.tick t = ([], { r with pend := some { lat := some (k - t), irq := irq, resp := resp } }) := by
  simp [RefDevice.tick, hp, hk]

/-- One wait brings the answer one wait nearer (R73). -/
theorem Awaits.tick {c : Cfg} {i q : Nat} {resp : List Byte} {d : Device} {r : RefDevice}
    (h : Awaits c i resp (q + 1) d r.pend) (hn : resp.length ≤ c.fifoCap) :
    Awaits c i resp q (d.takeSteps c (r.tick i).1) (r.tick i).2.pend := by
  cases h with
  | pending hirq hfifo hp hlo hhi =>
    cases q with
    | zero =>
      rw [tick_due hp (by omega), complete_dev _ hfifo hirq hn]
      exact .arrived rfl rfl rfl
    | succ q =>
      rw [Nat.add_mul] at hlo hhi
      rw [tick_running hp (by omega), takeSteps_nil]
      refine .pending hirq hfifo rfl ?_ ?_
      · omega
      · omega

/-- R72: the command whose script entry has latency 0 completes as it is fired. -/
theorem fire_at_once {c : Cfg} {r : RefDevice} {bs : List Byte} {e : ScriptEntry}
    {script : List ScriptEntry} (hb : bs ≠ []) (hp : r.pend = none) (hs : r.script = e :: script)
    (he : e.lat = some 0) :
    r.fire c c.icCmdTransceive bs = (.transmit bs.length :: e.complete,
      { r with script := script, frames := r.frames ++ [bs] }) := by
  simp [RefDevice.fire, hb, hp, hs, he]

/-- R72: any other is pending from then on. -/
theorem fire_pending {c : Cfg} {r : RefDevice} {bs : List Byte} {e : ScriptEntry}
    {script : List ScriptEntry} (hb : bs ≠ []) (hp : r.pend = none) (hs : r.script = e :: script)
    (he : e.lat ≠ some 0) :
    r.fire c c.icCmdTransceive bs = ([.transmit bs.length],
      { r with script := script, frames := r.frames ++ [bs], pend := some e }) := by
  simp [RefDevice.fire, hb, hp, hs, he]

/-- Transmitting the whole FIFO leaves it empty (R40, R72). -/
theorem transmit_all (d : Device) (c : Cfg) :
    d.takeStep c (.transmit d.fifo.length) = { d with fifo := [] } := by
  simp [Device.takeStep]

/-- R72, R73: a command fired with latency `lat` completes after `waitsFor lat i` waits; the
frame is recorded and the script entry used up. -/
theorem fire_awaits {c : Cfg} {d : Device} {r : RefDevice} {resp : List Byte} {lat i : Nat}
    {script : List ScriptEntry} (hi : 0 < i) (hb : d.fifo ≠ []) (hn : resp.length ≤ c.fifoCap)
    (hq : d.irq = 0) (hp : r.pend = none)
    (hs : r.script = { lat := some lat, irq := c.mDone, resp := resp } :: script) :
    Awaits c i resp (waitsFor lat i) (d.takeSteps c (r.fire c c.icCmdTransceive d.fifo).1)
        (r.fire c c.icCmdTransceive d.fifo).2.pend ∧
      SameScript { r with script := script, frames := r.frames ++ [d.fifo] }
        (r.fire c c.icCmdTransceive d.fifo).2 := by
  cases lat with
  | zero =>
    have h0 : waitsFor 0 i = 0 := Nat.div_eq_of_lt (by omega)
    have hdev : d.takeSteps c (.transmit d.fifo.length ::
        ({ lat := some 0, irq := c.mDone, resp := resp } : ScriptEntry).complete) =
        { d with fifo := resp, irq := c.mDone } := by
      rw [Device.takeSteps, List.foldl_cons, transmit_all]
      exact complete_dev _ rfl hq hn
    rw [fire_at_once hb hp hs rfl, h0, hdev]
    exact ⟨.arrived rfl rfl hp, rfl, rfl, rfl⟩
  | succ k =>
    have hceil : waitsFor (k + 1) i = k / i + 1 := by
      rw [waitsFor, show k + 1 + i - 1 = k + i by omega, Nat.add_div_right k hi]
    have hdev : d.takeSteps c [.transmit d.fifo.length] = { d with fifo := [] } := transmit_all d c
    have hlo : k / i * i < k + 1 := Nat.lt_succ_of_le (Nat.div_mul_le_self k i)
    have hhi : k + 1 ≤ (k / i + 1) * i := by
      have := Nat.lt_div_mul_add (a := k) hi
      rw [Nat.add_mul]
      omega
    rw [fire_pending hb hp hs (by simp), hceil, hdev]
    exact ⟨.pending hq rfl rfl hlo hhi, rfl, rfl, rfl⟩

/-- ELAPSED of POLL after one more interval (R125), where the sum stays within 17 bits (R32). -/
theorem toNat_elapsed_add {e : BitVec 17} {i : Half} (h : e.toNat + i.toNat < 2 ^ 17) :
    (e + i.setWidth 17).toNat = e.toNat + i.toNat := by
  rw [BitVec.toNat_add, BitVec.toNat_setWidth_of_le (by omega), Nat.mod_eq_of_lt h]

/-- ELAPSED after one interval and `q` more. -/
theorem elapsed_add_intervals (e : BitVec 17) (i : Half) (q : Nat) :
    e + i.setWidth 17 + BitVec.ofNat 17 (q * i.toNat) =
      e + BitVec.ofNat 17 ((q + 1) * i.toNat) := by
  rw [← BitVec.ofNat_toNat, BitVec.add_assoc, ← BitVec.ofNat_add, Nat.add_mul, Nat.one_mul,
    Nat.add_comm]

/-- The state with ELAPSED `e` ticks further on (R32). -/
def later (s : State) (e : BitVec 17) : State :=
  { s with pe := { s.pe with elapsed := s.pe.elapsed + e } }

/-- A round of POLL's loop that ends (R125): the IRQ read shows completion. -/
theorem pollLoop_done {b i : Half} {resp : List Byte} {s : State} {r : RefDevice} {n : Nat}
    (fuel : Nat) (h : Serving s r) (hl : Legal s.cfg) (ha : Awaits s.cfg n resp 0 s.dev r.pend) :
    ∃ l, pollLoop b i (fuel + 1) s = .ok () (served s (counted r) s.dev l) := by
  cases ha with
  | arrived hirq _ _ =>
    rw [pollLoop, tRead_serving h (lawful_irq s.cfg), bind_ok]
    simp only [served_cfg, readReg_irq hl, hirq, verdict_done hl]
    exact ⟨_, rfl⟩

/-- A round of POLL's loop that waits (R125). -/
theorem pollLoop_waits {b i : Half} {resp : List Byte} {s : State} {r : RefDevice} {q : Nat}
    (fuel : Nat) (h : Serving s r) (hl : Legal s.cfg) (hn : resp.length ≤ s.cfg.fifoCap)
    (ha : Awaits s.cfg i.toNat resp (q + 1) s.dev r.pend) (hb : s.pe.elapsed.toNat ≤ b.toNat) :
    ∃ r' d l, SameScript r r' ∧ Awaits s.cfg i.toNat resp q d r'.pend ∧
      pollLoop b i (fuel + 1) s = pollLoop b i fuel (served (later s (i.setWidth 17)) r' d l) := by
  have hnext := Awaits.tick (r := counted r) ha hn
  cases ha with
  | pending hirq _ _ _ _ =>
    have hlt : ¬ b.setWidth 17 < s.pe.elapsed := by
      have hw : (b.setWidth 17).toNat = b.toNat := BitVec.toNat_setWidth_of_le (by decide)
      rw [BitVec.lt_def, hw]
      omega
    rw [pollLoop, tRead_serving h (lawful_irq s.cfg), bind_ok]
    simp only [served_cfg, served_pe, readReg_irq hl, hirq, verdict_none, hlt, if_false]
    rw [waitTicks_serving (h.served (counted_sameScript r) _ _), bind_ok, served_served]
    exact ⟨_, _, _, (counted_sameScript r).trans (tick_sameScript _ _), hnext, rfl⟩

/-- The loop of POLL against an answer that comes after `q` waits (R125): it ends at the read after
them. -/
theorem pollLoop_awaits {b i : Half} {resp : List Byte} : ∀ (q fuel : Nat) (s : State)
    (r : RefDevice), q < fuel → Serving s r → Legal s.cfg → resp.length ≤ s.cfg.fifoCap →
    Awaits s.cfg i.toNat resp q s.dev r.pend →
    s.pe.elapsed.toNat + q * i.toNat ≤ b.toNat + i.toNat →
    ∃ r' d l, SameScript r r' ∧ Awaits s.cfg i.toNat resp 0 d r'.pend ∧
      pollLoop b i fuel s = .ok () (served (later s (BitVec.ofNat 17 (q * i.toNat))) r' d l)
  | _, 0, _, _, hq, _, _, _, _, _ => absurd hq (Nat.not_lt_zero _)
  | 0, fuel + 1, s, r, _, h, hl, _, ha, _ => by
    obtain ⟨l, hp⟩ := pollLoop_done (b := b) (i := i) fuel h hl ha
    refine ⟨counted r, s.dev, l, counted_sameScript r, ha, ?_⟩
    rw [hp]
    simp [later, served]
  | q + 1, fuel + 1, s, r, hq, h, hl, hn, ha, hb => by
    have hi := i.isLt
    have hbb := b.isLt
    rw [Nat.add_mul, Nat.one_mul] at hb
    obtain ⟨r₁, d₁, l₁, hr₁, ha₁, hp₁⟩ := pollLoop_waits (b := b) fuel h hl hn ha (by omega)
    have hsum : (later s (i.setWidth 17)).pe.elapsed.toNat = s.pe.elapsed.toNat + i.toNat :=
      toNat_elapsed_add (by omega)
    obtain ⟨r₂, d₂, l₂, hr₂, ha₂, hp₂⟩ := pollLoop_awaits (b := b) q fuel
      (served (later s (i.setWidth 17)) r₁ d₁ l₁) r₁ (by omega)
      ⟨rfl, h.settled, hr₁.fails.trans h.fails⟩ hl hn ha₁ (by rw [served_pe, hsum]; omega)
    refine ⟨r₂, d₂, l₁ ++ l₂, hr₁.trans hr₂, ha₂, ?_⟩
    rw [hp₁, hp₂]
    simp [later, served, elapsed_add_intervals]

/-- The state with ELAPSED as a POLL leaves it that waited `q` times (R32). -/
def afterWaits (s : State) (q : Nat) : State :=
  { s with pe := { s.pe with elapsed := s.pe.waited q } }

/-- POLL against an answer that comes after `q` waits within the polled time (R125, R127). -/
theorem poll_awaits {resp : List Byte} {q : Nat} {s : State} {r : RefDevice} (h : Serving s r)
    (hl : Legal s.cfg) (hn : resp.length ≤ s.cfg.fifoCap)
    (ha : Awaits s.cfg s.pe.pollInterval.toNat resp q s.dev r.pend)
    (hq : q ≤ s.pe.pollBudget.toNat / s.pe.pollInterval.toNat + 1) :
    ∃ r' d l, SameScript r r' ∧ Awaits s.cfg s.pe.pollInterval.toNat resp 0 d r'.pend ∧
      poll s = .ok () (served (afterWaits s q) r' d l) := by
  have hmul : q * s.pe.pollInterval.toNat ≤ s.pe.pollBudget.toNat + s.pe.pollInterval.toNat := by
    have hle := Nat.mul_le_mul_right s.pe.pollInterval.toNat hq
    have hdiv := Nat.div_mul_le_self s.pe.pollBudget.toNat s.pe.pollInterval.toNat
    rw [Nat.add_mul, Nat.one_mul] at hle
    omega
  obtain ⟨r', d, l, hr, hd, hp⟩ := pollLoop_awaits (b := s.pe.pollBudget) q
    (pollReads s.pe.pollBudget s.pe.pollInterval)
    { s with pe := { s.pe with elapsed := 0 } } r (by unfold pollReads; omega)
    ⟨h.agent, h.settled, h.fails⟩ hl hn ha (by simpa using hmul)
  exact ⟨r', d, l, hr, hd, by rw [poll, hp]; simp [later, afterWaits, Regs.waited]⟩

/-- The end of an exchange (R128): POLL, and the answer it waited for is drained. -/
theorem poll_readFifo_awaits {resp : List Byte} {q need : Nat} {s : State} {r : RefDevice}
    (h : Serving s r) (hl : Legal s.cfg) (hr : resp ≠ []) (hn : resp.length ≤ s.cfg.fifoCap)
    (hneed : 0 < need) (ha : Awaits s.cfg s.pe.pollInterval.toNat resp q s.dev r.pend)
    (hq : q ≤ s.pe.pollBudget.toNat / s.pe.pollInterval.toNat + 1) :
    ∃ r' d l, SameScript r r' ∧ r'.pend = none ∧
      ((poll s).bind fun _ s => readFifo need s) =
        .ok (resp.take need) (served (afterWaits s q) r' d l) := by
  obtain ⟨r', d, l, hr', ha', hp⟩ := poll_awaits h hl hn ha hq
  cases ha' with
  | arrived _ hfifo hpend =>
    subst hfifo
    have h' : Serving (served (afterWaits s q) r' d l) r' :=
      ⟨rfl, h.settled, hr'.fails.trans h.fails⟩
    obtain ⟨d₂, l₂, hread⟩ := readFifo_serving h' hl hn hneed hr
    rw [hp, bind_ok, hread, served_served]
    exact ⟨counted (counted r'), d₂, _, hr'.trans ⟨rfl, rfl, rfl⟩, hpend, rfl⟩

/-- A transceive exchange against a script entry that answers within the polled time (R128, R72,
R73). -/
theorem xchg_awaits {s : State} {r : RefDevice} {bs resp : List Byte} {lat need : Nat}
    {script : List ScriptEntry} (h : Serving s r) (hl : Legal s.cfg)
    (ho : s.cfg.icCmdTransceive ≠ s.cfg.icCmdSoftReset) (hi : s.pe.pollInterval ≠ 0) (fc : Byte)
    (hb : bs ≠ []) (hbn : bs.length ≤ s.cfg.fifoCap) (hr : resp ≠ [])
    (hrn : resp.length ≤ s.cfg.fifoCap) (hneed : 0 < need)
    (hs : r.script = { lat := some lat, irq := s.cfg.mDone, resp := resp } :: script)
    (hq : waitsFor lat s.pe.pollInterval.toNat ≤
      s.pe.pollBudget.toNat / s.pe.pollInterval.toNat + 1) :
    ∃ r' d l, SameScript { r with script := script, frames := r.frames ++ [bs] } r' ∧
      r'.pend = none ∧ xchg fc s.cfg.icCmdTransceive bs need s = .ok (resp.take need)
        (served (afterWaits s (waitsFor lat s.pe.pollInterval.toNat)) r' d l) := by
  have hpos : 0 < s.pe.pollInterval.toNat :=
    Nat.pos_of_ne_zero fun h0 => hi (BitVec.eq_of_toNat_eq h0)
  obtain ⟨r₁, l₁, hr₁, hp₁, hx⟩ := xchg_fired h hl ho fc need hb hbn
  obtain ⟨ha, hfired⟩ := fire_awaits (d := loaded s.dev fc s.cfg.icCmdTransceive bs)
    hpos hb hrn rfl hp₁ (hr₁.script.trans hs)
  obtain ⟨r₂, d, l₂, hr₂, hp₂, hend⟩ := poll_readFifo_awaits (need := need)
    (s := served s (r₁.fire s.cfg s.cfg.icCmdTransceive bs).2
      ((loaded s.dev fc s.cfg.icCmdTransceive bs).takeSteps s.cfg
        (r₁.fire s.cfg s.cfg.icCmdTransceive bs).1) l₁)
    ⟨rfl, h.settled, hfired.fails.trans (hr₁.fails.trans h.fails)⟩ hl hr hrn hneed ha hq
  have hsame : SameScript { r with script := script, frames := r.frames ++ [bs] }
      { r₁ with script := script, frames := r₁.frames ++ [bs] } :=
    ⟨rfl, congrArg (· ++ [bs]) hr₁.frames, hr₁.fails⟩
  refine ⟨r₂, d, l₁ ++ l₂, (hsame.trans hfired).trans hr₂, hp₂, ?_⟩
  rw [hx, hend]
  simp [served, afterWaits]

/-- A sixteen-bit number is 0 exactly if both its bytes are (R60). -/
theorem joinBytes_eq_zero {lo hi : Byte} : joinBytes lo hi = 0 ↔ lo = 0 ∧ hi = 0 := by
  constructor
  · intro h
    have hor : hi.toNat <<< 8 ||| lo.toNat = 0 :=
      (BitVec.toNat_append hi lo).symm.trans (congrArg BitVec.toNat h)
    obtain ⟨hhi, hlo⟩ := Nat.or_eq_zero_iff.mp hor
    exact ⟨BitVec.eq_of_toNat_eq hlo, BitVec.eq_of_toNat_eq (Nat.shiftLeft_eq_zero_iff.mp hhi)⟩
  · rintro ⟨rfl, rfl⟩
    rfl

/-- The reading of an answer of two bytes, not both zero (R144). -/
theorem requestOutcome_atqa {d0 d1 : Byte} (h : ¬ (d0 = 0 ∧ d1 = 0)) (s : State) :
    requestOutcome [d0, d1] s = .ok { code := .ok, count := 2, data := [d0, d1] }
      { s with pe := { s.pe with atqa := d1 ++ d0 } } :=
  if_neg (joinBytes_eq_zero.not.mpr h)

/-- REQA in a state whose POLL_INTERVAL R33 (vi) allows (R142). -/
theorem exec_reqa {s : State} (hi : s.pe.pollInterval ≠ 0) :
    exec .reqa s = .next (request s.cfg.piccReqa s).finishAttempt :=
  if_neg hi

/-- Settles O44: `xchg_awaits` runs the exchange of REQA (R144), `requestOutcome_atqa` reads its
answer. -/
theorem referenceDeviceAnswersRequest : Obligations.ReferenceDeviceAnswersRequest := by
  intro s lat d0 d1 script frames k hlegal ho hcap hs hi hd hagent e he
  have hl := Legal.of hlegal
  obtain ⟨r, d, l, hr, hp, hx⟩ := xchg_awaits (s := s.openAttempt) (bs := [s.cfg.piccReqa])
    (resp := [d0, d1]) (need := 2) ⟨hagent, hs, rfl⟩ hl ho hi s.cfg.vFrameShort7 (by simp)
    hl.capPos (by simp) hcap (by decide) rfl he
  have hreq : request s.cfg.piccReqa s = _ :=
    (congrArg (Reply.bind · requestOutcome) hx).trans (requestOutcome_atqa hd _)
  have hagent' : Agent.reference r = .reference
      { script := script, fails := [], pend := none, ordinal := r.ordinal
        frames := frames ++ [[s.cfg.piccReqa]] } := by
    rw [hr.eq, hp]
  rw [exec_reqa hi, hreq]
  exact ⟨_, rfl, rfl, rfl, rfl, rfl, r.ordinal, hagent'⟩

end Sys2Proof.Proofs
end

section
/-! PROOFS. The encoding of host words (spec 30_encoding.md R81 to R86; 45_client_extension.md R170):
what each format decodes, and that the decoder and the encoder are inverse to each other. -/

namespace Sys2Proof.Proofs

open Sys2Proof.Machine Sys2Proof.Laws

/-! ### Length bytes and 16-bit operands -/

/-- A length byte (R81): the byte counts `k` exactly when it is the byte the encoder writes for `k`. -/
theorem eq_toNat_iff {k : Nat} {n : Byte} : k = n.toNat ↔ n = BitVec.ofNat 8 k ∧ k ≤ 255 := by
  constructor
  · rintro rfl
    exact ⟨by simp, by have := n.isLt; omega⟩
  · rintro ⟨rfl, hk⟩
    rw [BitVec.toNat_ofNat, Nat.mod_eq_of_lt (by omega)]

theorem toNat_joinBytes (lo hi : Byte) : (joinBytes lo hi).toNat = hi.toNat * 256 + lo.toNat := by
  rw [joinBytes, BitVec.toNat_append, ← Nat.shiftLeft_add_eq_or_of_lt lo.isLt, Nat.shiftLeft_eq]

theorem toNat_lowByte (v : Half) : (lowByte v).toNat = v.toNat % 256 := BitVec.toNat_setWidth 8 v

theorem toNat_highByte (v : Half) : (highByte v).toNat = v.toNat / 256 := by
  have := v.isLt
  rw [highByte, BitVec.toNat_setWidth, BitVec.toNat_ushiftRight, Nat.shiftRight_eq_div_pow]
  omega

/-- Two bytes make a 16-bit number exactly when they are its low and its high byte (R60, R83). -/
theorem joinBytes_eq_iff {lo hi : Byte} {v : Half} :
    joinBytes lo hi = v ↔ lo = lowByte v ∧ hi = highByte v := by
  rw [← BitVec.toNat_inj, ← BitVec.toNat_inj, ← BitVec.toNat_inj, toNat_joinBytes, toNat_lowByte,
    toNat_highByte]
  have := lo.isLt
  omega

/-! ### What each format decodes -/

section Formats

variable (op : Byte) {rest : List Byte} {j : Instr}

/-- A format whose length test is the last thing it does. -/
theorem ite_eq_instr {op : Byte} {p : Prop} [Decidable p] {i : Instr} :
    (if p then Decoded.instr i else .malformed op) = .instr j ↔ p ∧ j = i := by
  by_cases hp : p <;> simp [hp, eq_comm]

theorem decodeH0_eq_instr {i : Instr} : decodeH0 op i rest = .instr j ↔ rest = [] ∧ j = i := by
  cases rest with
  | nil => simp [decodeH0, eq_comm]
  | cons => simp [decodeH0]

theorem decodeH1_eq_instr {f : Byte → Instr} :
    decodeH1 op f rest = .instr j ↔ ∃ n, rest = [n] ∧ j = f n := by
  match rest with
  | [] => simp [decodeH1]
  | [n] => simp [decodeH1, eq_comm]
  | _ :: _ :: _ => simp [decodeH1]

theorem decodeHV_eq_instr {f : List Byte → Instr} :
    decodeHV op f rest = .instr j ↔
      ∃ data, rest = BitVec.ofNat 8 data.length :: data ∧ j = f data ∧ data.length ≤ 255 := by
  match rest with
  | [] => simp [decodeHV]
  | n :: data =>
    rw [decodeHV, ite_eq_instr, eq_toNat_iff]
    constructor
    · rintro ⟨⟨rfl, hlen⟩, rfl⟩
      exact ⟨data, rfl, rfl, hlen⟩
    · rintro ⟨_, ⟨⟩, rfl, hlen⟩
      exact ⟨⟨rfl, hlen⟩, rfl⟩

theorem decodeHC_eq_instr {f : Byte → List Byte → Instr} :
    decodeHC op f rest = .instr j ↔
      ∃ icop params, rest = icop :: BitVec.ofNat 8 params.length :: params ∧ j = f icop params ∧
        params.length ≤ 255 := by
  match rest with
  | [] | [_] => simp [decodeHC]
  | icop :: n :: params =>
    rw [decodeHC, ite_eq_instr, eq_toNat_iff]
    constructor
    · rintro ⟨⟨rfl, hlen⟩, rfl⟩
      exact ⟨icop, params, rfl, rfl, hlen⟩
    · rintro ⟨_, _, ⟨⟩, rfl, hlen⟩
      exact ⟨⟨rfl, hlen⟩, rfl⟩

theorem decodeHW_eq_instr {f : Byte → Half → Instr} :
    decodeHW op f rest = .instr j ↔
      ∃ idx v, rest = [idx, lowByte v, highByte v] ∧ j = f idx v := by
  match rest with
  | [] | [_] | [_, _] | _ :: _ :: _ :: _ :: _ => simp [decodeHW]
  | [idx, lo, hi] =>
    constructor
    · rintro ⟨⟩
      obtain ⟨hlo, hhi⟩ := joinBytes_eq_iff.mp (rfl : joinBytes lo hi = _)
      exact ⟨idx, joinBytes lo hi, by rw [← hlo, ← hhi], rfl⟩
    · rintro ⟨idx, v, ⟨⟩, rfl⟩
      rw [decodeHW, joinBytes_eq_iff.mpr ⟨rfl, rfl⟩]

theorem decodeKey_eq_instr :
    decodeKey op rest = .instr j ↔ j = .loadkey rest ∧ rest.length = 6 := by
  rw [decodeKey, ite_eq_instr, and_comm]

theorem decodeAuth_eq_instr :
    decodeAuth op rest = .instr j ↔
      ∃ keyType blockNum uid, rest = keyType :: blockNum :: BitVec.ofNat 8 uid.length :: uid ∧
        j = .auth keyType blockNum uid ∧ uid.length ≤ 255 := by
  match rest with
  | [] | [_] | [_, _] => simp [decodeAuth]
  | keyType :: blockNum :: n :: uid =>
    rw [decodeAuth, ite_eq_instr, eq_toNat_iff]
    constructor
    · rintro ⟨⟨rfl, hlen⟩, rfl⟩
      exact ⟨keyType, blockNum, uid, rfl, rfl, hlen⟩
    · rintro ⟨_, _, _, ⟨⟩, rfl, hlen⟩
      exact ⟨⟨rfl, hlen⟩, rfl⟩

theorem decodeWrblk_eq_instr :
    decodeWrblk op rest = .instr j ↔
      ∃ blockNum data, rest = blockNum :: data ∧ j = .wrblk blockNum data ∧ data.length = 16 := by
  match rest with
  | [] => simp [decodeWrblk]
  | blockNum :: data =>
    rw [decodeWrblk, ite_eq_instr]
    constructor
    · rintro ⟨hlen, rfl⟩
      exact ⟨blockNum, data, rfl, rfl, hlen⟩
    · rintro ⟨_, _, ⟨⟩, rfl, hlen⟩
      exact ⟨hlen, rfl⟩

theorem decodeRdpage_eq_instr :
    decodeRdpage op rest = .instr j ↔
      ∃ page, rest = [lowByte page, highByte page] ∧ j = .rdpage page := by
  match rest with
  | [] | [_] | _ :: _ :: _ :: _ => simp [decodeRdpage]
  | [lo, hi] =>
    constructor
    · rintro ⟨⟩
      obtain ⟨hlo, hhi⟩ := joinBytes_eq_iff.mp (rfl : joinBytes lo hi = _)
      exact ⟨joinBytes lo hi, by rw [← hlo, ← hhi], rfl⟩
    · rintro ⟨page, ⟨⟩, rfl⟩
      rw [decodeRdpage, joinBytes_eq_iff.mpr ⟨rfl, rfl⟩]

theorem decodeWrpage_eq_instr :
    decodeWrpage op rest = .instr j ↔
      ∃ page data, rest = lowByte page :: highByte page :: data ∧ j = .wrpage page data ∧
        data.length = 4 := by
  match rest with
  | [] | [_] => simp [decodeWrpage]
  | lo :: hi :: data =>
    rw [decodeWrpage, ite_eq_instr]
    constructor
    · rintro ⟨hlen, rfl⟩
      obtain ⟨hlo, hhi⟩ := joinBytes_eq_iff.mp (rfl : joinBytes lo hi = _)
      exact ⟨joinBytes lo hi, data, by rw [← hlo, ← hhi], rfl, hlen⟩
    · rintro ⟨page, _, ⟨⟩, rfl, hlen⟩
      exact ⟨hlen, by rw [joinBytes_eq_iff.mpr ⟨rfl, rfl⟩]⟩

end Formats

/-! ### The op code table -/

/-- The rows of the op code table (R82, R170): those without operands, those with one operand byte, and
the others. -/
theorem tabled_cases {op : Byte} (h : (baseOp op || clientOp op) = true) :
    (op = 0x02 ∨ op = 0x05 ∨ op = 0x06 ∨ op = 0x07 ∨ op = 0x08 ∨ op = 0x09 ∨ op = 0x0A) ∨
    (op = 0x03 ∨ op = 0x0B ∨ op = 0x10 ∨ op = 0x13) ∨
    op = 0x01 ∨ op = 0x04 ∨ op = 0x0C ∨ op = 0x11 ∨ op = 0x12 ∨ op = 0x14 ∨ op = 0x15 ∨ op = 0x16 := by
  simp only [baseOp, clientOp, Bool.or_eq_true, Bool.and_eq_true, decide_eq_true_eq] at h
  bv_omega

/-- An op code in no table is rejected whatever follows it (R85). -/
theorem decodeOp_untabled {op : Byte} (h : (baseOp op || clientOp op) = false) (rest : List Byte) :
    decodeOp op rest = .badOp := by
  simp only [baseOp, clientOp, Bool.or_eq_false_iff, Bool.and_eq_false_iff, decide_eq_false_iff_not]
    at h
  unfold decodeOp
  split
  case h_20 => rfl
  all_goals omega

/-- The decoder and the encoder describe the same relation between words and operations. -/
theorem decodeOp_eq_instr {op : Byte} {rest : List Byte} {i : Instr} :
    decodeOp op rest = .instr i ↔
      op = i.opcode ∧ rest = i.operands ∧ i.wellFormed = true := by
  constructor
  · intro h
    have htab : (baseOp op || clientOp op) = true := by
      by_contra hno
      rw [decodeOp_untabled (Bool.eq_false_iff.mpr hno)] at h
      cases h
    rcases tabled_cases htab with h0 | h1 | rfl | rfl | rfl | rfl | rfl | rfl | rfl | rfl
    · rcases h0 with rfl | rfl | rfl | rfl | rfl | rfl | rfl
      all_goals
        obtain ⟨rfl, rfl⟩ := (decodeH0_eq_instr _).mp h
        exact ⟨rfl, rfl, rfl⟩
    · rcases h1 with rfl | rfl | rfl | rfl
      all_goals
        obtain ⟨n, rfl, rfl⟩ := (decodeH1_eq_instr _).mp h
        exact ⟨rfl, rfl, rfl⟩
    · obtain ⟨icop, params, rfl, rfl, hlen⟩ := (decodeHC_eq_instr _).mp h
      exact ⟨rfl, rfl, decide_eq_true hlen⟩
    · obtain ⟨data, rfl, rfl, hlen⟩ := (decodeHV_eq_instr _).mp h
      exact ⟨rfl, rfl, decide_eq_true hlen⟩
    · obtain ⟨idx, value, rfl, rfl⟩ := (decodeHW_eq_instr _).mp h
      exact ⟨rfl, rfl, rfl⟩
    · obtain ⟨rfl, hlen⟩ := (decodeKey_eq_instr _).mp h
      exact ⟨rfl, rfl, decide_eq_true hlen⟩
    · obtain ⟨keyType, blockNum, uid, rfl, rfl, hlen⟩ := (decodeAuth_eq_instr _).mp h
      exact ⟨rfl, rfl, decide_eq_true hlen⟩
    · obtain ⟨blockNum, data, rfl, rfl, hlen⟩ := (decodeWrblk_eq_instr _).mp h
      exact ⟨rfl, rfl, decide_eq_true hlen⟩
    · obtain ⟨page, rfl, rfl⟩ := (decodeRdpage_eq_instr _).mp h
      exact ⟨rfl, rfl, rfl⟩
    · obtain ⟨page, data, rfl, rfl, hlen⟩ := (decodeWrpage_eq_instr _).mp h
      exact ⟨rfl, rfl, decide_eq_true hlen⟩
  · rintro ⟨rfl, rfl, hwf⟩
    cases i with
    | wrcmd icop params =>
      exact (decodeHC_eq_instr 0x01).mpr ⟨icop, params, rfl, rfl, of_decide_eq_true hwf⟩
    | fifolen | fifoclr | getstat | sreset | reqa | wupa | select => rfl
    | fiford | rdctl | configure | rdblk => rfl
    | fifowr data => exact (decodeHV_eq_instr 0x04).mpr ⟨data, rfl, rfl, of_decide_eq_true hwf⟩
    | wrctl idx value => exact (decodeHW_eq_instr 0x0C).mpr ⟨idx, value, rfl, rfl⟩
    | loadkey key => exact (decodeKey_eq_instr 0x11).mpr ⟨rfl, of_decide_eq_true hwf⟩
    | auth keyType blockNum uid =>
      exact (decodeAuth_eq_instr 0x12).mpr ⟨keyType, blockNum, uid, rfl, rfl, of_decide_eq_true hwf⟩
    | wrblk blockNum data =>
      exact (decodeWrblk_eq_instr 0x14).mpr ⟨blockNum, data, rfl, rfl, of_decide_eq_true hwf⟩
    | rdpage page => exact (decodeRdpage_eq_instr 0x15).mpr ⟨page, rfl, rfl⟩
    | wrpage page data =>
      exact (decodeWrpage_eq_instr 0x16).mpr ⟨page, data, rfl, rfl, of_decide_eq_true hwf⟩

/-- A word decodes to an operation exactly when it is the encoding of it and the operation has one
(R81 to R83, R170). -/
theorem decode_eq_instr {w : List Byte} {i : Instr} :
    decode w = .instr i ↔ encode i = w ∧ i.wellFormed = true := by
  cases w with
  | nil => simp [decode, encode]
  | cons op rest =>
    rw [decode, decodeOp_eq_instr, encode, List.cons.injEq, and_assoc, eq_comm, eq_comm (a := rest)]

/-- Settles O1: `decode_eq_instr` from right to left. -/
theorem decodeEncodeRoundTrip : Obligations.DecodeEncodeRoundTrip :=
  fun _ hwf => decode_eq_instr.mpr ⟨rfl, hwf⟩

/-- Settles O2: `decode_eq_instr` from left to right. -/
theorem encodeDecodeRoundTrip : Obligations.EncodeDecodeRoundTrip :=
  fun _ _ h => decode_eq_instr.mp h

/-- Settles O4: each example word is the encoding of its operation (R81, R82), but for the two that are
none: 0x0D is in no table, and 0x08 takes no operand. -/
theorem exampleWordsDecode : Obligations.ExampleWordsDecode :=
  ⟨decodeEncodeRoundTrip (.wrcmd 0x07 [0x26]) rfl, decodeEncodeRoundTrip (.fiford 5) rfl,
    decodeEncodeRoundTrip (.fifowr [1, 2, 3]) rfl, decodeEncodeRoundTrip .select rfl,
    decodeEncodeRoundTrip (.wrctl 0 300) rfl, decodeEncodeRoundTrip (.loadkey keyFactoryDefault) rfl,
    decodeEncodeRoundTrip (.loadkey keyNdef) rfl, decodeOp_untabled (op := 0x0D) rfl [], rfl⟩

/-! ### The length rule (R86) -/

/-- What R86 says of a word with a tabled op code whose required length is `n`, if its first bytes tell
one: it decodes when that is its length, and is malformed otherwise. -/
def FollowsLength (op : Byte) (rest : List Byte) (n : Option Nat) (d : Decoded) : Prop :=
  (n = some (rest.length + 1) ∧ ∃ i, d = .instr i) ∨
  (n ≠ some (rest.length + 1) ∧ d = .malformed op)

/-- A format whose length test is the last thing it does. -/
theorem followsLength_ite {op : Byte} {rest : List Byte} {n : Option Nat} {i : Instr} {p : Prop}
    [Decidable p] (h : n = some (rest.length + 1) ↔ p) :
    FollowsLength op rest n (if p then .instr i else .malformed op) := by
  by_cases hp : p
  · exact .inl ⟨h.mpr hp, i, if_pos hp⟩
  · exact .inr ⟨h.not.mpr hp, if_neg hp⟩

section LengthRule

variable (op : Byte) (rest : List Byte)

theorem decodeH0_followsLength (i : Instr) :
    FollowsLength op rest (some 1) (decodeH0 op i rest) := by
  match rest with
  | [] => exact .inl ⟨rfl, i, rfl⟩
  | _ :: _ => exact .inr ⟨by simp, rfl⟩

theorem decodeH1_followsLength (f : Byte → Instr) :
    FollowsLength op rest (some 2) (decodeH1 op f rest) := by
  match rest with
  | [n] => exact .inl ⟨rfl, f n, rfl⟩
  | [] | _ :: _ :: _ => exact .inr ⟨by simp, rfl⟩

theorem decodeHV_followsLength (f : List Byte → Instr) :
    FollowsLength op rest (rest[0]?.map fun n => 2 + n.toNat) (decodeHV op f rest) := by
  match rest with
  | [] => exact .inr ⟨by simp, rfl⟩
  | _ :: _ => exact followsLength_ite (by simp; omega)

theorem decodeHC_followsLength (f : Byte → List Byte → Instr) :
    FollowsLength op rest (rest[1]?.map fun n => 3 + n.toNat) (decodeHC op f rest) := by
  match rest with
  | [] | [_] => exact .inr ⟨by simp, rfl⟩
  | _ :: _ :: _ => exact followsLength_ite (by simp; omega)

theorem decodeHW_followsLength (f : Byte → Half → Instr) :
    FollowsLength op rest (some 4) (decodeHW op f rest) := by
  match rest with
  | [idx, lo, hi] => exact .inl ⟨rfl, f idx (joinBytes lo hi), rfl⟩
  | [] | [_] | [_, _] | _ :: _ :: _ :: _ :: _ => exact .inr ⟨by simp, rfl⟩

theorem decodeKey_followsLength : FollowsLength op rest (some 7) (decodeKey op rest) :=
  followsLength_ite (by simp)

theorem decodeAuth_followsLength :
    FollowsLength op rest (rest[2]?.map fun n => 4 + n.toNat) (decodeAuth op rest) := by
  match rest with
  | [] | [_] | [_, _] => exact .inr ⟨by simp, rfl⟩
  | _ :: _ :: _ :: _ => exact followsLength_ite (by simp; omega)

theorem decodeWrblk_followsLength : FollowsLength op rest (some 18) (decodeWrblk op rest) := by
  match rest with
  | [] => exact .inr ⟨by simp, rfl⟩
  | _ :: _ => exact followsLength_ite (by simp)

theorem decodeRdpage_followsLength : FollowsLength op rest (some 3) (decodeRdpage op rest) := by
  match rest with
  | [lo, hi] => exact .inl ⟨rfl, .rdpage (joinBytes lo hi), rfl⟩
  | [] | [_] | _ :: _ :: _ :: _ => exact .inr ⟨by simp, rfl⟩

theorem decodeWrpage_followsLength : FollowsLength op rest (some 7) (decodeWrpage op rest) := by
  match rest with
  | [] | [_] => exact .inr ⟨by simp, rfl⟩
  | _ :: _ :: _ => exact followsLength_ite (by simp)

end LengthRule

/-- The length rule over the op code table (R82, R86, R170). -/
theorem decode_followsLength {op : Byte} (htab : (baseOp op || clientOp op) = true)
    (rest : List Byte) :
    FollowsLength op rest (wordLength (op :: rest)) (decode (op :: rest)) := by
  rcases tabled_cases htab with h0 | h1 | rfl | rfl | rfl | rfl | rfl | rfl | rfl | rfl
  · rcases h0 with rfl | rfl | rfl | rfl | rfl | rfl | rfl
    all_goals exact decodeH0_followsLength _ rest _
  · rcases h1 with rfl | rfl | rfl | rfl
    all_goals exact decodeH1_followsLength _ rest _
  · exact decodeHC_followsLength _ rest _
  · exact decodeHV_followsLength _ rest _
  · exact decodeHW_followsLength _ rest _
  · exact decodeKey_followsLength _ rest
  · exact decodeAuth_followsLength _ rest
  · exact decodeWrblk_followsLength _ rest
  · exact decodeRdpage_followsLength _ rest
  · exact decodeWrpage_followsLength _ rest

/-- A word of another length than R86 requires is malformed. -/
theorem decode_malformed {op : Byte} {rest : List Byte} (htab : (baseOp op || clientOp op) = true)
    (hlen : wordLength (op :: rest) ≠ some (rest.length + 1)) :
    decode (op :: rest) = .malformed op := by
  rcases decode_followsLength htab rest with ⟨hn, _⟩ | ⟨_, hd⟩
  · exact absurd hn hlen
  · exact hd

/-- Settles O3: `decode_followsLength`, whose two cases exclude each other. -/
theorem decodingFollowsLengthRule : Obligations.DecodingFollowsLengthRule := by
  intro op rest htab
  refine ⟨⟨?_, ?_⟩, decode_malformed htab⟩
  · rintro ⟨i, hi⟩
    by_contra hlen
    rw [decode_malformed htab hlen] at hi
    cases hi
  · intro hlen
    rcases decode_followsLength htab rest with ⟨_, hi⟩ | ⟨hn, _⟩
    · exact hi
    · exact absurd hlen hn

end Sys2Proof.Proofs
end

section
/-! PROOFS. The host port (spec 30_encoding.md R80, R85, R86): what one step makes of the next host
word. -/

namespace Sys2Proof.Proofs

open Sys2Proof.Machine Sys2Proof.Laws

section Port

variable {s : State} {w : List Byte} {more : List HostEvent}

/-- A step with a host word next is that word's event (R80). -/
theorem step_word (hw : s.host = .word w :: more) :
    step s = State.hostEvent (.word w) { s with host := more } := by
  unfold step
  rw [hw]

/-- A busy port drops the word (R80). -/
theorem step_busy (hw : s.host = .word w :: more) (hb : s.pe.busy = true) :
    step s = .next { s with host := more } :=
  (step_word hw).trans (if_pos hb)

/-- An idle port accepts the word (R80). -/
theorem step_idle (hw : s.host = .word w :: more) (hb : s.pe.busy = false) :
    step s = present w { s with host := more } :=
  (step_word hw).trans (if_neg (Bool.eq_false_iff.mp hb))

/-- A word that decodes runs its operation (R80). -/
theorem present_instr {i : Instr} (hd : decode w = .instr i) : present w s = exec i s.accepted := by
  rw [present, hd]

/-- A code raised on an accepted word: BUSY is back at 0, so RESULT and COUNT are all that is written
(R80, R196). -/
theorem accepted_raiseCode (hb : s.pe.busy = false) (c : Result) :
    s.accepted.raiseCode c = { s with
      pe := { s.pe with result := c, count := 0 }
      sent := s.sent ++ [[c.code.setWidth 8, 0]] } := by
  simp [State.accepted, State.raiseCode, State.respond, Response.bytes, hb]

/-- A client operation with the extension off (R170). -/
theorem exec_clientOff {i : Instr} (hop : clientOp i.opcode = true)
    (hoff : s.cfg.extClient = false) : exec i s = .next (s.raiseCode .badOp) := by
  have hno : ¬ s.cfg.extClient = true := by simp [hoff]
  cases i with
  | configure | loadkey | auth | rdblk | wrblk | rdpage | wrpage => exact if_neg hno
  | _ => cases hop

/-- A word whose op code is illegal, or reserved with the extension off (R85, R170). -/
theorem present_illegal {op : Byte} (rest : List Byte) (hbase : baseOp op = false)
    (hclient : clientOp op = true → s.cfg.extClient = false) :
    present (op :: rest) s = .next (s.accepted.raiseCode .badOp) := by
  cases hc : clientOp op with
  | false => rw [present, decode, decodeOp_untabled (by rw [hbase, hc]; rfl)]
  | true =>
    have htab : (baseOp op || clientOp op) = true := by rw [hbase, hc]; rfl
    rcases decode_followsLength htab rest with ⟨_, i, hd⟩ | ⟨_, hd⟩
    · obtain ⟨rfl, _, _⟩ := decodeOp_eq_instr.mp hd
      exact (present_instr hd).trans (exec_clientOff hc (hclient hc))
    · rw [present, hd]
      exact if_pos ⟨hc, hclient hc⟩

/-- A word whose op code is legal but whose length is not the required one (R86). -/
theorem present_malformed {op : Byte} {rest : List Byte}
    (hop : baseOp op = true ∨ (clientOp op = true ∧ s.cfg.extClient = true))
    (hlen : wordLength (op :: rest) ≠ some (rest.length + 1)) :
    present (op :: rest) s = .next (s.accepted.raiseCode .badArg) := by
  have htab : (baseOp op || clientOp op) = true :=
    Bool.or_eq_true_iff.mpr (hop.imp_right And.left)
  have hlegal : ¬ (clientOp op = true ∧ s.cfg.extClient = false) := by
    rintro ⟨hc, hoff⟩
    rcases hop with hb | ⟨_, hon⟩
    · simp only [baseOp, clientOp, Bool.and_eq_true, decide_eq_true_eq] at hb hc
      omega
    · simp [hon] at hoff
  rw [present, decode_malformed htab hlen]
  exact if_neg hlegal

end Port

/-- Settles O5. -/
theorem stepRunsDecodedInstruction : Obligations.StepRunsDecodedInstruction :=
  fun _ _ _ _ hw hb hd => (step_idle hw hb).trans (present_instr hd)

/-- Settles O6. -/
theorem illegalOpcodeAnswersBadOp : Obligations.IllegalOpcodeAnswersBadOp := by
  intro s op rest more hw hb hbase hclient
  calc step s = present (op :: rest) { s with host := more } := step_idle hw hb
    _ = .next (State.raiseCode _ (State.accepted _)) := present_illegal rest hbase hclient
    _ = _ := congrArg _ (accepted_raiseCode (s := { s with host := more }) hb _)

/-- Settles O7. -/
theorem malformedWordAnswersBadArg : Obligations.MalformedWordAnswersBadArg := by
  intro s op rest more hw hb hop hlen
  calc step s = present (op :: rest) { s with host := more } := step_idle hw hb
    _ = .next (State.raiseCode _ (State.accepted _)) := present_malformed hop hlen
    _ = _ := congrArg _ (accepted_raiseCode (s := { s with host := more }) hb _)

/-- Settles O8. -/
theorem busyPortIgnoresWords : Obligations.BusyPortIgnoresWords :=
  fun _ _ _ hw hb => step_busy hw hb

end Sys2Proof.Proofs
end

section
/-! PROOFS. What an operation answers (spec 30_encoding.md R80, R84; 60_exceptions.md R191, R196): one
response unless RESET struck, with one of the operation's codes, and nothing but the code where that is
no normal result. -/

namespace Sys2Proof.Proofs

open Sys2Proof.Machine Sys2Proof.Laws

/-! ### One response, or RESET -/

/-- The two ends R80 and R220 leave an operation: one response and a free port, or RESET. -/
def Served (s t : State) : Prop :=
  (∃ r, t.sent = s.sent ++ [r] ∧ t.pe.busy = false) ∨
  (t.sent = s.sent ∧ t.pe = Regs.afterReset s.cfg)

theorem served_respond {s u : State} (hu : u.sent = s.sent) (x : Response) :
    Served s (u.respond x) :=
  .inl ⟨x.bytes, by rw [respond_sent, hu], rfl⟩

theorem served_fail {s u : State} (hu : u.sent = s.sent) (c : Result) : Served s (u.fail c) :=
  .inl ⟨_, by rw [fail_sent, hu], rfl⟩

theorem served_cut {s t : State} : CutReached s t → Served s t
  | ⟨_, ⟨_, hu⟩, ht⟩ => .inr ⟨by rw [ht, resetPe_sent, hu.sent], by rw [ht, resetPe_pe, hu.cfg]⟩

theorem sent_of_reached {s t : State} : Reached s t → t.sent = s.sent
  | ⟨_, h⟩ => h.sent

theorem served_ends {Q : State → Prop} {s t : State} (h : Ends Q s t)
    (hQ : ∀ u, Q u → Reached s u) : Served s t := by
  rcases h with ⟨x, u, hu, rfl⟩ | hc
  · exact served_respond (sent_of_reached (hQ u hu)) x
  · exact served_cut hc

theorem served_attempt {s t : State} (h : AttemptEnd s t) : Served s t := by
  rcases h with ⟨r, u, v, hu, hv, rfl⟩ | ⟨c, u, _, hu, rfl⟩ | hc
  · have hsent : v.sent = u.sent := by rcases hv with ⟨_, _, _, _, rfl⟩ | ⟨_, rfl⟩ <;> rfl
    exact served_respond (hsent.trans (sent_of_reached hu)) r
  · exact served_fail ((sent_of_reached hu).trans (openAttempt_sent s)) c
  · exact (served_cut hc : Served s.openAttempt t)

theorem served_select {s t : State} (h : SelectEnd s t) : Served s t := by
  by_cases hq : s.pe.seq = .request
  · obtain ⟨n, u, hu, ⟨_, rfl⟩ | ⟨c, _, rfl⟩ | rfl⟩ := selectEnd_admitted h hq
    · exact served_respond hu.sent _
    · exact served_fail hu.sent c
    · exact .inr ⟨hu.sent, by rw [resetPe_pe, hu.cfg]⟩
  · rw [selectEnd_refused h hq]
    exact served_respond rfl _

/-- Settles O10: each end of `EndsAs` is one of the two. -/
theorem oneResponseUnlessReset : Obligations.OneResponseUnlessReset := by
  intro i s t h
  have he := exec_ends h
  cases i with
  | wrcmd | fifolen | fiford | fifowr | fifoclr | getstat =>
    exact served_ends he fun _ hu => hu.1
  | sreset =>
    rcases he with ⟨x, u, ⟨hu, _⟩, rfl⟩ | hc
    · exact served_respond ((dropAttempt_sent u).trans (sent_of_reached hu)) x
    · exact served_cut hc
  | reqa | wupa => exact served_attempt he
  | select => exact served_select he
  | rdctl | wrctl =>
    obtain ⟨p, x, _, _, rfl⟩ := he
    exact .inl ⟨x.bytes, rfl, rfl⟩
  | configure | loadkey | auth | rdblk | wrblk | rdpage | wrpage => exact served_ends he fun _ => id

/-! ### The code and the content of the response -/

/-- The results an operation completes with: OK and the normal negatives (R195). -/
def Completed (c : Result) : Prop := c = .ok ∨ c = .noTag ∨ c = .authRejected

/-- A response with one of `codes`, which carries nothing else unless it reports a completed operation
(R84, R196). -/
def Legitimate (codes : List Result) (x : Response) : Prop :=
  x.code ∈ codes ∧ (Completed x.code ∨ (x.count = 0 ∧ x.data = []))

/-- An operation answered so, or RESET struck and it sent nothing (R220). -/
def Answered (codes : List Result) (s t : State) : Prop :=
  (∃ (x : Response) (u : State), Legitimate codes x ∧ u.sent = s.sent ∧ t = u.respond x) ∨ t.sent = s.sent

section Answers

variable {codes : List Result} {s t : State} {r : Reply Response}

theorem answered_raiseCode {c : Result} (hc : c ∈ codes) : Answered codes s (s.raiseCode c) :=
  .inl ⟨_, s, ⟨hc, .inr ⟨rfl, rfl⟩⟩, rfl, rfl⟩

/-- What the reply of an operation with `codes` meets, against any device. -/
def Replies (codes : List Result) (s : State) (r : Reply Response) : Prop :=
  Post r (fun x u => (x.code ∈ codes ∧ Completed x.code) ∧ u.sent = s.sent)
    (fun c u => c ∈ codes ∧ u.sent = s.sent) fun u => u.sent = s.sent

theorem Replies.finish (h : Replies codes s r) : Answered codes s r.finish := by
  cases r with
  | ok x u => exact .inl ⟨x, u, ⟨h.1.1, .inl h.1.2⟩, h.2, rfl⟩
  | err c u => exact .inl ⟨_, u, ⟨h.1, .inr ⟨rfl, rfl⟩⟩, h.2, rfl⟩
  | cut u => exact .inr h

theorem Replies.finishAttempt (h : Replies codes s r) : Answered codes s r.finishAttempt := by
  cases r with
  | ok x u => exact .inl ⟨x, u, ⟨h.1.1, .inl h.1.2⟩, h.2, rfl⟩
  | err c u =>
    exact .inl ⟨_, { u with pe := { u.pe.clearTag with seq := .failed } },
      ⟨h.1, .inr ⟨rfl, rfl⟩⟩, h.2, rfl⟩
  | cut u => exact .inr h

/-- From what a procedure's `_post` lemma says of its value and its code. -/
theorem Replies.of_post {Q : Response → Prop} {E : Result → Prop}
    (h : Post r (fun x u => Q x ∧ Reached s u) (fun c u => E c ∧ Reached s u) (CutReached s))
    (hQ : ∀ x, Q x → x.code ∈ codes ∧ Completed x.code) (hE : ∀ c, E c → c ∈ codes) :
    Replies codes s r :=
  h.mono (fun x _ h => ⟨hQ x h.1, sent_of_reached h.2⟩) (fun c _ h => ⟨hE c h.1, sent_of_reached h.2⟩)
    fun _ h => sent_of_cutReached h

/-- A raw operation (R101 to R108, R121, R122): OK with a response made of the procedure's value, or
COMM_ERR. -/
theorem replies_raw {α : Type} {n : Nat} {r : Reply α} {P : α → State → Prop} (f : α → Response)
    (h : Post r P (fun c u => c = .commErr ∧ Within n s u ∧ u.pe = s.pe) (CutWithin n s))
    (hP : ∀ a u, P a u → Within n s u) (hf : ∀ a, (f a).code = .ok) :
    Replies [.ok, .commErr] s (r.bind fun a u => .ok (f a) u) :=
  h.bind (fun c _ h => ⟨by simp [h.1], h.2.1.sent⟩) (fun _ h => sent_of_cutReached h.reached)
    fun a u h => ⟨⟨by simp [hf a], .inl (hf a)⟩, (hP a u h).sent⟩

theorem completed_ok {c : Result} (h : c = .ok) (hm : .ok ∈ codes) : c ∈ codes ∧ Completed c :=
  ⟨h ▸ hm, .inl h⟩

/-- The codes of an exchange, in a list that holds them all (R128). -/
theorem xchgCode_mem {c : Result} (h : XchgCode c)
    (hm : [.commErr, .timeout, .protoCollision, .protoCrc, .protoShort] ⊆ codes) : c ∈ codes := by
  refine hm ?_
  rcases h with (rfl | rfl | rfl | rfl) | rfl <;> decide

/-- REQA and WUPA (R142 to R145). -/
theorem request_replies (cmd : Byte) (s : State) :
    Replies [.ok, .noTag, .commErr, .timeout, .protoCollision, .protoCrc, .protoShort] s
      (request cmd s) := by
  refine (request_post cmd s).mono (fun x v h => ?_)
    (fun c _ h => ⟨xchgCode_mem h.1 (by simp), h.2.sent⟩) fun _ h =>
      (sent_of_cutReached h.reached).trans (openAttempt_sent s)
  obtain ⟨u, hu, ⟨d0, d1, _, rfl, rfl⟩ | ⟨rfl, rfl⟩⟩ := h
  · exact ⟨⟨by simp, .inl rfl⟩, hu.sent⟩
  · exact ⟨⟨by simp, .inr (.inl rfl)⟩, hu.sent⟩

/-- The cascade loop of SELECT (R147, R148), from any state. -/
theorem selectLevels_replies : ∀ (levels : List Nat) (s : State),
    Replies [.ok, .badSeq, .commErr, .timeout, .protoCollision, .protoCrc, .protoShort, .protoCascade]
      s (selectLevels levels s)
  | [], s => ⟨by simp, rfl⟩
  | level :: more, s => by
    refine (xchg_post _ _ _ _ _).bind (fun c _ h => ⟨xchgCode_mem h.1 (by simp), h.2.sent⟩)
      (fun _ h => (sent_of_cutReached h.reached).trans rfl) fun d t h => ?_
    have hsent : t.sent = s.sent := h.2.sent
    dsimp only
    split
    · exact ⟨by simp, hsent⟩
    · exact ⟨by simp, hsent⟩
    · rename_i f1 f2 f3 _
      exact (selectLevels_replies more (t.keepFragment f1 f2 f3)).mono
        (fun _ _ h => ⟨h.1, h.2.trans hsent⟩) (fun _ _ h => ⟨h.1, h.2.trans hsent⟩)
        fun _ h => h.trans hsent
    · exact ⟨⟨by simp [selectResponse], .inl rfl⟩, hsent⟩

theorem execSelect_answers (h : execSelect s = .next t) :
    Answered [.ok, .badSeq, .commErr, .timeout, .protoCollision, .protoCrc, .protoShort,
      .protoCascade] s t := by
  unfold execSelect at h
  split at h
  · obtain rfl := polling_next h
    exact (selectLevels_replies [1, 2, 3] { s with pe := { s.pe with seq := .select } }).finishAttempt
  · obtain rfl := Host.Outcome.next.inj h
    exact answered_raiseCode (by simp)

theorem execSreset_answers (h : execSreset s = .next t) : Answered [.ok, .commErr] s t := by
  have hw := writeCommand_post s.cfg.icCmdSoftReset [] s
  obtain rfl := Host.Outcome.next.inj h
  cases hr : writeCommand s.cfg.icCmdSoftReset [] s with
  | ok k u =>
    rw [hr] at hw
    exact .inl ⟨_, u.dropAttempt, ⟨by simp, .inl (.inl rfl)⟩, hw.2.1.sent, rfl⟩
  | err c u =>
    rw [hr] at hw
    exact .inl ⟨_, u.dropAttempt, ⟨by simp [hw.1], .inr ⟨rfl, rfl⟩⟩, hw.2.1.sent, rfl⟩
  | cut u =>
    rw [hr] at hw
    exact .inr (sent_of_cutReached (CutWithin.reached hw))

/-! ### The client operations -/

/-- A client operation (R170): BAD_OP, or what it answers with the extension on. -/
theorem ifClient_answers {f : Host.Outcome State Fault Refusal} (h : ifClient s f = .next t)
    (hf : f = .next t → Answered codes s t) :
    Answered (if s.cfg.extClient then codes else [.badOp]) s t := by
  unfold ifClient at h
  split at h
  next hon => rw [if_pos hon]; exact hf h
  next hoff =>
    rw [if_neg hoff, ← Host.Outcome.next.inj h]
    exact answered_raiseCode (by simp)

theorem execConfigure_answers (profile : Byte) (h : execConfigure profile s = .next t) :
    Answered (allowedCodes s.cfg (.configure profile)) s t := by
  refine ifClient_answers h fun h => ?_
  obtain rfl := Host.Outcome.next.inj h
  split
  · exact answered_raiseCode (by simp)
  next pairs _ =>
    refine (Replies.of_post (Q := fun x => x.code = .ok) (E := fun c => c = .commErr) ?_
      (fun x hx => completed_ok hx (by simp)) fun c hc => by simp [hc]).finish
    refine (writePairs_post pairs s).bind (fun _ _ h => h) (fun _ h => h) fun _ u hu => ?_
    refine ((checkPairs_post pairs u).reached hu.2).bind (fun _ _ h => h) (fun _ h => h)
      fun _ v hv => ?_
    exact ((freeCount_post .ok v).reached hv.2).mono (fun _ _ h => ⟨h.1.1, h.2⟩)
      (fun _ _ h => h.1.elim) fun _ h => h

theorem execLoadkey_answers (key : List Byte) (h : execLoadkey key s = .next t) :
    Answered (allowedCodes s.cfg (.loadkey key)) s t :=
  ifClient_answers h fun h => pollingPlan_next h ▸
    (Replies.of_post (loadKeyEnd_post _ key (runClient_post _ _ [] s))
      (fun x hx => completed_ok hx.1 (by simp)) fun c hc => by simp [hc]).finish

theorem execAuth_answers (keyType blockNum : Byte) (uid : List Byte)
    (h : execAuth keyType blockNum uid s = .next t) :
    Answered (allowedCodes s.cfg (.auth keyType blockNum uid)) s t := by
  refine ifClient_answers h fun h => ?_
  split at h
  · obtain rfl := polling_next h
    refine (Replies.of_post (authEnd_post (E := XchgCode) ?_) ?_ ?_).finish
    · refine (runClient_post _ _ [] s).bind (fun _ _ h => h) (fun _ h => h) fun _ u hu => ?_
      refine (poll_post u).bind (fun _ _ h => ⟨.inl h.1, hu.2.trans h.2.reached⟩)
        (fun _ h => h.reached.after hu.2) fun _ v hv => ?_
      exact ((authVerdict_post v).reached (hu.2.trans hv.reached)).mono (fun _ _ h => h)
        (fun _ _ h => ⟨.inl (.inl h.1), h.2⟩) fun _ h => h
    · rintro x ⟨hx | hx, _⟩
      · exact completed_ok hx (by simp)
      · exact ⟨by simp [hx], .inr (.inr hx)⟩
    · rintro c (rfl | rfl) <;> simp
  · obtain rfl := Host.Outcome.next.inj h
    exact answered_raiseCode (by simp)

/-- A client read (R175, R177). -/
theorem clientRead_replies (icop : Byte) (params : List Byte) (need : Nat) (s : State) :
    Replies [.ok, .commErr, .timeout, .protoCollision, .protoCrc, .protoShort] s
      (clientRead icop params need s) :=
  .of_post (clientRead_post icop params need s)
    (fun x hx => completed_ok (by rw [hx.1]; rfl) (by simp)) fun _ hc => xchgCode_mem hc (by simp)

/-- A client write (R176, R178). -/
theorem clientWrite_replies (operands : List Byte) (plan : List ClientStep)
    (ack : Option (List Byte)) (n : Nat) (s : State) :
    Replies [.ok, .commErr, .timeout, .protoCollision, .protoCrc, .protoShort] s
      (clientWrite operands plan ack n s) :=
  .of_post (clientWrite_post operands plan ack n s)
    (fun x hx => completed_ok (by rw [hx]; rfl) (by simp)) fun _ hc => xchgCode_mem hc (by simp)

/-- Every operation that writes RESULT answers with one of its codes (R84, R191), against any device. -/
theorem exec_answers {i : Instr} (hi : allowedCodes s.cfg i ≠ []) (h : exec i s = .next t) :
    Answered (allowedCodes s.cfg i) s t := by
  cases i with
  | wrcmd icop params =>
    exact Host.Outcome.next.inj h ▸
      (replies_raw _ (writeCommand_post icop params s) (fun _ _ h => h.2.1) fun _ => rfl).finish
  | fifolen =>
    exact Host.Outcome.next.inj h ▸
      (replies_raw _ (fifoLength_post s) (fun _ _ h => h.2.1) fun _ => rfl).finish
  | fiford maxLen =>
    exact Host.Outcome.next.inj h ▸
      (replies_raw _ (readFifo_post _ s) (fun _ _ h => h.2.1) fun _ => rfl).finish
  | fifowr data =>
    exact Host.Outcome.next.inj h ▸
      (replies_raw _ (writeFifo_post data s) (fun _ _ h => h.2.1) fun _ => rfl).finish
  | fifoclr =>
    exact Host.Outcome.next.inj h ▸
      (replies_raw _ (clearFifo_post s) (fun _ _ h => h.1) fun _ => rfl).finish
  | getstat =>
    exact Host.Outcome.next.inj h ▸
      (replies_raw _ (tRead_post _ s) (fun _ _ h => h.1) fun _ => rfl).finish
  | sreset => exact execSreset_answers h
  | reqa | wupa => exact polling_next h ▸ (request_replies _ s).finishAttempt
  | select => exact execSelect_answers h
  | rdctl | wrctl => exact absurd rfl hi
  | configure profile => exact execConfigure_answers profile h
  | loadkey key => exact execLoadkey_answers key h
  | auth keyType blockNum uid => exact execAuth_answers keyType blockNum uid h
  | rdblk | rdpage =>
    exact ifClient_answers h fun h => polling_next h ▸ (clientRead_replies _ _ _ s).finish
  | wrblk | wrpage =>
    exact ifClient_answers h fun h => pollingPlan_next h ▸ (clientWrite_replies _ _ _ _ s).finish

/-- Every operation but RDCTL and WRCTL has codes. -/
theorem allowedCodes_ne_nil (c : Cfg) {i : Instr} (hr : ∀ idx, i ≠ .rdctl idx)
    (hw : ∀ idx v, i ≠ .wrctl idx v) : allowedCodes c i ≠ [] := by
  cases i with
  | rdctl idx => exact absurd rfl (hr idx)
  | wrctl idx v => exact absurd rfl (hw idx v)
  | configure | loadkey | auth | rdblk | wrblk | rdpage | wrpage =>
    simp only [allowedCodes]
    split <;> exact List.cons_ne_nil _ _
  | _ => exact List.cons_ne_nil _ _

end Answers

/-- Settles O39: what is sent is legitimate (`exec_answers`), and RESULT is its code. -/
theorem resultCodesPerOperation : Obligations.ResultCodesPerOperation := by
  intro i s t hi h hs
  obtain ⟨x, u, hx, _, rfl⟩ := (exec_answers hi h).resolve_right hs
  exact hx.1

/-- Settles O11: the one response sent is the one whose RESULT and COUNT were written with it. -/
theorem responseMirrorsResultAndCount : Obligations.ResponseMirrorsResultAndCount := by
  intro i s t r hrd hwr h hsent
  rcases exec_answers (allowedCodes_ne_nil s.cfg hrd hwr) h with ⟨x, u, hx, hu, rfl⟩ | hno
  · rw [respond_sent, hu] at hsent
    obtain rfl : x.bytes = r := by simpa using hsent
    refine ⟨x.data, rfl, fun hok htag hauth => hx.2.resolve_left ?_⟩
    rintro (h | h | h)
    · exact hok h
    · exact htag h
    · exact hauth h
  · rw [hno] at hsent
    simp at hsent

end Sys2Proof.Proofs
end

section
/-! PROOFS. PE draws nothing (spec 30_encoding.md R92): what a procedure does next is fixed by the
configuration, PE's registers and the answers it has been given. Two runs are compared answer by answer:
`Coupled` for the replies of one procedure from two states, `Determined` for the procedure. -/

namespace Sys2Proof.Proofs

open Sys2Proof.Machine Sys2Proof.Laws

/-! ### Two runs side by side -/

/-- What PE sees of a state before it asks anything: the configuration and its own registers. -/
structure Alike (s s' : State) : Prop where
  cfg : s.cfg = s'.cfg
  pe  : s.pe = s'.pe

/-- Two replies with the same value or the same code, from states PE cannot tell apart. -/
inductive Agree {α : Type} : Reply α → Reply α → Prop where
  | ok (a : α) {t t' : State} (h : Alike t t') : Agree (.ok a t) (.ok a t')
  | err (c : Result) {t t' : State} (h : Alike t t') : Agree (.err c t) (.err c t')

/-- RESET did not strike. -/
def Uncut {α : Type} (r : Reply α) : Prop := ∀ t, r ≠ .cut t

/-- The answers of a stretch of traffic. -/
def answers (l : List BusStep) : List BusAnswer := l.map (·.answer)

/-- A reply from `s`: the traffic grew, nothing was sent. -/
structure Grown {α : Type} (s : State) (r : Reply α) : Prop where
  bus  : ∃ l, r.state.bus = s.bus ++ l
  sent : r.state.sent = s.sent

/-- The replies `r` from `s` and `r'` from `s'` of one procedure: where neither is cut and the answers
of one run do not depart from those of the other, the micro-steps are the same and so is the reply. `m`
and `m'` are what is answered afterwards. -/
structure Coupled {α : Type} (s s' : State) (r r' : Reply α) : Prop where
  left  : Grown s r
  right : Grown s' r'
  same  : ∀ (l l' : List BusStep) (m m' : List BusAnswer), Uncut r → Uncut r' →
    r.state.bus = s.bus ++ l → r'.state.bus = s'.bus ++ l' → answers l ++ m = answers l' ++ m' →
    l = l' ∧ Agree r r'

/-- A procedure that PE's registers and the answers determine. -/
def Determined {α : Type} (f : State → Reply α) : Prop :=
  ∀ s s', Alike s s' → Coupled s s' (f s) (f s')

section Replies

variable {α β : Type} {s s' t t' : State} {r r' : Reply α}

/-- A reply without a micro-step. -/
theorem Coupled.of_agree (h : Agree r r') (hb : r.state.bus = s.bus) (hb' : r'.state.bus = s'.bus)
    (hs : r.state.sent = s.sent) (hs' : r'.state.sent = s'.sent) : Coupled s s' r r' where
  left := ⟨⟨[], by simp [hb]⟩, hs⟩
  right := ⟨⟨[], by simp [hb']⟩, hs'⟩
  same l l' _ _ _ _ hl hl' _ := by
    rw [hb] at hl
    rw [hb'] at hl'
    rw [List.self_eq_append_right.mp hl, List.self_eq_append_right.mp hl']
    exact ⟨rfl, h⟩

theorem Coupled.ok (h : Alike s s') (a : α) : Coupled s s' (.ok a s) (.ok a s') :=
  .of_agree (.ok a h) rfl rfl rfl rfl

theorem Coupled.err (h : Alike s s') (c : Result) :
    Coupled s s' (.err c s : Reply α) (.err c s') :=
  .of_agree (.err c h) rfl rfl rfl rfl

/-- Writing PE's registers between two micro-steps is no traffic. -/
theorem Coupled.of_traffic (h : Coupled t t' r r') (hb : t.bus = s.bus) (hb' : t'.bus = s'.bus)
    (hs : t.sent = s.sent) (hs' : t'.sent = s'.sent) : Coupled s s' r r' where
  left := ⟨hb ▸ h.left.bus, h.left.sent.trans hs⟩
  right := ⟨hb' ▸ h.right.bus, h.right.sent.trans hs'⟩
  same l l' m m' := by
    rw [← hb, ← hb']
    exact h.same l l' m m'

/-- What follows a reply is more traffic, and nothing sent. -/
theorem bind_grown {f : α → State → Reply β} (hf : ∀ a, Determined (f a)) (r : Reply α) :
    Grown r.state (r.bind f) := by
  cases r with
  | ok a t => exact (hf a t t ⟨rfl, rfl⟩).left
  | err | cut => exact ⟨⟨[], (List.append_nil _).symm⟩, rfl⟩

theorem Grown.bind {f : α → State → Reply β} (h : Grown s r) (hf : ∀ a, Determined (f a)) :
    Grown s (r.bind f) := by
  obtain ⟨⟨l, hl⟩, hs⟩ := h
  obtain ⟨⟨k, hk⟩, hsk⟩ := bind_grown hf r
  exact ⟨⟨l ++ k, by rw [hk, hl, List.append_assoc]⟩, hsk.trans hs⟩

/-- The traffic of a reply and of what follows it. -/
theorem bind_traffic {f : α → State → Reply β} (hf : ∀ a, Determined (f a)) {l l1 : List BusStep}
    (hl1 : r.state.bus = s.bus ++ l1) (hl : (r.bind f).state.bus = s.bus ++ l) :
    ∃ k, l = l1 ++ k ∧ (r.bind f).state.bus = r.state.bus ++ k := by
  obtain ⟨k, hk⟩ := (bind_grown hf r).bus
  refine ⟨k, ?_, hk⟩
  rw [hk, hl1, List.append_assoc] at hl
  exact (List.append_cancel_left hl).symm

theorem Uncut.of_bind {f : α → State → Reply β} (h : Uncut (r.bind f)) : Uncut r := by
  rintro t rfl
  exact h t rfl

/-- Going on with the value keeps two runs side by side. -/
theorem Coupled.bind {f : α → State → Reply β} (h : Coupled s s' r r') (hf : ∀ a, Determined (f a)) :
    Coupled s s' (r.bind f) (r'.bind f) where
  left := h.left.bind hf
  right := h.right.bind hf
  same l l' m m' hu hu' hl hl' hm := by
    obtain ⟨l1, hl1⟩ := h.left.bus
    obtain ⟨l1', hl1'⟩ := h.right.bus
    obtain ⟨k, rfl, hk⟩ := bind_traffic hf hl1 hl
    obtain ⟨k', rfl, hk'⟩ := bind_traffic hf hl1' hl'
    simp only [answers, List.map_append, List.append_assoc] at hm
    obtain ⟨rfl, ha⟩ := h.same l1 l1' _ _ hu.of_bind hu'.of_bind hl1 hl1' hm
    have hm' := List.append_cancel_left hm
    cases ha with
    | ok a hst =>
      obtain ⟨rfl, hagree⟩ := (hf a _ _ hst).same k k' m m' hu hu' hk hk' hm'
      exact ⟨rfl, hagree⟩
    | err c hst =>
      obtain ⟨rfl, hagree⟩ := (Coupled.err hst c).same k k' m m' hu hu' hk hk' hm'
      exact ⟨rfl, hagree⟩

end Replies

/-! ### The micro-steps -/

/-- What PE takes an answer for (R50 to R55): a value, or COMM_ERR. -/
def ofAnswer {α : Type} (o : Option α) (u : State) : Reply α :=
  match o with
  | some a => .ok a u
  | none => .err .commErr u

/-- One micro-step from `s`: it enters the traffic with its answer, PE takes the answer as `read` says
or RESET strikes right after it. -/
def IsMicroStep {α : Type} (op : BusOp) (read : BusAnswer → Option α) (s : State) (r : Reply α) :
    Prop :=
  ∃ ans u, u.bus = s.bus ++ [⟨op, ans⟩] ∧ u.sent = s.sent ∧ Alike u s ∧
    (r = ofAnswer (read ans) u ∨ r = .cut u.resetPe)

section MicroSteps

variable {α : Type} {op : BusOp} {read : BusAnswer → Option α} {s s' : State} {r r' : Reply α}

@[simp] theorem ofAnswer_state (o : Option α) (u : State) : (ofAnswer o u).state = u := by
  cases o <;> rfl

theorem isMicroStep_conclude {u : State} (hu : Untouched s u) (m : EnvMove) (ans : BusAnswer)
    (hr : r = ofAnswer (read ans) (u.record m op ans)) :
    IsMicroStep op read s (conclude m r) := by
  refine ⟨ans, u.record m op ans, by rw [record_bus, hu.bus], hu.sent, ⟨hu.cfg, hu.pe⟩, ?_⟩
  unfold conclude
  split
  · exact .inr (by rw [hr, ofAnswer_state])
  · exact .inl hr

theorem IsMicroStep.grown (h : IsMicroStep op read s r) : Grown s r := by
  obtain ⟨ans, u, hb, hs, -, rfl | rfl⟩ := h
  · exact ⟨⟨_, by rw [ofAnswer_state, hb]⟩, by rw [ofAnswer_state, hs]⟩
  · exact ⟨⟨_, hb⟩, hs⟩

/-- One micro-step with the same answer leads to the same reply. -/
theorem IsMicroStep.coupled (ha : Alike s s') (h : IsMicroStep op read s r)
    (h' : IsMicroStep op read s' r') : Coupled s s' r r' where
  left := h.grown
  right := h'.grown
  same l l' m m' hu hu' hl hl' hm := by
    obtain ⟨ans, u, hb, -, hus, rfl | rfl⟩ := h
    · obtain ⟨ans', u', hb', -, hus', rfl | rfl⟩ := h'
      · rw [ofAnswer_state, hb] at hl
        rw [ofAnswer_state, hb'] at hl'
        obtain rfl := List.append_cancel_left hl
        obtain rfl := List.append_cancel_left hl'
        obtain rfl : ans = ans' := by simpa [answers] using congrArg List.head? hm
        have hst : Alike u u' :=
          ⟨hus.cfg.trans (ha.cfg.trans hus'.cfg.symm), hus.pe.trans (ha.pe.trans hus'.pe.symm)⟩
        refine ⟨rfl, ?_⟩
        cases read ans with
        | some a => exact .ok a hst
        | none => exact .err _ hst
      · exact absurd rfl (hu' _)
    · exact absurd rfl (hu _)

end MicroSteps

/-- What PE takes from the answer to a read (R51). -/
def valueOf : BusAnswer → Option Byte
  | .value b => some b
  | _ => none

/-- What PE takes from the answer to a write (R52) or a `Wait` (R63). -/
def doneOf : BusAnswer → Option Unit
  | .done => some ()
  | _ => none

/-- What PE takes from the answer to a bulk read (R53). -/
def bytesOf : BusAnswer → Option (List Byte)
  | .bytes bs => some bs
  | _ => none

/-- What PE takes from the answer to a bulk write (R54). -/
def countOf : BusAnswer → Option Nat
  | .count n => some n
  | _ => none

theorem tRead_isMicroStep (a : Byte) (s : State) :
    IsMicroStep (.read a) valueOf s (tRead a s) := by
  have hu := arrive_untouched (.read a) s
  unfold tRead
  dsimp only
  split
  · exact isMicroStep_conclude hu _ .failed rfl
  · exact isMicroStep_conclude hu _ (.value _) rfl

theorem tWrite_isMicroStep (a v : Byte) (s : State) :
    IsMicroStep (.write a v) doneOf s (tWrite a v s) := by
  have hu := (arrive_untouched (.write a v) s).trans
    (written_untouched (s.moveFor (.write a v)) a v _)
  unfold tWrite
  dsimp only
  split
  · exact isMicroStep_conclude hu _ .failed rfl
  · exact isMicroStep_conclude hu _ .done rfl

theorem tFifoRead_isMicroStep (n : Nat) (s : State) :
    IsMicroStep (.fifoRead n) bytesOf s (tFifoRead n s) := by
  have hu := (arrive_untouched (.fifoRead n) s).trans
    (fifoTaken_untouched (s.moveFor (.fifoRead n)) n _)
  unfold tFifoRead
  dsimp only
  split
  · exact isMicroStep_conclude hu _ .failed rfl
  · exact isMicroStep_conclude hu _ (.bytes _) rfl

theorem tFifoWrite_isMicroStep (bs : List Byte) (s : State) :
    IsMicroStep (.fifoWrite bs) countOf s (tFifoWrite bs s) := by
  have hu := (arrive_untouched (.fifoWrite bs) s).trans
    (fifoFilled_untouched (s.moveFor (.fifoWrite bs)) bs _)
  unfold tFifoWrite
  dsimp only
  split
  · exact isMicroStep_conclude hu _ .failed rfl
  · exact isMicroStep_conclude hu _ (.count _) rfl

theorem waitTicks_isMicroStep (n : Nat) (s : State) :
    IsMicroStep (.wait n) doneOf s (waitTicks n s) := by
  have hu := arrive_untouched (.wait n) s
  have hv : Untouched s { s.arrive (.wait n) with settle := (s.arrive (.wait n)).settle - n } :=
    ⟨hu.cfg, hu.host, hu.sent, hu.pe, hu.bus, hu.dev⟩
  exact isMicroStep_conclude hv _ .done rfl

theorem tRead_determined (a : Byte) : Determined (tRead a) := fun s s' h =>
  (tRead_isMicroStep a s).coupled h (tRead_isMicroStep a s')

theorem tWrite_determined (a v : Byte) : Determined (tWrite a v) := fun s s' h =>
  (tWrite_isMicroStep a v s).coupled h (tWrite_isMicroStep a v s')

theorem tFifoRead_determined (n : Nat) : Determined (tFifoRead n) := fun s s' h =>
  (tFifoRead_isMicroStep n s).coupled h (tFifoRead_isMicroStep n s')

theorem tFifoWrite_determined (bs : List Byte) : Determined (tFifoWrite bs) := fun s s' h =>
  (tFifoWrite_isMicroStep bs s).coupled h (tFifoWrite_isMicroStep bs s')

theorem waitTicks_determined (n : Nat) : Determined (waitTicks n) := fun s s' h =>
  (waitTicks_isMicroStep n s).coupled h (waitTicks_isMicroStep n s')

/-! ### The procedures -/

theorem fifoLength_determined : Determined fifoLength := by
  intro s s' h
  unfold fifoLength
  rw [← h.cfg]
  refine (tRead_determined _ s s' h).bind fun raw t t' ht => ?_
  rw [← ht.cfg]
  exact .ok ht _

theorem readFifo_determined (maxLen : Nat) : Determined (readFifo maxLen) := by
  intro s s' h
  refine (fifoLength_determined s s' h).bind fun occ t t' ht => ?_
  dsimp only
  split
  · exact .ok ht _
  · exact (tFifoRead_determined _ t t' ht).bind fun d u u' hu => .ok hu _

theorem writeFifo_determined (data : List Byte) : Determined (writeFifo data) := by
  intro s s' h
  refine (fifoLength_determined s s' h).bind fun occ t t' ht => ?_
  dsimp only
  rw [← ht.cfg]
  split
  · exact .ok ht _
  · exact (tFifoWrite_determined _ t t' ht).bind fun k u u' hu => .ok hu _

theorem clearFifo_determined : Determined clearFifo := by
  intro s s' h
  unfold clearFifo
  rw [← h.cfg]
  exact tWrite_determined _ _ s s' h

theorem writeCommand_determined (icop : Byte) (params : List Byte) :
    Determined (writeCommand icop params) := by
  intro s s' h
  unfold writeCommand
  rw [← h.cfg]
  refine (tWrite_determined _ _ s s' h).bind fun _ t t' ht => ?_
  split
  · exact .ok ht _
  · exact writeFifo_determined params t t' ht

theorem pollLoop_determined (b i : Half) : ∀ fuel, Determined (pollLoop b i fuel)
  | 0 => fun _ _ h => .err h _
  | fuel + 1 => by
    intro s s' h
    unfold pollLoop
    rw [← h.cfg]
    refine (tRead_determined _ s s' h).bind fun v t t' ht => ?_
    dsimp only
    rw [← ht.cfg, ← ht.pe]
    split
    · exact .ok ht _
    · exact .err ht _
    split
    · exact .err ht _
    · refine (waitTicks_determined _ t t' ht).bind fun _ u u' hu => ?_
      exact .of_traffic (pollLoop_determined b i fuel _ _ ⟨hu.cfg, by rw [hu.pe]⟩) rfl rfl rfl rfl

theorem poll_determined : Determined poll := by
  intro s s' h
  unfold poll
  rw [← h.pe]
  exact .of_traffic (pollLoop_determined _ _ _ _ _ ⟨h.cfg, rfl⟩) rfl rfl rfl rfl

theorem xchg_determined (fc icop : Byte) (params : List Byte) (need : Nat) :
    Determined (xchg fc icop params need) := by
  intro s s' h
  refine (clearFifo_determined s s' h).bind fun _ s1 s1' h1 => ?_
  rw [← h1.cfg]
  refine (tWrite_determined _ _ s1 s1' h1).bind fun _ s2 s2' h2 => ?_
  rw [← h2.cfg]
  refine (tWrite_determined _ _ s2 s2' h2).bind fun _ s3 s3' h3 => ?_
  refine (writeCommand_determined icop params s3 s3' h3).bind fun k s4 s4' h4 => ?_
  split
  · exact .err h4 _
  · exact (poll_determined s4 s4' h4).bind fun _ => readFifo_determined need

/-- The read of GETSTAT (R122). -/
theorem readStatus_determined : Determined fun s => tRead s.cfg.regStatus s := by
  intro s s' h
  dsimp only
  rw [← h.cfg]
  exact tRead_determined _ s s' h

/-- The command of SRESET (R123). -/
theorem sresetCommand_determined : Determined fun s => writeCommand s.cfg.icCmdSoftReset [] s := by
  intro s s' h
  dsimp only
  rw [← h.cfg]
  exact writeCommand_determined _ [] s s' h

theorem requestOutcome_determined (d : List Byte) : Determined (requestOutcome d) := by
  intro s s' h
  match d with
  | [] => exact .of_agree (.ok _ ⟨h.cfg, by rw [h.pe]⟩) rfl rfl rfl rfl
  | [_] | _ :: _ :: _ :: _ => exact .err h _
  | [d0, d1] =>
    unfold requestOutcome
    dsimp only
    split
    · exact .of_agree (.ok _ ⟨h.cfg, by rw [h.pe]⟩) rfl rfl rfl rfl
    · exact .of_agree (.ok _ ⟨h.cfg, by rw [h.pe]⟩) rfl rfl rfl rfl

theorem openAttempt_alike {s s' : State} (h : Alike s s') : Alike s.openAttempt s'.openAttempt :=
  ⟨h.cfg, by unfold State.openAttempt; rw [h.pe]⟩

theorem request_determined (cmd : Byte) : Determined (request cmd) := by
  intro s s' h
  unfold request
  rw [← h.cfg]
  exact .of_traffic ((xchg_determined _ _ _ _ _ _ (openAttempt_alike h)).bind
    requestOutcome_determined) rfl rfl rfl rfl

theorem keepFragment_alike {s s' : State} (h : Alike s s') (f1 f2 f3 : Byte) :
    Alike (s.keepFragment f1 f2 f3) (s'.keepFragment f1 f2 f3) :=
  ⟨by rw [keepFragment_cfg, keepFragment_cfg, h.cfg], by unfold State.keepFragment; rw [h.pe]⟩

theorem keepFinal_alike {s s' : State} (h : Alike s s') (f0 f1 f2 f3 sak : Byte) :
    Alike (s.keepFinal f0 f1 f2 f3 sak) (s'.keepFinal f0 f1 f2 f3 sak) :=
  ⟨by rw [keepFinal_cfg, keepFinal_cfg, h.cfg], by unfold State.keepFinal; rw [h.pe]⟩

theorem selectResponse_alike {s s' : State} (h : Alike s s') :
    selectResponse s = selectResponse s' := by
  unfold selectResponse
  rw [h.pe]

theorem selectLevels_determined : ∀ levels, Determined (selectLevels levels)
  | [] => fun _ _ h => .err h _
  | level :: more => by
    intro s s' h
    unfold selectLevels
    rw [← h.cfg]
    refine .of_traffic (.bind (xchg_determined _ _ _ _ _ _ ?level) fun d t t' ht => ?_) rfl rfl rfl rfl
    case level => exact ⟨rfl, by rw [h.pe]⟩
    dsimp only
    rw [← ht.cfg]
    split
    · exact .err ht _
    · exact .err ht _
    · rename_i f1 f2 f3 _
      exact .of_traffic (selectLevels_determined more _ _ (keepFragment_alike ht f1 f2 f3))
        (keepFragment_bus ..) (keepFragment_bus ..) (keepFragment_sent ..) (keepFragment_sent ..)
    · rename_i f0 f1 f2 f3 sak _
      have hkeep := keepFinal_alike ht f0 f1 f2 f3 sak
      rw [← selectResponse_alike hkeep]
      exact .of_agree (.ok _ hkeep) (keepFinal_bus ..) (keepFinal_bus ..) (keepFinal_sent ..)
        (keepFinal_sent ..)

/-! ### The operations -/

/-- What R92 says of two runs of one operation, from `s` to `t` and from `s'` to `t'`. -/
def SameRun (s s' t t' : State) : Prop :=
  ∀ (l l' : List BusStep) (r r' : List Byte), t.bus = s.bus ++ l → t'.bus = s'.bus ++ l' →
    answers l = answers l' → t.sent = s.sent ++ [r] → t'.sent = s'.sent ++ [r'] →
    l = l' ∧ r = r' ∧ t.pe = t'.pe

/-- How an operation ends on its procedure's reply: RESET leaves the state, any other reply is answered;
replies that agree are answered alike. -/
structure Closing {α : Type} (close : Reply α → State) : Prop where
  cut  : ∀ u, close (.cut u) = u
  bus  : ∀ r, (close r).bus = r.state.bus
  sent : ∀ r r', Agree r r' → ∃ x, (close r).sent = r.state.sent ++ [x] ∧
    (close r').sent = r'.state.sent ++ [x]
  pe   : ∀ r r', Agree r r' → (close r).pe = (close r').pe

theorem uncut_of_sent {α : Type} {close : Reply α → State} (hc : Closing close) {s : State}
    {r : Reply α} (hg : Grown s r) {x : List Byte} (hs : (close r).sent = s.sent ++ [x]) :
    Uncut r := by
  rintro u rfl
  rw [hc.cut, show u.sent = s.sent from hg.sent] at hs
  simp at hs

/-- Two runs side by side, each closed by its response. -/
theorem Coupled.sameRun {α : Type} {close : Reply α → State} (hc : Closing close) {s s' : State}
    {r r' : Reply α} (h : Coupled s s' r r') : SameRun s s' (close r) (close r') := by
  intro l l' x x' hb hb' hm hs hs'
  rw [hc.bus] at hb hb'
  obtain ⟨rfl, ha⟩ := h.same l l' [] [] (uncut_of_sent hc h.left hs) (uncut_of_sent hc h.right hs')
    hb hb' (by rw [hm])
  obtain ⟨y, hy, hy'⟩ := hc.sent r r' ha
  rw [hy, h.left.sent] at hs
  rw [hy', h.right.sent] at hs'
  obtain rfl : y = x := by simpa using hs
  obtain rfl : y = x' := by simpa using hs'
  exact ⟨rfl, rfl, hc.pe r r' ha⟩

theorem respond_pe_alike {s s' : State} (h : Alike s s') (x : Response) :
    (s.respond x).pe = (s'.respond x).pe := by
  unfold State.respond
  rw [h.pe]

theorem fail_pe_alike {s s' : State} (h : Alike s s') (c : Result) :
    (s.fail c).pe = (s'.fail c).pe := by
  unfold State.fail State.raiseCode State.respond
  rw [h.pe]

theorem finish_closing : Closing Reply.finish where
  cut _ := rfl
  bus r := by cases r <;> rfl
  sent := by
    rintro _ _ (⟨x, -⟩ | ⟨c, -⟩)
    · exact ⟨x.bytes, rfl, rfl⟩
    · exact ⟨_, rfl, rfl⟩
  pe := by
    rintro _ _ (⟨x, h⟩ | ⟨c, h⟩)
    · exact respond_pe_alike h x
    · exact respond_pe_alike h _

theorem finishAttempt_closing : Closing Reply.finishAttempt where
  cut _ := rfl
  bus r := by cases r <;> rfl
  sent := by
    rintro _ _ (⟨x, -⟩ | ⟨c, -⟩)
    · exact ⟨x.bytes, rfl, rfl⟩
    · exact ⟨_, rfl, rfl⟩
  pe := by
    rintro _ _ (⟨x, h⟩ | ⟨c, h⟩)
    · exact respond_pe_alike h x
    · exact fail_pe_alike h c

/-- The end of SRESET (R123). -/
def closeSreset : Reply Nat → State
  | .ok _ s => s.dropAttempt.respond { code := .ok, count := 0, data := [] }
  | .err c s => s.dropAttempt.raiseCode c
  | .cut s => s

theorem execSreset_eq (s : State) :
    execSreset s = .next (closeSreset (writeCommand s.cfg.icCmdSoftReset [] s)) := by
  unfold execSreset closeSreset
  cases writeCommand s.cfg.icCmdSoftReset [] s <;> rfl

theorem dropAttempt_alike {s s' : State} (h : Alike s s') : Alike s.dropAttempt s'.dropAttempt :=
  ⟨h.cfg, by unfold State.dropAttempt; rw [h.pe]⟩

theorem closeSreset_closing : Closing closeSreset where
  cut _ := rfl
  bus r := by cases r <;> rfl
  sent := by
    rintro _ _ (⟨x, -⟩ | ⟨c, -⟩)
    · exact ⟨_, rfl, rfl⟩
    · exact ⟨_, rfl, rfl⟩
  pe := by
    rintro _ _ (⟨x, h⟩ | ⟨c, h⟩)
    · exact respond_pe_alike (dropAttempt_alike h) _
    · exact respond_pe_alike (dropAttempt_alike h) _

/-- A raw operation: the response made of the procedure's value. -/
theorem sameRun_raw {α : Type} {s s' : State} {r r' : Reply α} (f : α → Response)
    (h : Coupled s s' r r') :
    SameRun s s' (r.bind fun a u => .ok (f a) u).finish (r'.bind fun a u => .ok (f a) u).finish :=
  (h.bind fun a _ _ hu => .ok hu (f a)).sameRun finish_closing

theorem sameRun_of_next {s s' t t' u u' : State}
    (h : (.next u : Host.Outcome State Fault Refusal) = .next t)
    (h' : (.next u' : Host.Outcome State Fault Refusal) = .next t') (hr : SameRun s s' u u') :
    SameRun s s' t t' := by
  cases h
  cases h'
  exact hr

/-- A control operation (R129, R130): no micro-step, one answer. -/
theorem sameRun_answer {s s' u u' : State} (x : Response) (hu : u.bus = s.bus) (hu' : u'.bus = s'.bus)
    (hs : u.sent = s.sent) (hs' : u'.sent = s'.sent) (hpe : u.pe = u'.pe) :
    SameRun s s' (u.answer x) (u'.answer x) := by
  intro l l' r r' hb hb' _ hr hr'
  rw [answer_bus, hu] at hb
  rw [answer_bus, hu'] at hb'
  rw [answer_sent, hs] at hr
  rw [answer_sent, hs'] at hr'
  refine ⟨?_, ?_, ?_⟩
  · rw [List.self_eq_append_right.mp hb, List.self_eq_append_right.mp hb']
  · have h1 : x.bytes = r := by simpa using hr
    have h2 : x.bytes = r' := by simpa using hr'
    rw [← h1, h2]
  · unfold State.answer
    rw [hpe]

theorem ctlRead_alike {s s' : State} (h : Alike s s') (idx : Byte) : ctlRead s idx = ctlRead s' idx := by
  unfold ctlRead
  rw [h.cfg, h.pe]

theorem execRdctl_sameRun {s s' t t' : State} {idx : Byte} (ha : Alike s s')
    (h : execRdctl idx s = .next t) (h' : execRdctl idx s' = .next t') : SameRun s s' t t' := by
  unfold execRdctl at h h'
  rw [← ctlRead_alike ha] at h'
  obtain rfl := Host.Outcome.next.inj h
  obtain rfl := Host.Outcome.next.inj h'
  cases ctlRead s idx with
  | some v => exact sameRun_answer _ rfl rfl rfl rfl ha.pe
  | none => exact sameRun_answer _ rfl rfl rfl rfl ha.pe

theorem execWrctl_sameRun {s s' t t' : State} {idx : Byte} {value : Half} (ha : Alike s s')
    (h : execWrctl idx value s = .next t) (h' : execWrctl idx value s' = .next t') :
    SameRun s s' t t' := by
  obtain rfl := Host.Outcome.next.inj h
  obtain rfl := Host.Outcome.next.inj h'
  split
  · exact sameRun_answer _ rfl rfl rfl rfl (by rw [ha.pe])
  split
  · exact sameRun_answer _ rfl rfl rfl rfl (by rw [ha.pe])
  · exact sameRun_answer _ rfl rfl rfl rfl ha.pe

theorem execSelect_sameRun {s s' t t' : State} (ha : Alike s s') (h : execSelect s = .next t)
    (h' : execSelect s' = .next t') : SameRun s s' t t' := by
  unfold execSelect at h h'
  rw [← ha.pe] at h'
  split at h
  next hq =>
    rw [if_pos hq] at h'
    obtain rfl := polling_next h
    obtain rfl := polling_next h'
    refine Coupled.sameRun finishAttempt_closing (.of_traffic
      (selectLevels_determined [1, 2, 3] _ _ ⟨ha.cfg, rfl⟩) rfl rfl rfl rfl)
  next hq =>
    rw [if_neg hq] at h'
    obtain rfl := Host.Outcome.next.inj h
    obtain rfl := Host.Outcome.next.inj h'
    exact (Coupled.err ha .badSeq).sameRun finish_closing

/-- Two runs of one operation of the block from states PE cannot tell apart (R92). -/
theorem exec_sameRun {i : Instr} {s s' t t' : State} (hi : baseOp i.opcode = true) (ha : Alike s s')
    (h : exec i s = .next t) (h' : exec i s' = .next t') : SameRun s s' t t' := by
  cases i with
  | wrcmd icop params =>
    exact sameRun_of_next h h' (sameRun_raw _ (writeCommand_determined icop params s s' ha))
  | fifolen => exact sameRun_of_next h h' (sameRun_raw _ (fifoLength_determined s s' ha))
  | fiford maxLen => exact sameRun_of_next h h' (sameRun_raw _ (readFifo_determined _ s s' ha))
  | fifowr data => exact sameRun_of_next h h' (sameRun_raw _ (writeFifo_determined data s s' ha))
  | fifoclr => exact sameRun_of_next h h' (sameRun_raw _ (clearFifo_determined s s' ha))
  | getstat => exact sameRun_of_next h h' (sameRun_raw _ (readStatus_determined s s' ha))
  | sreset =>
    exact sameRun_of_next ((execSreset_eq s).symm.trans h) ((execSreset_eq s').symm.trans h')
      ((sresetCommand_determined s s' ha).sameRun closeSreset_closing)
  | reqa | wupa =>
    obtain rfl := polling_next h
    obtain rfl := polling_next h'
    rw [← ha.cfg]
    exact (request_determined _ s s' ha).sameRun finishAttempt_closing
  | select => exact execSelect_sameRun ha h h'
  | rdctl => exact execRdctl_sameRun ha h h'
  | wrctl => exact execWrctl_sameRun ha h h'
  | configure | loadkey | auth | rdblk | wrblk | rdpage | wrpage => cases hi

/-- Settles O47: `exec_sameRun`, over the micro-steps (`IsMicroStep.coupled`) and the procedures made of
them (`Coupled.bind`). -/
theorem sameAnswersSameBehaviour : Obligations.SameAnswersSameBehaviour := by
  intro i s s' t t' l l' r r' hi hcfg hpe h h' hb hb' hm hs hs'
  exact exec_sameRun hi ⟨hcfg, hpe⟩ h h' l l' r r' hb hb' hm hs hs'

end Sys2Proof.Proofs
end

section
/-! PROOFS. The FIFO controller (spec 41_fifo_controller.md): FIFORD, FIFOWR and FIFOCLR where the
environment lets each primitive through, FIFORD and FIFOLEN against any device. The procedures'
`_quiet` and `_post` lemmas say what happens before the response; FIFOLEN's one read is described
here for whatever move the device makes. -/

namespace Sys2Proof.Proofs

open Sys2Proof.Machine Sys2Proof.Laws

/-! ### The four operations (R101, R104, R106, R108) -/

theorem exec_fifolen (s : State) :
    exec .fifolen s = .next ((fifoLength s).bind fun k s => .ok (countResponse k) s).finish := rfl

theorem exec_fiford (n : Byte) (s : State) :
    exec (.fiford n) s =
      .next ((readFifo n.toNat s).bind fun d s => .ok (dataResponse d) s).finish := rfl

theorem exec_fifowr (data : List Byte) (s : State) :
    exec (.fifowr data) s =
      .next ((writeFifo data s).bind fun k s => .ok (countResponse k) s).finish := rfl

theorem exec_fifoclr (s : State) :
    exec .fifoclr s = .next ((clearFifo s).bind fun _ s => .ok (countResponse 0) s).finish := rfl

@[simp] theorem finish_ok (x : Response) (s : State) : (Reply.ok x s).finish = s.respond x := rfl

@[simp] theorem finish_err (c : Result) (s : State) :
    (Reply.err c s : Reply Response).finish = s.raiseCode c := rfl

/-- What a response with a count and no data leaves (R84). -/
theorem respond_countResponse (s : State) (k : Nat) :
    s.respond (countResponse k) = { s with
      pe := { s.pe with result := .ok, count := BitVec.ofNat 8 k, busy := false }
      sent := s.sent ++ [[0x00, BitVec.ofNat 8 k]] } := rfl

/-- What a response with bytes and their number leaves (R84). -/
theorem respond_dataResponse (s : State) (d : List Byte) :
    s.respond (dataResponse d) = { s with
      pe := { s.pe with result := .ok, count := BitVec.ofNat 8 d.length, busy := false }
      sent := s.sent ++ [0x00 :: BitVec.ofNat 8 d.length :: d] } := rfl

/-- What COMM_ERR leaves of an operation outside the sequencer (R196). -/
theorem raiseCode_commErr (s : State) :
    s.raiseCode .commErr = { s with
      pe := { s.pe with result := .commErr, count := 0, busy := false }
      sent := s.sent ++ [[0x02, 0x00]] } := rfl

/-! ### FIFORD -/

/-- Settles O13: `readFifo_quiet` gives the bytes, what is left and the micro-steps. -/
theorem fifordDrainsOccupancy : Obligations.FifordDrainsOccupancy := by
  intro s n rest hlegal hf ⟨ha, hs⟩
  obtain ⟨l, hread, hops⟩ := readFifo_quiet ha hs (Legal.of hlegal).capMax hf
  refine ⟨l, hops, ?_⟩
  rw [exec_fiford, hread, bind_ok, finish_ok, respond_dataResponse, List.length_take]

/-- Settles O14: `readFifo_post` bounds the bytes and keeps PE; RESET would have sent nothing. -/
theorem fifordNeverExceedsRequest : Obligations.FifordNeverExceedsRequest := by
  intro s t n h hsent
  have hp := readFifo_post n.toNat s
  rw [exec_fiford] at h
  obtain rfl := Host.Outcome.next.inj h
  cases hr : readFifo n.toNat s with
  | ok d u =>
    rw [hr] at hp
    obtain ⟨hlen, hu, hpe⟩ := hp
    rw [bind_ok, finish_ok, respond_dataResponse]
    exact .inl ⟨d, hlen, by rw [hu.sent], by rw [hpe]⟩
  | err c u =>
    rw [hr] at hp
    obtain ⟨rfl, hu, hpe⟩ := hp
    rw [bind_err, finish_err, raiseCode_commErr]
    exact .inr ⟨by rw [hu.sent], by rw [hpe]⟩
  | cut u =>
    rw [hr] at hp hsent
    exact absurd (sent_of_cutReached (CutWithin.reached hp)) hsent

/-! ### FIFOWR -/

/-- The overflow guard (R105): what does not fit behind the reported occupancy makes no
difference. -/
theorem writeFifo_take_room {s t : State} {occ : Nat} (h : fifoLength s = .ok occ t)
    (data : List Byte) :
    writeFifo (data.take (t.cfg.fifoCap - occ)) s = writeFifo data s := by
  have hw : min (min (t.cfg.fifoCap - occ) data.length) (t.cfg.fifoCap - occ) =
      min data.length (t.cfg.fifoCap - occ) := by omega
  have hroom : min (min data.length (t.cfg.fifoCap - occ)) (t.cfg.fifoCap - occ) =
      min data.length (t.cfg.fifoCap - occ) := by omega
  simp only [writeFifo, h, bind_ok, List.length_take, List.take_take, hw, hroom]

/-- `writeFIFO` against a settled IC, guard and all (R105, R110): the first bytes that fit; one
micro-step when there is none, two otherwise. -/
theorem writeFifo_guarded {s : State} {ms : List EnvMove} {data : List Byte} {w : Nat}
    (hw : w = min data.length (s.cfg.fifoCap - s.dev.fifo.length))
    (ha : s.agent =
      .any ((if w = 0 then [EnvMove.quiet] else [EnvMove.quiet, EnvMove.quiet]) ++ ms))
    (hs : s.settle = 0) (hc : s.cfg.fifoCap ≤ 255) (hf : s.dev.fifo.length ≤ s.cfg.fifoCap) :
    ∃ l, writeFifo data s = .ok w
        { s with
          dev := { s.dev with fifo := s.dev.fifo ++ data.take w }, agent := .any ms
          bus := s.bus ++ l }
      ∧ l.map (·.op) = BusOp.read s.cfg.regFifoLength ::
          (if w = 0 then [] else [.fifoWrite (data.take w)]) := by
  have hocc : min s.dev.fifo.length s.cfg.fifoCap = s.dev.fifo.length := Nat.min_eq_left hf
  by_cases h0 : w = 0
  · rw [if_pos h0] at ha
    obtain ⟨v, hv⟩ := fifoLength_quiet ha hc
    refine ⟨[⟨.read s.cfg.regFifoLength, .value v⟩], ?_, by simp [h0]⟩
    simp only [writeFifo, hv, bind_ok, passed_cfg, hocc, ← hw, h0, if_true]
    simp [passed]
  · rw [if_neg h0] at ha
    obtain ⟨v, hv⟩ := fifoLength_quiet ha hc
    have hlen : (data.take w).length = w := by simp [hw]
    have hne : data.take w ≠ [] := List.ne_nil_of_length_pos (by omega)
    have htake : data.take w = data.take (s.cfg.fifoCap - s.dev.fifo.length) := by
      rw [hw, Nat.min_comm, ← List.take_take, List.take_length]
    have hguard : writeFifo (data.take w) s = writeFifo data s := by
      simpa [hocc, ← htake] using writeFifo_take_room hv data
    obtain ⟨l, hwrite, hops⟩ := writeFifo_quiet (ms := ms) hne ha hs hc (by omega)
    exact ⟨l, by rw [← hguard, hwrite, hlen], by rw [hops, if_neg h0]⟩

/-- Settles O15, by `writeFifo_guarded`. -/
theorem fifowrKeepsOverflowGuard : Obligations.FifowrKeepsOverflowGuard := by
  intro s data rest hlegal hf w ⟨ha, hs⟩
  obtain ⟨l, hwrite, hops⟩ := writeFifo_guarded (w := w) rfl ha hs (Legal.of hlegal).capMax hf
  refine ⟨l, hops, ?_⟩
  rw [exec_fifowr, hwrite, bind_ok, finish_ok, respond_countResponse]

/-! ### FIFOCLR -/

/-- Settles O16: `clearFifo_quiet` is the one write. -/
theorem fifoclrEmptiesFifo : Obligations.FifoclrEmptiesFifo := by
  intro s rest hlegal ⟨ha, hs⟩
  rw [exec_fifoclr, clearFifo_quiet (Legal.of hlegal) ha hs, bind_ok, finish_ok,
    respond_countResponse]
  rfl

/-! ### FIFOLEN -/

/-- A read that fails and that RESET does not follow (R55): COMM_ERR. -/
theorem tRead_failed {s : State} {a : Byte} (hf : (s.moveFor (.read a)).fails = true)
    (hr : (s.moveFor (.read a)).reset = false) :
    tRead a s = .err .commErr
      ((s.arrive (.read a)).record (s.moveFor (.read a)) (.read a) .failed) := by
  simp [tRead, conclude, hf, hr]

/-- A read of a settled IC at an address under a law (R51), which RESET does not follow: the
register's value after whatever the device did before it. -/
theorem tRead_lawful {s : State} {a : Byte} (ha : s.cfg.lawful a = true) (hs : s.settle = 0)
    (hf : (s.moveFor (.read a)).fails = false) (hr : (s.moveFor (.read a)).reset = false) :
    tRead a s = .ok ((s.arrive (.read a)).dev.readReg s.cfg a)
      ((s.arrive (.read a)).record (s.moveFor (.read a)) (.read a)
        (.value ((s.arrive (.read a)).dev.readReg s.cfg a))) := by
  simp [tRead, conclude, State.readValue, ha, hs, hf, hr]

/-- `fifoLength` of a settled IC (R100, R56): the occupancy the device has when it is asked. -/
theorem fifoLength_lawful {s : State} (hc : s.cfg.fifoCap ≤ 255) (hs : s.settle = 0)
    (hf : (s.moveFor (.read s.cfg.regFifoLength)).fails = false)
    (hr : (s.moveFor (.read s.cfg.regFifoLength)).reset = false) :
    fifoLength s =
      .ok (min (s.arrive (.read s.cfg.regFifoLength)).dev.fifo.length s.cfg.fifoCap)
        ((s.arrive (.read s.cfg.regFifoLength)).record (s.moveFor (.read s.cfg.regFifoLength))
          (.read s.cfg.regFifoLength)
          (.value (BitVec.ofNat 8
            (min (s.arrive (.read s.cfg.regFifoLength)).dev.fifo.length 255)))) := by
  rw [fifoLength, tRead_lawful (lawful_length s.cfg) hs hf hr, bind_ok, readReg_length,
    toNat_length, record_cfg, arrive_cfg, Nat.min_assoc, Nat.min_eq_right hc]

/-- Settles O12: `tRead_failed` where the read fails, `fifoLength_lawful` where it does not. -/
theorem fifolenReportsOccupancy : Obligations.FifolenReportsOccupancy := by
  intro s hlegal hs m d hreset
  rw [exec_fifolen]
  refine ⟨_, rfl, ?_⟩
  cases hf : m.fails with
  | true =>
    rw [fifoLength, tRead_failed hf hreset, bind_err, bind_err, finish_err,
      raiseCode_commErr]
    simp [hs, m, d]
  | false =>
    rw [fifoLength_lawful (Legal.of hlegal).capMax hs hf hreset, bind_ok, finish_ok,
      respond_countResponse]
    simp [hs, m, d]

end Sys2Proof.Proofs
end

section
/-! PROOFS. The command engine's raw operations (spec 42_command_engine.md R120 to R123, R129, R130): WRCMD
with and without parameters, GETSTAT, SRESET, RDCTL, WRCTL; and the verdict on one IRQ read (R125, R126). -/

namespace Sys2Proof.Proofs

open Sys2Proof.Machine Sys2Proof.Laws

/-! ### WRCMD, GETSTAT and SRESET -/

theorem exec_wrcmd (icop : Byte) (params : List Byte) (s : State) :
    exec (.wrcmd icop params) s =
      .next ((writeCommand icop params s).bind fun k s => .ok (countResponse k) s).finish := rfl

theorem exec_getstat (s : State) :
    exec .getstat s = .next ((tRead s.cfg.regStatus s).bind fun b s =>
      .ok { code := .ok, count := 1, data := [b] } s).finish := rfl

/-- `writeCommand` without parameters does not even query the FIFO (R120). -/
theorem writeCommand_nil (icop : Byte) (s : State) :
    writeCommand icop [] s = (tWrite s.cfg.regCommand icop s).bind fun _ s => .ok 0 s := rfl

/-- `writeCommand` with parameters (R120): the opcode register, then `writeFIFO`. -/
theorem writeCommand_params {params : List Byte} (h : params ≠ []) (icop : Byte) (s : State) :
    writeCommand icop params s = (tWrite s.cfg.regCommand icop s).bind fun _ s => writeFifo params s := by
  have hlen : params.length ≠ 0 := mt List.eq_nil_of_length_eq_zero h
  simp only [writeCommand, if_neg hlen]

/-- `writeCommand` against a settled IC (R120, R105): the opcode register, then the first parameter bytes
that fit. -/
theorem writeCommand_quiet {s : State} {icop : Byte} {params : List Byte} {ms : List EnvMove} {w : Nat}
    (hw : w = min params.length (s.cfg.fifoCap - s.dev.fifo.length)) (hl : Legal s.cfg)
    (ho : icop ≠ s.cfg.icCmdSoftReset) (hf : s.dev.fifo.length ≤ s.cfg.fifoCap) (hs : s.settle = 0)
    (ha : s.agent = .any ((if params = [] then [EnvMove.quiet] else if w = 0 then [.quiet, .quiet]
      else [.quiet, .quiet, .quiet]) ++ ms)) :
    ∃ l, l.map (·.op) = BusOp.write s.cfg.regCommand icop ::
        (if params = [] then [] else BusOp.read s.cfg.regFifoLength ::
          (if w = 0 then [] else [.fifoWrite (params.take w)])) ∧
      writeCommand icop params s = .ok w { s with
        dev := { s.dev with cmd := icop, fifo := s.dev.fifo ++ params.take w }
        agent := .any ms
        bus := s.bus ++ l } := by
  have hv : ¬ (s.cfg.regCommand = s.cfg.regCommand ∧ icop = s.cfg.icCmdSoftReset) := fun h => ho h.2
  by_cases h0 : params = []
  · subst h0
    obtain rfl : w = 0 := by simpa using hw
    refine ⟨[⟨.write s.cfg.regCommand icop, .done⟩], rfl, ?_⟩
    rw [writeCommand_nil, tWrite_quiet ha hs hv, bind_ok, writeReg_command hl _ _ ho]
    simp [passed]
  · have ha' : s.agent = .any (.quiet ::
        ((if w = 0 then [EnvMove.quiet] else [EnvMove.quiet, EnvMove.quiet]) ++ ms)) := by
      rw [ha, if_neg h0]
      split <;> rfl
    rw [writeCommand_params h0, tWrite_quiet ha' hs hv, bind_ok, writeReg_command hl _ _ ho]
    obtain ⟨l, hwrite, hops⟩ := writeFifo_guarded (s := passed s _ (.write s.cfg.regCommand icop) .done
      { s.dev with cmd := icop }) hw rfl hs hl.capMax hf
    refine ⟨⟨.write s.cfg.regCommand icop, .done⟩ :: l, ?_, ?_⟩
    · rw [List.map_cons, hops, if_neg h0]
      rfl
    · rw [hwrite]
      simp [passed]

/-- Settles O17, by `writeCommand_quiet`. -/
theorem wrcmdWritesOpcodeFirst : Obligations.WrcmdWritesOpcodeFirst := by
  intro s icop params rest hlegal ho hf w ⟨ha, hs⟩
  obtain ⟨l, hops, hwrite⟩ := writeCommand_quiet (w := w) rfl (Legal.of hlegal) ho hf hs ha
  refine ⟨l, hops, ?_⟩
  rw [exec_wrcmd, hwrite, bind_ok, finish_ok, respond_countResponse]

/-- What a write that RESET does not follow leaves beside the device (R52, R55). -/
structure WroteOnce (a v : Byte) (s u : State) : Prop where
  host : u.host = s.host
  cfg  : u.cfg = s.cfg
  sent : u.sent = s.sent
  pe   : u.pe = s.pe
  bus  : u.bus = s.bus ++ [⟨.write a v, if (s.moveFor (.write a v)).fails then .failed else .done⟩]

/-- A write that RESET does not follow, against any device: COMM_ERR exactly if it fails (R55). -/
theorem tWrite_once {a v : Byte} {s : State} (hr : (s.moveFor (.write a v)).reset = false) :
    ∃ u, WroteOnce a v s u ∧
      tWrite a v s = if (s.moveFor (.write a v)).fails then .err .commErr u else .ok () u := by
  have hu := (arrive_untouched (.write a v) s).trans
    (written_untouched (s.moveFor (.write a v)) a v _)
  refine ⟨State.record (s.moveFor (.write a v)) (.write a v) (if (s.moveFor (.write a v)).fails
    then .failed else .done) ((s.arrive (.write a v)).written (s.moveFor (.write a v)) a v),
    ⟨hu.host, hu.cfg, hu.sent, hu.pe, by rw [record_bus, hu.bus]⟩, ?_⟩
  cases hf : (s.moveFor (.write a v)).fails <;> simp [tWrite, conclude, hf, hr]

/-- A response with a code and nothing else (R84, R196). -/
def codeResponse (c : Result) : Response := { code := c, count := 0, data := [] }

/-- WRCMD without parameters where RESET does not follow its write (R121): OK, or COMM_ERR. -/
theorem exec_wrcmd_nil {icop : Byte} {s : State}
    (hr : (s.moveFor (.write s.cfg.regCommand icop)).reset = false) :
    ∃ u, WroteOnce s.cfg.regCommand icop s u ∧ exec (.wrcmd icop []) s = .next (u.respond (codeResponse
      (if (s.moveFor (.write s.cfg.regCommand icop)).fails then .commErr else .ok))) := by
  obtain ⟨u, hu, hwrite⟩ := tWrite_once hr
  refine ⟨u, hu, ?_⟩
  rw [exec_wrcmd, writeCommand_nil, hwrite]
  split <;> rfl

/-- SRESET where RESET does not follow its write (R123): the attempt is dropped before either answer. -/
theorem exec_sreset {s : State}
    (hr : (s.moveFor (.write s.cfg.regCommand s.cfg.icCmdSoftReset)).reset = false) :
    ∃ u, WroteOnce s.cfg.regCommand s.cfg.icCmdSoftReset s u ∧
      exec .sreset s = .next (u.dropAttempt.respond (codeResponse
        (if (s.moveFor (.write s.cfg.regCommand s.cfg.icCmdSoftReset)).fails then .commErr else .ok))) := by
  obtain ⟨u, hu, hwrite⟩ := tWrite_once hr
  refine ⟨u, hu, (execSreset_eq s).trans ?_⟩
  rw [writeCommand_nil, hwrite]
  split <;> rfl

/-- Settles O18, by `exec_wrcmd_nil`. -/
theorem wrcmdPassesAnyOpcode : Obligations.WrcmdPassesAnyOpcode := by
  intro s icop m c hreset
  obtain ⟨u, hu, hexec⟩ := exec_wrcmd_nil hreset
  refine ⟨_, hexec, hu.host, hu.cfg, ?_, ?_, hu.bus⟩
  · rw [← hu.pe]
    rfl
  · rw [respond_sent, hu.sent]
    rfl

/-- Settles O20, by `exec_sreset`. -/
theorem sresetClearsAttempt : Obligations.SresetClearsAttempt := by
  intro s m c hreset
  obtain ⟨u, hu, hexec⟩ := exec_sreset hreset
  refine ⟨_, hexec, hu.host, hu.cfg, ?_, ?_, hu.bus⟩
  · rw [← hu.pe]
    rfl
  · rw [respond_sent, dropAttempt_sent, hu.sent]
    rfl

/-- REG_STATUS reads as DEV.STATUS under a law (R51, R43). -/
theorem lawful_status (c : Cfg) : c.lawful c.regStatus = true := by simp [Cfg.lawful]

/-- Settles O19: `tRead_failed` where the read fails, `tRead_lawful` where it does not. -/
theorem getstatReturnsStatus : Obligations.GetstatReturnsStatus := by
  intro s hlegal hs m d hreset
  rw [exec_getstat]
  refine ⟨_, rfl, ?_⟩
  cases hf : m.fails with
  | true =>
    rw [tRead_failed hf hreset, bind_err, finish_err, raiseCode_commErr]
    simp [hs, m, d]
  | false =>
    rw [tRead_lawful (lawful_status s.cfg) hs hf hreset, bind_ok, finish_ok,
      readReg_status (Legal.of hlegal)]
    simp [hs, m, d, State.respond, Response.bytes, Result.code]

/-! ### RDCTL and WRCTL -/

/-- RDCTL of an index of R30: the 16-bit value, low byte first. -/
theorem exec_rdctl_value {s : State} {idx : Byte} {v : Half} (h : ctlRead s idx = some v) :
    exec (.rdctl idx) s = .next (controlValue s v) := by
  change execRdctl idx s = _
  rw [execRdctl, h]
  rfl

/-- RDCTL of any other index (R129). -/
theorem exec_rdctl_refused {s : State} {idx : Byte} (h : ctlRead s idx = none) :
    exec (.rdctl idx) s = .next (controlRefused s) := by
  change execRdctl idx s = _
  rw [execRdctl, h]
  rfl

/-- The control map behind its ten single registers (R30): the UID bytes. -/
theorem ctlRead_beyond {idx : Byte} (s : State) (h : 0x0A ≤ idx.toNat) :
    ctlRead s idx = if 0x10 ≤ idx.toNat then s.pe.uid[idx.toNat - 0x10]?.map (fun b => b.setWidth 16)
      else none := by
  unfold ctlRead
  split
  any_goals omega
  rfl

theorem ctlRead_uid (s : State) (i : Fin 10) :
    ctlRead s (BitVec.ofNat 8 (0x10 + i.val)) = some (s.pe.uid[i].setWidth 16) := by
  have hidx : (BitVec.ofNat 8 (0x10 + i.val)).toNat = 0x10 + i.val := by
    rw [BitVec.toNat_ofNat]
    omega
  rw [ctlRead_beyond s (by omega), if_pos (by omega), hidx, Nat.add_sub_cancel_left]
  simp

theorem ctlRead_none {idx : Byte} (s : State)
    (h : (0x0A ≤ idx.toNat ∧ idx.toNat ≤ 0x0F) ∨ 0x1A ≤ idx.toNat) : ctlRead s idx = none := by
  rw [ctlRead_beyond s (by omega)]
  split
  · rw [Vector.getElem?_eq_none (by omega)]
    rfl
  · rfl

/-- Index 0x09 of R30: a legal FIFO_CAP fits one byte (R7). -/
theorem ctlRead_fifoCap {s : State} (hc : s.cfg.fifoCap ≤ 255) :
    ctlRead s 0x09 = some (BitVec.ofNat 16 s.cfg.fifoCap) := by
  have hcap : (BitVec.ofNat 8 s.cfg.fifoCap).setWidth 16 = BitVec.ofNat 16 s.cfg.fifoCap := by
    apply BitVec.eq_of_toNat_eq
    simp only [BitVec.toNat_setWidth, BitVec.toNat_ofNat]
    omega
  exact congrArg some hcap

/-- Settles O22: the map entry by entry. -/
theorem rdctlReadsControlMap : Obligations.RdctlReadsControlMap := fun s =>
  ⟨exec_rdctl_value rfl, exec_rdctl_value rfl, exec_rdctl_value rfl, exec_rdctl_value rfl,
    exec_rdctl_value rfl, exec_rdctl_value rfl, exec_rdctl_value rfl, exec_rdctl_value rfl,
    exec_rdctl_value rfl, fun hl => exec_rdctl_value (ctlRead_fifoCap (Legal.of hl).capMax),
    fun i => exec_rdctl_value (ctlRead_uid s i), fun _ h => exec_rdctl_refused (ctlRead_none s h)⟩

/-- WRCTL of POLL_INTERVAL with a value R130 allows. -/
theorem exec_wrctl_interval {v : Half} (hv : v ≠ 0) (s : State) :
    exec (.wrctl 0x01 v) s = .next { s with
      pe := { s.pe with pollInterval := v, busy := false }, sent := s.sent ++ [[0x00, 0x00]] } :=
  congrArg Host.Outcome.next ((if_neg (by decide)).trans (if_pos ⟨rfl, hv⟩))

/-- WRCTL of anything but the two poll registers, or of POLL_INTERVAL with 0 (R130). -/
theorem exec_wrctl_refused {idx : Byte} {v : Half} (h0 : idx ≠ 0x00) (h1 : ¬ (idx = 0x01 ∧ v ≠ 0))
    (s : State) : exec (.wrctl idx v) s = .next (controlRefused s) :=
  congrArg Host.Outcome.next ((if_neg h0).trans (if_neg h1))

/-- Settles O23: the three arms of WRCTL. -/
theorem wrctlWritesPollRegisters : Obligations.WrctlWritesPollRegisters := by
  intro s v
  refine ⟨rfl, fun hv => exec_wrctl_interval ?_ s,
    exec_wrctl_refused (by decide) (fun h => h.2 rfl) s, fun idx hidx => exec_wrctl_refused ?_ ?_ s⟩
  · rintro rfl
    exact absurd hv (by decide)
  · rintro rfl
    exact absurd hidx (by decide)
  · rintro ⟨rfl, _⟩
    exact absurd hidx (by decide)

/-! ### The verdict on one IRQ read -/

theorem irqVerdict_collision {c : Cfg} {v : Byte} :
    irqVerdict c v = some .protoCollision ↔ v &&& c.mErrColl ≠ 0 := by
  unfold irqVerdict
  split_ifs <;> simp_all

theorem irqVerdict_crc {c : Cfg} {v : Byte} :
    irqVerdict c v = some .protoCrc ↔ v &&& c.mErrColl = 0 ∧ v &&& c.mErrCrc ≠ 0 := by
  unfold irqVerdict
  split_ifs <;> simp_all

theorem irqVerdict_ok {c : Cfg} {v : Byte} :
    irqVerdict c v = some .ok ↔
      v &&& c.mErrColl = 0 ∧ v &&& c.mErrCrc = 0 ∧ v &&& c.mDone ≠ 0 := by
  unfold irqVerdict
  split_ifs <;> simp_all

/-- No terminal bit is set exactly if the byte meets no mask (R125). -/
theorem irqVerdict_none {c : Cfg} {v : Byte} :
    irqVerdict c v = none ↔ v &&& (c.mErrColl ||| c.mErrCrc ||| c.mDone) = 0 := by
  have hmask : v &&& (c.mErrColl ||| c.mErrCrc ||| c.mDone) =
      v &&& c.mErrColl ||| v &&& c.mErrCrc ||| v &&& c.mDone := by
    rw [BitVec.and_or_distrib_left, BitVec.and_or_distrib_left]
  have hor {a b : Byte} : a ||| b = 0 ↔ a = 0 ∧ b = 0 := BitVec.or_eq_zero_iff
  rw [hmask, hor, hor]
  unfold irqVerdict
  split_ifs <;> simp_all

/-- Settles O24: the four verdicts one by one. -/
theorem irqPriority : Obligations.IrqPriority := fun _ _ _ =>
  ⟨irqVerdict_collision, irqVerdict_crc, irqVerdict_ok, irqVerdict_none⟩

end Sys2Proof.Proofs
end

section
/-! PROOFS. The bounds of the command engine (spec 42_command_engine.md R127, R131): the traffic of a POLL
against any device, round by round, and the primitives of every host operation of the block. -/

namespace Sys2Proof.Proofs

open Sys2Proof.Machine Sys2Proof.Laws

/-! ### The traffic of POLL -/

/-- An answer to a read of REG_IRQ that shows no terminal bit (R125). -/
def Silent (c : Cfg) (ans : BusAnswer) : Prop := ∃ v, ans = .value v ∧ irqVerdict c v = none

theorem silent_value {c : Cfg} {v : Byte} : Silent c (.value v) ↔ irqVerdict c v = none :=
  ⟨fun ⟨_, hw, h⟩ => by cases hw; exact h, fun h => ⟨v, rfl, h⟩⟩

theorem not_silent {c : Cfg} {ans : BusAnswer} (h : ∀ v, ans ≠ .value v) : ¬ Silent c ans :=
  fun ⟨v, hv, _⟩ => h v hv

/-- The traffic of `k` rounds of POLL that show nothing and wait (R125). -/
inductive Rounds (c : Cfg) (i : Half) : Nat → List BusStep → Prop where
  | none : Rounds c i 0 []
  | more {k : Nat} {l : List BusStep} {ans : BusAnswer} : Silent c ans → Rounds c i k l →
      Rounds c i (k + 1) (⟨.read c.regIrq, ans⟩ :: ⟨.wait i.toNat, .done⟩ :: l)

theorem irqReads_append (c : Cfg) (l k : List BusStep) :
    irqReads c (l ++ k) = irqReads c l + irqReads c k := by
  simp [irqReads, List.filter_append]

theorem irqReads_read (c : Cfg) (ans : BusAnswer) : irqReads c [⟨.read c.regIrq, ans⟩] = 1 := by
  simp [irqReads]

theorem waits_read (c : Cfg) (ans : BusAnswer) : waits [⟨.read c.regIrq, ans⟩] = 0 := by
  simp [waits]

section Rounds

variable {c : Cfg} {i : Half} {k : Nat} {l : List BusStep}

theorem Rounds.irqReads (h : Rounds c i k l) : irqReads c l = k := by
  induction h with
  | none => rfl
  | more _ _ ih => simpa [Machine.irqReads] using ih

theorem Rounds.waits (h : Rounds c i k l) : waits l = k := by
  induction h with
  | none => rfl
  | more _ _ ih => simpa [Machine.waits] using ih

theorem Rounds.silent (h : Rounds c i k l) :
    ∀ b ∈ l, b.op = .read c.regIrq → Silent c b.answer := by
  induction h with
  | none => simp
  | more hs _ ih =>
    intro b hb hop
    rcases List.mem_cons.mp hb with rfl | hb
    · exact hs
    rcases List.mem_cons.mp hb with rfl | hb
    · cases hop
    · exact ih b hb hop

end Rounds

/-- From `s` to `t` POLL made `k` rounds and one more read, which was answered with `ans`. -/
def PollTraffic (i : Half) (s t : State) (k : Nat) (ans : BusAnswer) : Prop :=
  ∃ l, Rounds s.cfg i k l ∧ t.bus = s.bus ++ (l ++ [⟨.read s.cfg.regIrq, ans⟩])

/-- POLL ended at a read, within `fuel` reads, that failed or showed a terminal bit. -/
def PollStopped (i : Half) (fuel : Nat) (s t : State) : Prop :=
  ∃ k < fuel, ∃ ans, ¬ Silent s.cfg ans ∧ PollTraffic i s t k ans

/-- POLL expired: at a read, within `fuel` reads, that showed nothing and found ELAPSED beyond the budget;
or after `fuel` rounds, which the budget rules out. -/
def PollExpired (b i : Half) (fuel : Nat) (s t : State) : Prop :=
  (∃ k < fuel, ∃ ans, Silent s.cfg ans ∧ b.toNat < t.pe.elapsed.toNat ∧ PollTraffic i s t k ans) ∨
  ∃ l, Rounds s.cfg i fuel l ∧ t.bus = s.bus ++ l

/-- What POLL's loop does, by its reply. -/
def PollRuns (b i : Half) (fuel : Nat) (s : State) (r : Reply Unit) : Prop :=
  Post r (fun _ t => PollStopped i fuel s t)
    (fun c t => if c = .timeout then PollExpired b i fuel s t else PollStopped i fuel s t) fun _ => True

/-- `TRead` against any device: a value, or an answer that is none. -/
theorem tRead_answer (a : Byte) (s : State) :
    Post (tRead a s) (fun v t => t.bus = s.bus ++ [⟨.read a, .value v⟩] ∧ t.pe = s.pe ∧ t.cfg = s.cfg)
      (fun c t => c = .commErr ∧ ∃ ans, ¬ Silent s.cfg ans ∧ t.bus = s.bus ++ [⟨.read a, ans⟩])
      fun _ => True := by
  obtain ⟨ans, u, hb, _, hu, hr | hr⟩ := tRead_isMicroStep a s
  · rw [hr]
    cases ans with
    | value v => exact ⟨hb, hu.pe, hu.cfg⟩
    | failed | done | bytes | count => exact ⟨rfl, _, not_silent (by simp), hb⟩
  · rw [hr]
    trivial

/-- `Wait` against any device. -/
theorem waitTicks_answer (n : Nat) (s : State) :
    Post (waitTicks n s) (fun _ t => t.bus = s.bus ++ [⟨.wait n, .done⟩] ∧ t.cfg = s.cfg)
      (fun _ _ => False) fun _ => True := by
  have hp := waitTicks_post n s
  obtain ⟨ans, u, hb, _, hu, hr | hr⟩ := waitTicks_isMicroStep n s
  · rw [hr] at hp ⊢
    cases ans with
    | done => exact ⟨hb, hu.cfg⟩
    | failed | value | bytes | count => exact hp
  · rw [hr]
    trivial

/-- One more round in front of a run of the loop. -/
theorem PollRuns.after_round {b i : Half} {fuel : Nat} {s u : State} {ans : BusAnswer} {r : Reply Unit}
    (hs : Silent s.cfg ans) (hc : u.cfg = s.cfg)
    (hb : u.bus = s.bus ++ [⟨.read s.cfg.regIrq, ans⟩, ⟨.wait i.toNat, .done⟩])
    (h : PollRuns b i fuel u r) : PollRuns b i (fuel + 1) s r := by
  have traffic {t : State} {k : Nat} {last : BusAnswer} :
      PollTraffic i u t k last → PollTraffic i s t (k + 1) last := fun ⟨l, hl, ht⟩ =>
    ⟨_, .more hs (hc ▸ hl), by rw [ht, hb, hc]; simp⟩
  have stopped {t : State} : PollStopped i fuel u t → PollStopped i (fuel + 1) s t :=
    fun ⟨k, hk, last, hlast, ht⟩ => ⟨k + 1, by omega, last, hc ▸ hlast, traffic ht⟩
  have expired {t : State} : PollExpired b i fuel u t → PollExpired b i (fuel + 1) s t := by
    rintro (⟨k, hk, last, hlast, he, ht⟩ | ⟨l, hl, ht⟩)
    · exact .inl ⟨k + 1, by omega, last, hc ▸ hlast, he, traffic ht⟩
    · exact .inr ⟨_, .more hs (hc ▸ hl), by rw [ht, hb]; simp⟩
  refine Post.mono h (fun _ _ => stopped) (fun c t h => ?_) fun _ h => h
  split
  next hto => exact expired (by rwa [if_pos hto] at h)
  next hto => exact stopped (by rwa [if_neg hto] at h)

theorem irqVerdict_ne_timeout {c : Cfg} {v : Byte} : irqVerdict c v ≠ some .timeout := by
  unfold irqVerdict
  split_ifs <;> simp

/-- The loop of POLL against any device (R125), by recursion on its reads. -/
theorem pollLoop_runs (b i : Half) : ∀ (fuel : Nat) (s : State),
    PollRuns b i fuel s (pollLoop b i fuel s)
  | 0, s => .inr ⟨[], .none, (List.append_nil _).symm⟩
  | fuel + 1, s => by
    have hread := tRead_answer s.cfg.regIrq s
    unfold pollLoop
    cases hr : tRead s.cfg.regIrq s with
    | cut u => trivial
    | err c u =>
      rw [hr] at hread
      obtain ⟨rfl, ans, hans, hb⟩ := hread
      exact ⟨0, Nat.succ_pos _, ans, hans, [], .none, hb⟩
    | ok v u =>
      rw [hr] at hread
      obtain ⟨hb, hpe, hc⟩ := hread
      have shown {r : Result} (hv : irqVerdict u.cfg v = some r) : PollStopped i (fuel + 1) s u :=
        ⟨0, Nat.succ_pos _, .value v, by rw [silent_value, ← hc, hv]; simp, [], .none, hb⟩
      rw [bind_ok]
      dsimp only
      split
      next hv => exact shown hv
      next c _ hv =>
        have hc : c ≠ .timeout := fun h => irqVerdict_ne_timeout (h ▸ hv)
        exact (if_neg hc).mpr (shown hv)
      next hv =>
        have hs : Silent s.cfg (.value v) := silent_value.mpr (hc ▸ hv)
        split
        next hbudget =>
          have hlt : b.toNat < u.pe.elapsed.toNat := by
            rwa [BitVec.lt_def, BitVec.toNat_setWidth_of_le (by decide)] at hbudget
          exact .inl ⟨0, Nat.succ_pos _, .value v, hs, hlt, [], .none, hb⟩
        next =>
          have hwait := waitTicks_answer i.toNat u
          cases hw : waitTicks i.toNat u with
          | cut t => trivial
          | err c t => rw [hw] at hwait; exact hwait.elim
          | ok _ t =>
            rw [hw] at hwait
            obtain ⟨hbt, hct⟩ := hwait
            exact (pollLoop_runs b i fuel _).after_round hs (hct.trans hc)
              (hbt.trans (by rw [hb, List.append_assoc]; rfl))

/-! ### The bound of POLL -/

/-- The reads and waits of a POLL that ended at a read. -/
theorem PollTraffic.counts {i : Half} {s t : State} {k : Nat} {ans : BusAnswer}
    (h : PollTraffic i s t k ans) :
    ∃ l, t.bus = s.bus ++ l ∧ irqReads s.cfg l = k + 1 ∧ waits l = k ∧
      ((∀ b ∈ l, b.op = .read s.cfg.regIrq → Silent s.cfg b.answer) ↔ Silent s.cfg ans) := by
  obtain ⟨l, hl, ht⟩ := h
  refine ⟨_, ht, ?_, ?_, fun h => h ⟨.read s.cfg.regIrq, ans⟩ (by simp) rfl, fun hans b hb hop => ?_⟩
  · rw [irqReads_append, irqReads_read, hl.irqReads]
  · rw [waits_append, waits_read, hl.waits, Nat.add_zero]
  · rcases List.mem_append.mp hb with hb | hb
    · exact hl.silent b hb hop
    · obtain rfl := List.mem_singleton.mp hb
      exact hans

/-- ELAPSED beyond the budget by at most one interval, in whole intervals: there is only one such number
(R127). -/
theorem intervals_beyond {b i k : Nat} (hlt : b < k * i) (hle : k * i ≤ b + i) : k = b / i + 1 := by
  have hi : 0 < i := Nat.pos_of_ne_zero fun h => by simp [h] at hlt
  have h1 : b / i < k := (Nat.div_lt_iff_lt_mul hi).mpr hlt
  have h2 : k - 1 ≤ b / i := (Nat.le_div_iff_mul_le hi).mpr (by rw [Nat.sub_mul]; omega)
  omega

/-- `N` whole intervals are more than ELAPSED ever reaches (R32, R127). -/
theorem beyond_polled_time {b i : Nat} (hi : 0 < i) : b + i < (b / i + 2) * i := by
  have hlt : b < i * (b / i + 1) := Nat.lt_mul_div_succ b hi
  have hmul : (b / i + 2) * i = i * (b / i + 1) + i := by ring
  omega

/-- A POLL that stopped at a read, one of at most `n`, that failed or showed a terminal bit. -/
theorem PollStopped.bounded {i : Half} {n : Nat} {s t : State} (h : PollStopped i n s t) :
    ∃ l, t.bus = s.bus ++ l ∧ irqReads s.cfg l ≤ n ∧ waits l ≤ n - 1 ∧
      ¬ ∀ b ∈ l, b.op = .read s.cfg.regIrq → Silent s.cfg b.answer := by
  obtain ⟨k, hk, ans, hans, htr⟩ := h
  obtain ⟨l, hl, hreads, hwaits, hsilent⟩ := htr.counts
  exact ⟨l, hl, by omega, by omega, mt hsilent.mp hans⟩

/-- A POLL that expired made exactly `N` reads, none of which showed anything (R127). -/
theorem PollExpired.bounded {s t : State} (hi : s.pe.pollInterval ≠ 0) (he : ElapsedExact s t)
    (h : PollExpired s.pe.pollBudget s.pe.pollInterval (pollReads s.pe.pollBudget s.pe.pollInterval) s t) :
    ∃ l, t.bus = s.bus ++ l ∧ irqReads s.cfg l = pollReads s.pe.pollBudget s.pe.pollInterval ∧
      waits l = s.pe.pollBudget.toNat / s.pe.pollInterval.toNat + 1 ∧
      (∀ b ∈ l, b.op = .read s.cfg.regIrq → Silent s.cfg b.answer) ∧
      t.pe.elapsed.toNat =
        (s.pe.pollBudget.toNat / s.pe.pollInterval.toNat + 1) * s.pe.pollInterval.toNat := by
  obtain ⟨l, hl, hel, hle⟩ := he
  rcases h with ⟨k, _, ans, hs, hlt, htr⟩ | ⟨q, hq, ht⟩
  · obtain ⟨l', hl', hreads, hwaits, hsilent⟩ := htr.counts
    obtain rfl := List.append_cancel_left (hl.symm.trans hl')
    rw [hwaits] at hel
    obtain rfl := intervals_beyond (hel ▸ hlt) (hel ▸ hle)
    exact ⟨l, hl, hreads, hwaits, hsilent.mpr hs, hel⟩
  · obtain rfl := List.append_cancel_left (hl.symm.trans ht)
    have hpos : 0 < s.pe.pollInterval.toNat :=
      Nat.pos_of_ne_zero fun h0 => hi (BitVec.eq_of_toNat_eq h0)
    rw [hel, hq.waits] at hle
    exact absurd hle (Nat.not_le.mpr (beyond_polled_time hpos))

/-- What R127 says of a POLL from `s` with reply `r`. -/
def PollWithin (n : Nat) (s : State) (r : Reply Unit) : Prop :=
  ∃ l, r.state.bus = s.bus ++ l ∧ irqReads s.cfg l ≤ n ∧ waits l ≤ n - 1 ∧
    ((∃ t, r = .err .timeout t) ↔ irqReads s.cfg l = n ∧
      ∀ b ∈ l, b.op = .read s.cfg.regIrq → Silent s.cfg b.answer) ∧
    (∀ t, r = .err .timeout t → waits l = n - 1 ∧ t.pe.elapsed.toNat =
      (s.pe.pollBudget.toNat / s.pe.pollInterval.toNat + 1) * s.pe.pollInterval.toNat)

theorem PollStopped.within {i : Half} {n : Nat} {s : State} {r : Reply Unit}
    (h : PollStopped i n s r.state) (hr : ∀ u, r ≠ .err .timeout u) : PollWithin n s r := by
  obtain ⟨l, hl, hreads, hwaits, hloud⟩ := h.bounded
  exact ⟨l, hl, hreads, hwaits, ⟨fun ⟨u, hu⟩ => absurd hu (hr u), fun h => absurd h.2 hloud⟩,
    fun u hu => absurd hu (hr u)⟩

theorem PollExpired.within {s t : State} (hi : s.pe.pollInterval ≠ 0) (he : ElapsedExact s t)
    (h : PollExpired s.pe.pollBudget s.pe.pollInterval (pollReads s.pe.pollBudget s.pe.pollInterval) s t) :
    PollWithin (pollReads s.pe.pollBudget s.pe.pollInterval) s (.err .timeout t) := by
  obtain ⟨l, hl, hreads, hwaits, hsilent, hel⟩ := h.bounded hi he
  refine ⟨l, hl, hreads.le, hwaits.le, ⟨fun _ => ⟨hreads, hsilent⟩, fun _ => ⟨t, rfl⟩⟩, fun u hu => ?_⟩
  obtain rfl : t = u := by simpa using hu
  exact ⟨hwaits, hel⟩

/-- Settles O25: `pollLoop_runs` gives the rounds, `poll_elapsedExact` (O26) ties ELAPSED to the waits. -/
theorem pollBound : Obligations.PollBound := by
  intro s hi hcut
  have hruns : PollRuns s.pe.pollBudget s.pe.pollInterval
    (pollReads s.pe.pollBudget s.pe.pollInterval) s (poll s) := pollLoop_runs _ _ _ _
  have he := poll_elapsedExact s
  change PollWithin (pollReads s.pe.pollBudget s.pe.pollInterval) s (poll s)
  cases hr : poll s with
  | cut t => exact absurd hr (hcut t)
  | ok _ t =>
    rw [hr] at hruns
    exact PollStopped.within hruns (by simp)
  | err c t =>
    rw [hr] at hruns he
    by_cases hc : c = .timeout
    · subst hc
      exact PollExpired.within hi he hruns
    · exact PollStopped.within ((if_neg hc).mp hruns) (by simp [hc])

/-! ### The bound of every operation -/

/-- From `s` to `t` at most `n` transport primitives (R131). -/
def Bounded (n : Nat) (s t : State) : Prop := ∃ l, t.bus = s.bus ++ l ∧ primitives l ≤ n

theorem Bounded.refl (n : Nat) (s : State) : Bounded n s s := ⟨[], by simp, by simp [primitives]⟩

/-- An operation outside the sequencer (R131): its response is no primitive. -/
theorem bounded_finish {n : Nat} {s : State} {r : Reply Response} (h : Bounded n s r.state) :
    Bounded n s r.finish := by
  cases r <;> exact h

theorem bounded_finishAttempt {n : Nat} {s : State} {r : Reply Response} (h : Bounded n s r.state) :
    Bounded n s r.finishAttempt := by
  cases r <;> exact h

/-- A procedure within `n` primitives, and a response made of its value. -/
theorem bounded_raw {α : Type} {n : Nat} {s : State} {r : Reply α} {P : α → State → Prop}
    {E : Result → State → Prop} (f : α → Response) (h : Post r P E (CutWithin n s))
    (hP : ∀ a u, P a u → Within n s u) (hE : ∀ c u, E c u → Within n s u) :
    Bounded n s (r.bind fun a u => .ok (f a) u).finish := by
  refine bounded_finish ?_
  cases r with
  | ok a u => exact (hP a u h).bus
  | err c u => exact (hE c u h).bus
  | cut u =>
    obtain ⟨v, hv, rfl⟩ := h
    exact hv.bus

/-- SRESET makes one primitive: without parameters the FIFO is not queried (R120, R123). -/
theorem execSreset_bounded {s t : State} (h : execSreset s = .next t) : Bounded 1 s t := by
  have hp := tWrite_post s.cfg.regCommand s.cfg.icCmdSoftReset s
  rw [execSreset_eq, writeCommand_nil] at h
  obtain rfl := Host.Outcome.next.inj h
  cases hr : tWrite s.cfg.regCommand s.cfg.icCmdSoftReset s with
  | ok _ u => rw [hr] at hp; exact hp.1.bus
  | err c u => rw [hr] at hp; exact hp.2.1.bus
  | cut u =>
    rw [hr] at hp
    obtain ⟨v, hv, rfl⟩ := hp
    exact hv.bus

/-- A request makes one exchange (R144). -/
theorem request_bounded (cmd : Byte) (s : State) :
    Bounded (exchangeBound s.pe) s (request cmd s).finishAttempt := by
  have hp := request_post cmd s
  refine bounded_finishAttempt ?_
  cases hr : request cmd s with
  | ok x v =>
    rw [hr] at hp
    obtain ⟨u, hu, ⟨_, _, _, _, rfl⟩ | ⟨_, rfl⟩⟩ := hp
    · exact hu.bus
    · exact hu.bus
  | err c u => rw [hr] at hp; exact hp.2.bus
  | cut u =>
    rw [hr] at hp
    obtain ⟨v, hv, rfl⟩ := hp
    exact hv.bus

/-- SELECT makes at most three exchanges, or none where it is refused (R146, R147). -/
theorem execSelect_bounded {s t : State} (h : execSelect s = .next t) :
    Bounded (3 * exchangeBound s.pe) s t := by
  unfold execSelect at h
  split at h
  next =>
    obtain rfl := polling_next h
    have hp := selectLevels_keeps [1, 2, 3] { s with pe := { s.pe with seq := .select } }
    refine bounded_finishAttempt ?_
    cases hr : selectLevels [1, 2, 3] { s with pe := { s.pe with seq := .select } } with
    | ok x u => rw [hr] at hp; exact hp.2.bus
    | err c u => rw [hr] at hp; exact hp.2.bus
    | cut u =>
      rw [hr] at hp
      obtain ⟨v, hv, rfl⟩ := hp
      exact hv.bus
  next =>
    obtain rfl := Host.Outcome.next.inj h
    exact .refl _ s

/-- Settles O27: the `_post` lemma of each procedure bounds its primitives; a client operation is none of
the block's. -/
theorem operationsAreBounded : Obligations.OperationsAreBounded := by
  intro i s t hi h
  change Bounded (primitiveBound i s.pe) s t
  cases i with
  | wrcmd icop params =>
    exact Host.Outcome.next.inj h ▸
      bounded_raw _ (writeCommand_post icop params s) (fun _ _ h => h.2.1) fun _ _ h => h.2.1
  | fifolen =>
    exact Host.Outcome.next.inj h ▸
      bounded_raw _ (fifoLength_post s) (fun _ _ h => h.2.1) fun _ _ h => h.2.1
  | fiford n =>
    exact Host.Outcome.next.inj h ▸
      bounded_raw _ (readFifo_post _ s) (fun _ _ h => h.2.1) fun _ _ h => h.2.1
  | fifowr data =>
    exact Host.Outcome.next.inj h ▸
      bounded_raw _ (writeFifo_post data s) (fun _ _ h => h.2.1) fun _ _ h => h.2.1
  | fifoclr =>
    exact Host.Outcome.next.inj h ▸
      bounded_raw _ (clearFifo_post s) (fun _ _ h => h.1) fun _ _ h => h.2.1
  | getstat =>
    exact Host.Outcome.next.inj h ▸
      bounded_raw _ (tRead_post _ s) (fun _ _ h => h.1) fun _ _ h => h.2.1
  | sreset => exact execSreset_bounded h
  | reqa | wupa => exact polling_next h ▸ request_bounded _ s
  | select => exact execSelect_bounded h
  | rdctl idx =>
    obtain ⟨_, _, _, _, rfl⟩ := execRdctl_ends idx s h
    exact .refl _ s
  | wrctl idx value =>
    obtain ⟨_, _, _, _, rfl⟩ := execWrctl_ends idx value s h
    exact .refl _ s
  | configure | loadkey | auth | rdblk | wrblk | rdpage | wrpage =>
    exact absurd hi (by simp [Instr.opcode, baseOp])

end Sys2Proof.Proofs
end

section
/-! PROOFS. Exchanges against listed moves (spec 42_command_engine.md R120, R125 to R128; 60_exceptions.md
R192, R194): POLL round by round, then every way an exchange can end with a code. -/

namespace Sys2Proof.Proofs

open Sys2Proof.Machine Sys2Proof.Laws

/-! ### POLL against a silent device -/

/-- The state once a device that showed nothing let `l` through: ELAPSED is `e` (R125). -/
def silenced (s : State) (e : BitVec 17) (ms : List EnvMove) (l : List BusStep) : State :=
  { s with pe := { s.pe with elapsed := e }, agent := .any ms, bus := s.bus ++ l }

/-- A round of POLL's loop that shows nothing within the budget (R125). -/
theorem pollLoop_round {b i : Half} {s : State} {ms : List EnvMove} (fuel : Nat) (hl : Legal s.cfg)
    (hs : s.settle = 0) (hv : irqVerdict s.cfg s.dev.irq = none)
    (ha : s.agent = .any (EnvMove.quiet :: EnvMove.quiet :: ms)) (hb : s.pe.elapsed.toNat ≤ b.toNat) :
    ∃ l, l.map (·.op) = [BusOp.read s.cfg.regIrq, .wait i.toNat] ∧
      pollLoop b i (fuel + 1) s =
        pollLoop b i fuel (silenced s (s.pe.elapsed + i.setWidth 17) ms l) := by
  have hlt : ¬ b.setWidth 17 < s.pe.elapsed := by
    rw [BitVec.lt_def, BitVec.toNat_setWidth_of_le (by decide)]
    omega
  refine ⟨[⟨.read s.cfg.regIrq, .value s.dev.irq⟩, ⟨.wait i.toNat, .done⟩], rfl, ?_⟩
  rw [pollLoop, tRead_quiet ha, bind_ok]
  simp only [passed_cfg, passed_pe, readReg_irq hl, hv, hlt, if_false]
  rw [waitTicks_quiet (s := passed _ _ _ _ _) rfl hs, bind_ok]
  simp [passed, silenced]

/-- `q` rounds of POLL's loop that show nothing within the budget (R125). -/
theorem pollLoop_rounds {b i : Half} {ms : List EnvMove} (fuel : Nat) : ∀ (q : Nat) (s : State),
    Legal s.cfg → s.settle = 0 → irqVerdict s.cfg s.dev.irq = none →
    s.agent = .any (List.replicate (2 * q) EnvMove.quiet ++ ms) →
    s.pe.elapsed.toNat + q * i.toNat ≤ b.toNat + i.toNat →
    ∃ l, l.map (·.op) = (List.replicate q [BusOp.read s.cfg.regIrq, .wait i.toNat]).flatten ∧
      pollLoop b i (fuel + q) s =
        pollLoop b i fuel (silenced s (s.pe.elapsed + BitVec.ofNat 17 (q * i.toNat)) ms l)
  | 0, s, _, _, _, ha, _ => by
    have ha : s.agent = .any ms := by simpa using ha
    exact ⟨[], rfl, by simp [silenced, ← ha]⟩
  | q + 1, s, hl, hs, hv, ha, hb => by
    have hbudget := b.isLt
    have hinterval := i.isLt
    rw [Nat.add_mul, Nat.one_mul] at hb
    obtain ⟨l₁, hl₁, hp₁⟩ := pollLoop_round (b := b) (i := i)
      (ms := List.replicate (2 * q) EnvMove.quiet ++ ms) (fuel + q) hl hs hv ha (by omega)
    have hsum := toNat_elapsed_add (e := s.pe.elapsed) (i := i) (by omega)
    obtain ⟨l₂, hl₂, hp₂⟩ := pollLoop_rounds (b := b) (i := i) (ms := ms) fuel q
      (silenced s (s.pe.elapsed + i.setWidth 17) (List.replicate (2 * q) EnvMove.quiet ++ ms) l₁)
      hl hs hv rfl (by simp only [silenced, hsum]; omega)
    refine ⟨l₁ ++ l₂, ?_, ?_⟩
    · rw [List.map_append, hl₁, hl₂, List.replicate_succ, List.flatten_cons]
      rfl
    · rw [← Nat.add_assoc, hp₁, hp₂]
      simp only [silenced, elapsed_add_intervals, List.append_assoc]

/-- POLL against a device that shows nothing for `q` rounds within the polled time (R125, R127): at least
one more read follows. -/
theorem poll_rounds {s : State} {q : Nat} {ms : List EnvMove} (hl : Legal s.cfg) (hs : s.settle = 0)
    (hv : irqVerdict s.cfg s.dev.irq = none)
    (hq : q ≤ s.pe.pollBudget.toNat / s.pe.pollInterval.toNat + 1)
    (ha : s.agent = .any (List.replicate (2 * q) EnvMove.quiet ++ ms)) :
    ∃ l fuel, l.map (·.op) =
        (List.replicate q [BusOp.read s.cfg.regIrq, .wait s.pe.pollInterval.toNat]).flatten ∧
      poll s = pollLoop s.pe.pollBudget s.pe.pollInterval (fuel + 1)
        (silenced s (s.pe.waited q) ms l) := by
  have hmul : q * s.pe.pollInterval.toNat ≤ s.pe.pollBudget.toNat + s.pe.pollInterval.toNat := by
    have hle := Nat.mul_le_mul_right s.pe.pollInterval.toNat hq
    have hdiv := Nat.div_mul_le_self s.pe.pollBudget.toNat s.pe.pollInterval.toNat
    rw [Nat.add_mul, Nat.one_mul] at hle
    omega
  obtain ⟨fuel, hfuel⟩ :
      ∃ fuel, pollReads s.pe.pollBudget s.pe.pollInterval = fuel + 1 + q :=
    ⟨s.pe.pollBudget.toNat / s.pe.pollInterval.toNat + 1 - q, by unfold pollReads; omega⟩
  obtain ⟨l, hops, hp⟩ := pollLoop_rounds (b := s.pe.pollBudget) (i := s.pe.pollInterval) (ms := ms)
    (fuel + 1) q { s with pe := { s.pe with elapsed := 0 } } hl hs hv ha (by simpa using hmul)
  refine ⟨l, fuel, hops, ?_⟩
  rw [poll, hfuel, hp]
  simp [silenced, Regs.waited]

/-! ### The last read of POLL -/

/-- A read that the next listed move fails (R55): nothing of the device changes. -/
theorem tRead_listed_failed {s : State} {ms : List EnvMove} {landed : Nat}
    (ha : s.agent = .any ({ fails := true, landed := landed } :: ms)) (a : Byte) :
    tRead a s = .err .commErr (passed s ms (.read a) .failed s.dev) := by
  simp [tRead, moveFor_listed ha, arrive_listed ha, conclude, State.record, passed]

/-- A read after the device's own `steps` is a read of the device they lead to. -/
theorem tRead_steps {s : State} {ms : List EnvMove} {st : List DevStep}
    (ha : s.agent = .any ({ steps := st } :: ms)) (a : Byte) :
    tRead a s =
      tRead a { s with dev := s.dev.takeSteps s.cfg st, agent := .any (EnvMove.quiet :: ms) } := by
  rw [tRead_listed ha a ⟨rfl, rfl, rfl, rfl⟩, tRead_quiet rfl]
  rfl

/-- The read at which POLL sees a terminal bit (R126), the device's own steps having led to `d`. -/
theorem pollLoop_shown {b i : Half} {s : State} {ms : List EnvMove} {st : List DevStep} {d : Device}
    {r : Result} (fuel : Nat) (hl : Legal s.cfg) (ha : s.agent = .any ({ steps := st } :: ms))
    (hd : s.dev.takeSteps s.cfg st = d) (hv : irqVerdict s.cfg d.irq = some r) :
    ∃ ans, pollLoop b i (fuel + 1) s =
      let u := passed s ms (.read s.cfg.regIrq) ans d
      if r = .ok then .ok () u else .err r u := by
  subst hd
  refine ⟨.value (s.dev.takeSteps s.cfg st).irq, ?_⟩
  rw [pollLoop, tRead_listed ha _ ⟨rfl, rfl, rfl, rfl⟩, bind_ok]
  simp only [passed_cfg, readReg_irq hl, hv]
  cases r <;> rfl

/-- A read of POLL that fails (R55, R192). -/
theorem pollLoop_failed {b i : Half} {s : State} {ms : List EnvMove} {landed : Nat} (fuel : Nat)
    (ha : s.agent = .any ({ fails := true, landed := landed } :: ms)) :
    pollLoop b i (fuel + 1) s = .err .commErr (passed s ms (.read s.cfg.regIrq) .failed s.dev) := by
  rw [pollLoop, tRead_listed_failed ha, bind_err]

/-- The read of POLL after which the budget is exceeded (R125, R193). -/
theorem pollLoop_expired {b i : Half} {s : State} {ms : List EnvMove} (fuel : Nat) (hl : Legal s.cfg)
    (ha : s.agent = .any (EnvMove.quiet :: ms)) (hv : irqVerdict s.cfg s.dev.irq = none)
    (hb : b.toNat < s.pe.elapsed.toNat) :
    ∃ ans, pollLoop b i (fuel + 1) s =
      .err .timeout (passed s ms (.read s.cfg.regIrq) ans s.dev) := by
  have hlt : b.setWidth 17 < s.pe.elapsed := by
    rwa [BitVec.lt_def, BitVec.toNat_setWidth_of_le (by decide)]
  refine ⟨.value s.dev.irq, ?_⟩
  rw [pollLoop, tRead_quiet ha, bind_ok]
  simp only [passed_cfg, passed_pe, readReg_irq hl, hv, hlt, if_true]

/-- After `budget / interval + 1` waits ELAPSED is beyond the budget (R127). -/
theorem budget_lt_waited (p : Regs) (hi : p.pollInterval ≠ 0) :
    p.pollBudget.toNat < (p.waited (p.pollBudget.toNat / p.pollInterval.toNat + 1)).toNat := by
  have hpos : 0 < p.pollInterval.toNat := Nat.pos_of_ne_zero fun h0 => hi (BitVec.eq_of_toNat_eq h0)
  have hlt : p.pollBudget.toNat < p.pollInterval.toNat * (p.pollBudget.toNat / p.pollInterval.toNat + 1) :=
    Nat.lt_mul_div_succ _ hpos
  have hle := Nat.div_mul_le_self p.pollBudget.toNat p.pollInterval.toNat
  have hbudget := p.pollBudget.isLt
  have hinterval := p.pollInterval.isLt
  rw [Regs.waited, BitVec.toNat_ofNat, Nat.mod_eq_of_lt, Nat.mul_comm]
  · exact hlt
  · rw [Nat.add_mul, Nat.one_mul]
    omega

/-! ### The exchange up to its POLL -/

/-- What an exchange starts from: a legal configuration, a settled IC, an opcode that is not the reset
command, a POLL_INTERVAL R33 (vi) allows. -/
structure Ready (s : State) (icop : Byte) : Prop where
  legal   : s.cfg.legal = true
  settled : s.settle = 0
  opcode  : icop ≠ s.cfg.icCmdSoftReset
  clocked : s.pe.pollInterval ≠ 0

/-- What an exchange leaves that issued `icop` in a frame `fc`: ELAPSED is `e`, the FIFO holds `fifo`, the
IRQ register `irq` (R128). -/
def exchanged (s : State) (e : BitVec 17) (fifo : List Byte) (irq fc icop : Byte) (ms : List EnvMove)
    (l : List BusStep) : State :=
  { s with
    pe := { s.pe with elapsed := e }
    dev := { s.dev with fifo := fifo, cmd := icop, irq := irq, frame := fc }
    agent := .any ms
    bus := s.bus ++ l }

/-- The bulk write of an exchange, where there are parameters (R120). -/
def parameterOps (params : List Byte) : List BusOp := if params = [] then [] else [.fifoWrite params]

/-- An exchange whose POLL shows nothing for `q` rounds within the polled time (R128). -/
theorem xchg_rounds {s : State} {icop : Byte} {params : List Byte} {q : Nat} {ms : List EnvMove}
    (fc : Byte) (need : Nat) (h : Ready s icop) (hfit : params.length ≤ s.cfg.fifoCap)
    (hq : q ≤ s.pe.pollBudget.toNat / s.pe.pollInterval.toNat + 1)
    (ha : s.agent = .any (List.replicate (preparation params.length + 2 * q) EnvMove.quiet ++ ms)) :
    ∃ l fuel, l.map (·.op) = openingOps s.cfg fc icop params ++ parameterOps params ++
        (List.replicate q [BusOp.read s.cfg.regIrq, .wait s.pe.pollInterval.toNat]).flatten ∧
      xchg fc icop params need s =
        (pollLoop s.pe.pollBudget s.pe.pollInterval (fuel + 1)
          (exchanged s (s.pe.waited q) params 0 fc icop ms l)).bind fun _ s => readFifo need s := by
  rw [List.replicate_add, List.append_assoc] at ha
  obtain ⟨l₁, hops₁, hx⟩ := xchg_prepared fc need (quiet := q) (d := [])
    ⟨h.legal, h.settled, h.opcode, hfit, Nat.zero_le _, h.clocked, hq⟩ ha
  obtain ⟨l₂, fuel, hops₂, hp⟩ := poll_rounds
    (s := exchanged s s.pe.elapsed params 0 fc icop (List.replicate (2 * q) EnvMove.quiet ++ ms) l₁)
    (Legal.of h.legal) h.settled (verdict_none _) hq rfl
  refine ⟨l₁ ++ l₂, fuel, ?_, ?_⟩
  · rw [List.map_append, hops₁, hops₂]
    rfl
  · rw [hx]
    refine (congrArg (Reply.bind · _) hp).trans ?_
    simp only [silenced, exchanged, List.append_assoc]

/-- The micro-steps of a POLL are its rounds and one more read (R125). -/
theorem pollOps_eq (c : Cfg) (i : Half) (q : Nat) :
    pollOps c i q = (List.replicate q [BusOp.read c.regIrq, .wait i.toNat]).flatten ++ [.read c.regIrq] :=
  rfl

/-- The micro-steps of an exchange up to the end of its POLL (R128). -/
def polledOps (c : Cfg) (i : Half) (fc icop : Byte) (params : List Byte) (q : Nat) : List BusOp :=
  openingOps c fc icop params ++ parameterOps params ++ pollOps c i q

/-- The device once its answer to an exchange has arrived (R40, R42). -/
theorem answered_loaded {c : Cfg} {dev : Device} {d : List Byte} (fc icop : Byte) (params : List Byte)
    (irq : Byte) (hd : d.length ≤ c.fifoCap) :
    (loaded dev fc icop params).takeSteps c [.transmit params.length, .receive d, .raise irq] =
      { dev with fifo := d, cmd := icop, irq := irq, frame := fc } :=
  (answered_dev hd).trans (by simp [loaded])

section Exchange

variable {s : State} {icop : Byte} {params : List Byte} {q : Nat} {ms : List EnvMove}

/-- An exchange whose POLL ends at the read where the device shows a terminal bit, having received `d`
(R126, R128): the drain follows only if it shows completion. -/
theorem xchg_shown {d : List Byte} {irq : Byte} {r : Result} (fc : Byte) (need : Nat) (h : Ready s icop)
    (hfit : params.length ≤ s.cfg.fifoCap)
    (hq : q ≤ s.pe.pollBudget.toNat / s.pe.pollInterval.toNat + 1) (hd : d.length ≤ s.cfg.fifoCap)
    (hv : irqVerdict s.cfg irq = some r)
    (ha : s.agent = .any (exchangeMoves params.length q d irq ++ ms)) :
    ∃ l, l.map (·.op) = polledOps s.cfg s.pe.pollInterval fc icop params q ∧
      xchg fc icop params need s =
        let u := exchanged s (s.pe.waited q) d irq fc icop ms l
        if r = .ok then readFifo need u else .err r u := by
  rw [exchangeMoves, List.append_assoc, List.singleton_append] at ha
  obtain ⟨l, fuel, hops, hx⟩ := xchg_rounds fc need h hfit hq ha
  obtain ⟨ans, hp⟩ := pollLoop_shown (b := s.pe.pollBudget) (i := s.pe.pollInterval) fuel
    (s := exchanged s (s.pe.waited q) params 0 fc icop _ l) (Legal.of h.legal) rfl
    (answered_loaded (dev := s.dev) fc icop params irq hd) hv
  refine ⟨l ++ [⟨.read s.cfg.regIrq, ans⟩], ?_, ?_⟩
  · rw [List.map_append, hops, polledOps, pollOps_eq]
    simp
  · rw [hx, hp]
    simp only [exchanged, passed, List.append_assoc]
    split <;> rfl

/-- An exchange whose POLL expires (R127, R193). -/
theorem xchg_expired (fc : Byte) (need : Nat) (h : Ready s icop)
    (hfit : params.length ≤ s.cfg.fifoCap)
    (hq : q = s.pe.pollBudget.toNat / s.pe.pollInterval.toNat + 1)
    (ha : s.agent = .any (List.replicate (preparation params.length + 2 * q + 1) EnvMove.quiet ++ ms)) :
    ∃ l, l.map (·.op) = polledOps s.cfg s.pe.pollInterval fc icop params q ∧
      xchg fc icop params need s =
        .err .timeout (exchanged s (s.pe.waited q) params 0 fc icop ms l) := by
  rw [List.replicate_succ', List.append_assoc, List.singleton_append] at ha
  obtain ⟨l, fuel, hops, hx⟩ := xchg_rounds fc need h hfit hq.le ha
  obtain ⟨ans, hp⟩ := pollLoop_expired (b := s.pe.pollBudget) (i := s.pe.pollInterval) (ms := ms) fuel
    (s := exchanged s (s.pe.waited q) params 0 fc icop _ l) (Legal.of h.legal) rfl (verdict_none _)
    (hq ▸ budget_lt_waited s.pe h.clocked)
  refine ⟨l ++ [⟨.read s.cfg.regIrq, ans⟩], ?_, ?_⟩
  · rw [List.map_append, hops, polledOps, pollOps_eq]
    simp
  · rw [hx, hp]
    simp only [exchanged, passed, bind_err, List.append_assoc]

/-- An exchange whose POLL ends at a read that fails (R55, R192). -/
theorem xchg_failedPoll {landed : Nat} (fc : Byte) (need : Nat) (h : Ready s icop)
    (hfit : params.length ≤ s.cfg.fifoCap)
    (hq : q ≤ s.pe.pollBudget.toNat / s.pe.pollInterval.toNat + 1)
    (ha : s.agent = .any (List.replicate (preparation params.length + 2 * q) EnvMove.quiet ++
      { fails := true, landed := landed } :: ms)) :
    ∃ l, xchg fc icop params need s =
      .err .commErr (exchanged s (s.pe.waited q) params 0 fc icop ms l) := by
  obtain ⟨l, fuel, hops, hx⟩ := xchg_rounds fc need h hfit hq ha
  refine ⟨l ++ [⟨.read s.cfg.regIrq, .failed⟩], ?_⟩
  rw [hx, pollLoop_failed (s := exchanged _ _ _ _ _ _ _ _) fuel rfl]
  simp only [exchanged, passed, bind_err, List.append_assoc]

end Exchange

end Sys2Proof.Proofs
end

section
/-! PROOFS. How an exchange ends with a code (spec 42_command_engine.md R126 to R128; 60_exceptions.md R192,
R194): the overflow guard cuts its parameters, or one of its primitives fails; and all endings together. -/

namespace Sys2Proof.Proofs

open Sys2Proof.Machine Sys2Proof.Laws

/-! ### Parameters that do not all go through -/

/-- `writeFIFO` where the device has received `bs` into an empty FIFO before the length query (R105): what
fits behind them. -/
theorem writeFifo_received {s : State} {ms : List EnvMove} {data bs : List Byte} {w : Nat}
    (hw : w = min data.length (s.cfg.fifoCap - min bs.length s.cfg.fifoCap)) (hl : Legal s.cfg)
    (hs : s.settle = 0) (hf : s.dev.fifo = [])
    (ha : s.agent = .any ({ steps := [.receive bs] } :: ((if w = 0 then [] else [EnvMove.quiet]) ++ ms))) :
    ∃ l, writeFifo data s = .ok w { s with
          dev := { s.dev with fifo := bs.take s.cfg.fifoCap ++ data.take w }, agent := .any ms
          bus := s.bus ++ l } ∧
      l.map (·.op) = BusOp.read s.cfg.regFifoLength ::
        (if w = 0 then [] else [.fifoWrite (data.take w)]) := by
  have hdev : s.dev.takeSteps s.cfg [.receive bs] = { s.dev with fifo := bs.take s.cfg.fifoCap } := by
    simp [Device.takeSteps, Device.takeStep, hf]
  have hread : writeFifo data s = writeFifo data { s with
      dev := { s.dev with fifo := bs.take s.cfg.fifoCap }
      agent := .any (.quiet :: ((if w = 0 then [] else [EnvMove.quiet]) ++ ms)) } := by
    simp only [writeFifo, fifoLength, tRead_steps ha, hdev]
  obtain ⟨l, hwrite, hops⟩ := writeFifo_guarded (ms := ms) (w := w) (data := data)
    (s := { s with
      dev := { s.dev with fifo := bs.take s.cfg.fifoCap }
      agent := .any (.quiet :: ((if w = 0 then [] else [EnvMove.quiet]) ++ ms)) })
    (by simpa [Nat.min_comm] using hw) (by split <;> rfl) hs hl.capMax (by simp)
  exact ⟨l, hread.trans hwrite, hops⟩

/-- A bulk write within the free capacity of which the transport reports `k` bytes (R54, R105). -/
theorem tFifoWrite_reported {s : State} {ms : List EnvMove} {bs : List Byte} {k : Nat}
    (ha : s.agent = .any ({ moved := some k } :: ms)) (hs : s.settle = 0)
    (hn : bs.length ≤ s.cfg.fifoCap - s.dev.fifo.length) :
    tFifoWrite bs s = .ok k (passed s ms (.fifoWrite bs) (.count k)
      { s.dev with fifo := s.dev.fifo ++ bs.take k }) := by
  simp [tFifoWrite, moveFor_listed ha, arrive_listed ha, conclude, State.fifoFilled, fifoReported,
    State.record, passed, hs, hn]

/-- `writeFIFO` into an empty FIFO of which the transport reports fewer bytes written (R105). -/
theorem writeFifo_reported {s : State} {ms : List EnvMove} {data : List Byte} {k : Nat}
    (hk : k < data.length) (hfit : data.length ≤ s.cfg.fifoCap) (hl : Legal s.cfg) (hs : s.settle = 0)
    (hf : s.dev.fifo = []) (ha : s.agent = .any (.quiet :: { moved := some k } :: ms)) :
    ∃ l, writeFifo data s = .ok k { s with
          dev := { s.dev with fifo := data.take k }, agent := .any ms, bus := s.bus ++ l } ∧
      l.map (·.op) = [BusOp.read s.cfg.regFifoLength, .fifoWrite data] := by
  obtain ⟨v, hv⟩ := fifoLength_quiet ha hl.capMax
  have hroom : min data.length (s.cfg.fifoCap - min s.dev.fifo.length s.cfg.fifoCap) = data.length := by
    simp only [hf, List.length_nil, Nat.zero_min]
    omega
  refine ⟨[⟨.read s.cfg.regFifoLength, .value v⟩, ⟨.fifoWrite data, .count k⟩], ?_, rfl⟩
  rw [writeFifo, hv, bind_ok]
  simp only [passed_cfg, hroom, List.take_length]
  rw [if_neg (by omega), tFifoWrite_reported (s := passed _ _ _ _ _) rfl hs (by simpa [hf] using hfit),
    bind_ok, Nat.min_eq_left hk.le]
  simp [passed, hf]

section Exchange

variable {s : State} {icop : Byte} {params : List Byte} {q : Nat} {ms : List EnvMove}

/-- An exchange with parameters, its opening let through: `writeFIFO` follows (R120, R128). -/
theorem xchg_params (fc : Byte) (need : Nat) (h : Ready s icop) (hp : params ≠ [])
    (ha : s.agent = .any (List.replicate 4 EnvMove.quiet ++ ms)) :
    xchg fc icop params need s =
      (writeFifo params (opened s fc icop ms)).bind fun k s =>
        if k < params.length then .err .protoShort s
        else (poll s).bind fun _ s => readFifo need s := by
  rw [xchg_opened fc params need (Legal.of h.legal) h.settled h.opcode ha,
    if_neg (mt List.eq_nil_of_length_eq_zero hp)]

/-- An exchange of whose parameters only `w` fit behind what the device has received (R105, R128). -/
theorem xchg_cut {bs : List Byte} {w : Nat} (fc : Byte) (need : Nat) (h : Ready s icop)
    (hw : w = min params.length (s.cfg.fifoCap - min bs.length s.cfg.fifoCap)) (hcut : w < params.length)
    (ha : s.agent = .any (List.replicate 4 EnvMove.quiet ++
      { steps := [.receive bs] } :: ((if w = 0 then [] else [EnvMove.quiet]) ++ ms))) :
    ∃ l, l.map (·.op) = openingOps s.cfg fc icop params ++
        (if w = 0 then [] else [.fifoWrite (params.take w)]) ∧
      xchg fc icop params need s = .err .protoShort
        (exchanged s s.pe.elapsed (bs.take s.cfg.fifoCap ++ params.take w) 0 fc icop ms l) := by
  have hp : params ≠ [] := List.ne_nil_of_length_pos (by omega)
  obtain ⟨l, hwrite, hops⟩ := writeFifo_received (s := opened s fc icop _) hw (Legal.of h.legal)
    h.settled rfl rfl
  refine ⟨openers s.cfg fc icop ++ l, ?_, ?_⟩
  · rw [List.map_append, hops]
    simp [openingOps, openers, opened, hp]
  · rw [xchg_params fc need h hp ha, hwrite, bind_ok, if_pos hcut]
    simp only [opened, exchanged, List.append_assoc]

/-- An exchange of whose parameters the transport reports only `k` written (R105, R128). -/
theorem xchg_short {k : Nat} (fc : Byte) (need : Nat) (h : Ready s icop) (hk : k < params.length)
    (hfit : params.length ≤ s.cfg.fifoCap)
    (ha : s.agent = .any (List.replicate 5 EnvMove.quiet ++ { moved := some k } :: ms)) :
    ∃ l, l.map (·.op) = openingOps s.cfg fc icop params ++ [.fifoWrite params] ∧
      xchg fc icop params need s = .err .protoShort
        (exchanged s s.pe.elapsed (params.take k) 0 fc icop ms l) := by
  have hp : params ≠ [] := List.ne_nil_of_length_pos (by omega)
  have ha : s.agent = .any (List.replicate 4 EnvMove.quiet ++ .quiet :: { moved := some k } :: ms) := ha
  obtain ⟨l, hwrite, hops⟩ := writeFifo_reported
    (s := opened s fc icop (.quiet :: { moved := some k } :: ms)) hk hfit (Legal.of h.legal)
    h.settled rfl rfl
  refine ⟨openers s.cfg fc icop ++ l, ?_, ?_⟩
  · rw [List.map_append, hops]
    simp [openingOps, openers, opened, hp]
  · rw [xchg_params fc need h hp ha, hwrite, bind_ok, if_pos hk]
    simp only [opened, exchanged, List.append_assoc]

end Exchange

/-! ### Primitives that fail -/

/-- Of the device only the FIFO, the opcode, the IRQ bits and the frame register may have changed. -/
def DeviceKept (d d' : Device) : Prop :=
  d' = { d with fifo := d'.fifo, cmd := d'.cmd, irq := d'.irq, frame := d'.frame }

theorem DeviceKept.trans {d d' d'' : Device} (h : DeviceKept d d') (h' : DeviceKept d' d'') :
    DeviceKept d d'' := by
  unfold DeviceKept at *
  rw [h', h]

/-- From `s` an exchange led to `u`: ELAPSED is `e`, the moves `ms` are left, nothing was sent, and of the
device only what `DeviceKept` names changed. -/
structure Spent (e : BitVec 17) (ms : List EnvMove) (s u : State) : Prop where
  pe     : u.pe = { s.pe with elapsed := e }
  dev    : DeviceKept s.dev u.dev
  agent  : u.agent = .any ms
  settle : u.settle = s.settle
  cfg    : u.cfg = s.cfg
  host   : u.host = s.host
  sent   : u.sent = s.sent

theorem Spent.trans {e e' : BitVec 17} {ms ms' : List EnvMove} {s u v : State} (h : Spent e ms s u)
    (h' : Spent e' ms' u v) : Spent e' ms' s v :=
  ⟨by rw [h'.pe, h.pe], h.dev.trans h'.dev, h'.agent, h'.settle.trans h.settle, h'.cfg.trans h.cfg,
    h'.host.trans h.host, h'.sent.trans h.sent⟩

theorem exchanged_spent (s : State) (e : BitVec 17) (fifo : List Byte) (irq fc icop : Byte)
    (ms : List EnvMove) (l : List BusStep) : Spent e ms s (exchanged s e fifo irq fc icop ms l) :=
  ⟨rfl, rfl, rfl, rfl, rfl, rfl, rfl⟩

theorem opened_spent (s : State) (fc icop : Byte) (ms : List EnvMove) :
    Spent s.pe.elapsed ms s (opened s fc icop ms) := ⟨rfl, rfl, rfl, rfl, rfl, rfl, rfl⟩

theorem passed_spent (s : State) (ms : List EnvMove) (op : BusOp) (ans : BusAnswer) {d : Device}
    (h : DeviceKept s.dev d) : Spent s.pe.elapsed ms s (passed s ms op ans d) :=
  ⟨rfl, h, rfl, rfl, rfl, rfl, rfl⟩

/-- A write an exchange makes: it changes no more of the device than `DeviceKept` allows and resets
nothing. -/
structure OpeningWrite (c : Cfg) (a v : Byte) : Prop where
  keeps   : ∀ m d, DeviceKept d (d.writeReg c m a v)
  noReset : ¬ (a = c.regCommand ∧ v = c.icCmdSoftReset)

theorem flush_opening {c : Cfg} (hl : Legal c) : OpeningWrite c c.regFifoControl c.vFifoFlush :=
  ⟨fun m d => by rw [writeReg_flush]; rfl, fun h => hl.distinct.1.1 h.1.symm⟩

theorem frame_opening {c : Cfg} (hl : Legal c) (fc : Byte) : OpeningWrite c c.regFrameCfg fc :=
  ⟨fun m d => by rw [writeReg_frame hl]; rfl, fun h => hl.distinct.1.2.2.2.2 h.1.symm⟩

theorem irqClear_opening {c : Cfg} (hl : Legal c) : OpeningWrite c c.regIrq c.vIrqClear :=
  ⟨fun m d => by rw [writeReg_irqClear hl]; rfl, fun h => hl.distinct.1.2.2.1 h.1.symm⟩

theorem command_opening {c : Cfg} (hl : Legal c) {icop : Byte} (ho : icop ≠ c.icCmdSoftReset) :
    OpeningWrite c c.regCommand icop :=
  ⟨fun m d => by rw [writeReg_command hl m d ho]; rfl, fun h => ho h.2⟩

/-- The environment lets `k` primitives through, then one fails (R55). -/
def FailsAfter (k landed : Nat) (ms : List EnvMove) (s : State) : Prop :=
  s.agent = .any (List.replicate k EnvMove.quiet ++ { fails := true, landed := landed } :: ms)

/-- A procedure that a failed primitive ended (R192). -/
def EndsFailed {α : Type} (ms : List EnvMove) (s : State) (r : Reply α) : Prop :=
  ∃ u, r = .err .commErr u ∧ Spent s.pe.elapsed ms s u

theorem Spent.failed {α : Type} {ms ms' : List EnvMove} {s u : State} {r : Reply α}
    (h : Spent s.pe.elapsed ms s u) (hr : EndsFailed ms' u r) : EndsFailed ms' s r := by
  obtain ⟨v, hv, hs⟩ := hr
  rw [h.pe] at hs
  exact ⟨v, hv, h.trans hs⟩

theorem EndsFailed.bind {α β : Type} {ms : List EnvMove} {s : State} {r : Reply α}
    (h : EndsFailed ms s r) (f : α → State → Reply β) : EndsFailed ms s (r.bind f) := by
  obtain ⟨u, rfl, hu⟩ := h
  exact ⟨u, rfl, hu⟩

theorem tRead_fails {landed : Nat} {ms : List EnvMove} {s : State} (a : Byte)
    (ha : FailsAfter 0 landed ms s) : EndsFailed ms s (tRead a s) :=
  ⟨_, tRead_listed_failed ha a, passed_spent s ms _ _ rfl⟩

/-- A write of an exchange that fails: it took no effect or all of it (U6). -/
theorem tWrite_fails {a v : Byte} {landed : Nat} {ms : List EnvMove} {s : State}
    (hw : OpeningWrite s.cfg a v) (hs : s.settle = 0) (ha : FailsAfter 0 landed ms s) :
    EndsFailed ms s (tWrite a v s) := by
  have ha : s.agent = .any ({ fails := true, landed := landed } :: ms) := ha
  by_cases hland : landed = 0
  · refine ⟨passed s ms (.write a v) .failed s.dev, ?_, passed_spent s ms _ _ rfl⟩
    simp [tWrite, moveFor_listed ha, arrive_listed ha, conclude, State.written, State.record, passed,
      hs, hland]
  · refine ⟨_, ?_, passed_spent s ms (.write a v) .failed
      (hw.keeps { fails := true, landed := landed } s.dev)⟩
    simp [tWrite, moveFor_listed ha, arrive_listed ha, conclude, State.written, State.record, passed,
      hs, hland, settleAfter, hw.noReset]

/-- A bulk write within the free capacity that fails (R55, U6). -/
theorem tFifoWrite_fails {bs : List Byte} {landed : Nat} {ms : List EnvMove} {s : State}
    (hs : s.settle = 0) (ha : FailsAfter 0 landed ms s) : EndsFailed ms s (tFifoWrite bs s) := by
  have ha : s.agent = .any ({ fails := true, landed := landed } :: ms) := ha
  refine ⟨passed s ms (.fifoWrite bs) .failed
    { s.dev with fifo := (s.dev.fifo ++ bs.take landed).take s.cfg.fifoCap }, ?_,
    passed_spent s ms _ _ rfl⟩
  simp [tFifoWrite, moveFor_listed ha, arrive_listed ha, conclude, State.fifoFilled, State.record,
    passed, hs]

/-- A bulk read that fails (R55, U6). -/
theorem tFifoRead_fails {n landed : Nat} {ms : List EnvMove} {s : State}
    (hs : s.settle = 0) (ha : FailsAfter 0 landed ms s) : EndsFailed ms s (tFifoRead n s) := by
  have ha : s.agent = .any ({ fails := true, landed := landed } :: ms) := ha
  refine ⟨passed s ms (.fifoRead n) .failed
    { s.dev with fifo := s.dev.fifo.drop (min landed n) }, ?_, passed_spent s ms _ _ rfl⟩
  simp [tFifoRead, moveFor_listed ha, arrive_listed ha, conclude, State.fifoTaken, State.record,
    passed, hs]

/-- A write of an exchange that fails, or is let through and something after it fails. -/
theorem tWrite_bind_fails {α : Type} {f : Unit → State → Reply α} {a v : Byte} {k landed : Nat}
    {ms : List EnvMove} {s : State} (hw : OpeningWrite s.cfg a v) (hs : s.settle = 0)
    (ha : FailsAfter k landed ms s)
    (hf : ∀ j u, k = j + 1 → u.cfg = s.cfg → u.settle = 0 → FailsAfter j landed ms u →
      EndsFailed ms u (f () u)) :
    EndsFailed ms s ((tWrite a v s).bind f) := by
  cases k with
  | zero => exact (tWrite_fails hw hs ha).bind f
  | succ j =>
    have hpass := passed_spent s (List.replicate j EnvMove.quiet ++
      { fails := true, landed := landed } :: ms) (.write a v) .done (hw.keeps .quiet s.dev)
    rw [tWrite_quiet ha hs hw.noReset, bind_ok]
    exact hpass.failed (hf j _ rfl rfl hs rfl)

/-- `fifoLength` that fails, or is let through and what follows fails (R100, R192). -/
theorem fifoLength_bind_fails {α : Type} {f : Nat → State → Reply α} {k landed : Nat}
    {ms : List EnvMove} {s : State} (hl : Legal s.cfg) (ha : FailsAfter k landed ms s)
    (hf : ∀ j u, k = j + 1 → u.cfg = s.cfg → u.settle = s.settle → FailsAfter j landed ms u →
      EndsFailed ms u (f (min s.dev.fifo.length s.cfg.fifoCap) u)) :
    EndsFailed ms s ((fifoLength s).bind f) := by
  cases k with
  | zero => exact ((tRead_fails _ ha).bind _).bind f
  | succ j =>
    obtain ⟨v, hv⟩ := fifoLength_quiet ha hl.capMax
    rw [hv, bind_ok]
    exact (passed_spent s _ _ _ (d := s.dev) rfl).failed (hf j _ rfl rfl rfl rfl)

/-- `writeFIFO` with a failed primitive, the length query or the bulk write of bytes that fit (R105). -/
theorem writeFifo_fails {data : List Byte} {k landed : Nat} {ms : List EnvMove} {s : State} (hk : k < 2)
    (hd : data ≠ []) (hroom : s.dev.fifo.length < s.cfg.fifoCap) (hl : Legal s.cfg) (hs : s.settle = 0)
    (ha : FailsAfter k landed ms s) : EndsFailed ms s (writeFifo data s) := by
  refine fifoLength_bind_fails hl ha fun j u hj hc hu ha => ?_
  obtain rfl : j = 0 := by omega
  have hlen : data.length ≠ 0 := mt List.eq_nil_of_length_eq_zero hd
  dsimp only
  rw [if_neg (by rw [hc]; omega)]
  exact (tFifoWrite_fails (hu.trans hs) ha).bind _

/-- `readFIFO` with a failed primitive, the length query or the bulk read of bytes there are (R102). -/
theorem readFifo_fails {maxLen k landed : Nat} {ms : List EnvMove} {s : State} (hk : k < 2)
    (hd : k = 1 → min maxLen (min s.dev.fifo.length s.cfg.fifoCap) ≠ 0) (hl : Legal s.cfg)
    (hs : s.settle = 0) (ha : FailsAfter k landed ms s) : EndsFailed ms s (readFifo maxLen s) := by
  refine fifoLength_bind_fails hl ha fun j u hj _ hu ha => ?_
  obtain rfl : j = 0 := by omega
  dsimp only
  rw [if_neg (hd hj)]
  exact (tFifoRead_fails (hu.trans hs) ha).bind _

theorem bind_assoc {α β γ : Type} (r : Reply α) (f : α → State → Reply β) (g : β → State → Reply γ) :
    (r.bind f).bind g = r.bind fun a s => (f a s).bind g := by
  cases r <;> rfl

section Exchange

variable {s : State} {icop : Byte} {params : List Byte} {q landed : Nat} {ms : List EnvMove}

/-- An exchange one of whose first four writes fails (R128, R192). -/
theorem xchg_opening_fails {k : Nat} (fc : Byte) (need : Nat) (h : Ready s icop) (hk : k < 4)
    (ha : FailsAfter k landed ms s) : EndsFailed ms s (xchg fc icop params need s) := by
  have hl := Legal.of h.legal
  refine tWrite_bind_fails (flush_opening hl) h.settled ha fun k₁ s₁ hk₁ hc₁ hs₁ ha₁ => ?_
  rw [hc₁]
  refine tWrite_bind_fails (hc₁ ▸ frame_opening hl fc) hs₁ ha₁ fun k₂ s₂ hk₂ hc₂ hs₂ ha₂ => ?_
  have hc₂ := hc₂.trans hc₁
  refine tWrite_bind_fails (hc₂ ▸ irqClear_opening hl) hs₂ ha₂ fun k₃ s₃ hk₃ hc₃ hs₃ ha₃ => ?_
  have hc₃ := hc₃.trans hc₂
  rw [writeCommand, bind_assoc]
  refine tWrite_bind_fails (hc₃ ▸ command_opening hl h.opcode) hs₃ ha₃ fun k₄ s₄ hk₄ _ _ _ => ?_
  omega

/-- An exchange one of whose primitives before the POLL fails (R128, R192). -/
theorem xchg_preparation_fails {k : Nat} (fc : Byte) (need : Nat) (h : Ready s icop)
    (hk : k < preparation params.length) (ha : FailsAfter k landed ms s) :
    EndsFailed ms s (xchg fc icop params need s) := by
  by_cases hopen : k < 4
  · exact xchg_opening_fails fc need h hopen ha
  · have hl := Legal.of h.legal
    obtain ⟨j, rfl⟩ : ∃ j, k = 4 + j := ⟨k - 4, by omega⟩
    have hp : params ≠ [] := by
      rintro rfl
      exact hopen hk
    have hj : j < 2 := by
      rw [preparation, if_neg (mt List.eq_nil_of_length_eq_zero hp)] at hk
      omega
    rw [FailsAfter, List.replicate_add, List.append_assoc] at ha
    rw [xchg_params fc need h hp ha]
    have hcap := hl.capPos
    exact (opened_spent s fc icop _).failed
      ((writeFifo_fails (s := opened s fc icop _) hj hp hcap hl h.settled rfl).bind _)

/-- An exchange that completes its POLL and fails as it drains (R128, R192). -/
theorem xchg_drain_fails {k : Nat} {d : List Byte} {need : Nat} (fc : Byte) (h : Ready s icop)
    (hfit : params.length ≤ s.cfg.fifoCap)
    (hq : q ≤ s.pe.pollBudget.toNat / s.pe.pollInterval.toNat + 1) (hd : d.length ≤ s.cfg.fifoCap)
    (hk : k < 2) (hdrain : k = 1 → d ≠ []) (hneed : 0 < need)
    (ha : s.agent = .any (exchangeMoves params.length q d s.cfg.mDone ++
      (List.replicate k EnvMove.quiet ++ { fails := true, landed := landed } :: ms))) :
    ∃ u, xchg fc icop params need s = .err .commErr u ∧ Spent (s.pe.waited q) ms s u := by
  have hl := Legal.of h.legal
  have hcap := hl.capPos
  obtain ⟨l, _, hx⟩ := xchg_shown fc need h hfit hq hd (verdict_done hl) ha
  have hread : EndsFailed ms _ (readFifo need (exchanged s (s.pe.waited q) d s.cfg.mDone fc icop
      (List.replicate k EnvMove.quiet ++ { fails := true, landed := landed } :: ms) l)) :=
    readFifo_fails (landed := landed) hk (fun h1 => by
      have hlen : d.length ≠ 0 := mt List.eq_nil_of_length_eq_zero (hdrain h1)
      simp only [exchanged]
      omega) hl h.settled rfl
  obtain ⟨u, hu, hspent⟩ := hread
  exact ⟨u, hx.trans hu, (exchanged_spent s _ _ _ _ _ _ _).trans hspent⟩

/-- Every ending of an exchange with a code (R126 to R128, R192, R194): it ends with that code, ELAPSED is
what its POLL made of it, and of the device it changed only what `DeviceKept` names. -/
theorem xchg_ends {ending : List EnvMove} {c : Result} {made : Option Nat} {need : Nat} (fc : Byte)
    (h : Ready s icop) (hneed : 0 < need)
    (he : ExchangeEnds s.cfg s.pe.pollBudget s.pe.pollInterval params.length ending c made)
    (ha : s.agent = .any (ending ++ ms)) :
    ∃ u, xchg fc icop params need s = .err c u ∧
      Spent ((made.map s.pe.waited).getD s.pe.elapsed) ms s u := by
  cases he with
  | errorBit quiet d irq _ hfit hq hd hv hne =>
    obtain ⟨l, _, hx⟩ := xchg_shown fc need h hfit hq hd hv ha
    exact ⟨_, hx.trans (if_neg hne), exchanged_spent ..⟩
  | expired hfit =>
    obtain ⟨l, _, hx⟩ := xchg_expired fc need h hfit rfl ha
    exact ⟨_, hx, exchanged_spent ..⟩
  | failedBefore k landed hk =>
    rw [List.append_assoc] at ha
    exact xchg_preparation_fails fc need h hk ha
  | failedPoll quiet landed hfit hq =>
    rw [List.append_assoc] at ha
    obtain ⟨l, hx⟩ := xchg_failedPoll fc need h hfit hq ha
    exact ⟨_, hx, exchanged_spent ..⟩
  | failedLength quiet landed d hfit hq hd =>
    rw [List.append_assoc] at ha
    exact xchg_drain_fails (k := 0) fc h hfit hq hd (by decide) (by simp) hneed ha
  | failedDrain quiet landed d hfit hq hd hne =>
    rw [List.append_assoc] at ha
    exact xchg_drain_fails (k := 1) fc h hfit hq hd (by decide) (fun _ => hne) hneed ha
  | cut bs hn hcut =>
    have hw : min params.length (s.cfg.fifoCap - min bs.length s.cfg.fifoCap) = 0 ↔
        s.cfg.fifoCap ≤ bs.length := by omega
    rw [List.append_assoc, List.cons_append, ← if_congr hw rfl rfl] at ha
    obtain ⟨l, _, hx⟩ := xchg_cut fc need h rfl (by omega) ha
    exact ⟨_, hx, exchanged_spent ..⟩
  | short k hk hfit =>
    rw [List.append_assoc] at ha
    obtain ⟨l, _, hx⟩ := xchg_short fc need h hk hfit ha
    exact ⟨_, hx, exchanged_spent ..⟩

end Exchange

end Sys2Proof.Proofs
end

section
/-! PROOFS. Operations whose exchange ends with a code (spec 43_iso14443a_sequencer.md R144, R147, R150;
45_client_extension.md R175, R177; 60_exceptions.md R192 to R196): requests, SELECT at any level, and the
client reads. The levels of SELECT that continue are run out first. -/

namespace Sys2Proof.Proofs

open Sys2Proof.Machine Sys2Proof.Laws

/-! ### Requests -/

/-- REQA and WUPA whose exchange ends with a code (R142, R143, R150). -/
theorem exec_request_err {i : Instr} {s u : State} {c : Result} (hi : i = .reqa ∨ i = .wupa)
    (hp : s.pe.pollInterval ≠ 0)
    (hx : xchg s.cfg.vFrameShort7 s.cfg.icCmdTransceive [requestByte s.cfg i] 2 s.openAttempt = .err c u) :
    exec i s = .next (u.fail c) := by
  have hreq : request (requestByte s.cfg i) s = .err c u := by rw [request, hx, bind_err]
  have hexec : exec i s = .next (request (requestByte s.cfg i) s).finishAttempt := by
    rcases hi with rfl | rfl
    · exact if_neg hp
    · exact if_neg hp
  rw [hexec, hreq]
  rfl

/-- What a request starts its exchange from (R144). -/
theorem openAttempt_ready {s : State} (hl : s.cfg.legal = true) (hs : s.settle = 0)
    (ho : s.cfg.icCmdTransceive ≠ s.cfg.icCmdSoftReset) (hp : s.pe.pollInterval ≠ 0) :
    Ready s.openAttempt s.cfg.icCmdTransceive := ⟨hl, hs, ho, hp⟩

/-- `fail` after the exchange of a request (R150): the Tag registers of the opened attempt are clear. -/
theorem fail_exchanged (s : State) (e : BitVec 17) (fifo : List Byte) (irq fc icop : Byte)
    (ms : List EnvMove) (l : List BusStep) (c : Result) :
    (exchanged s.openAttempt e fifo irq fc icop ms l).fail c = { s with
      pe := { openedRegs s.pe with
        seq := .failed, result := c, count := 0, busy := false, elapsed := e }
      dev := { s.dev with fifo := fifo, cmd := icop, irq := irq, frame := fc }
      agent := .any ms
      sent := s.sent ++ [[c.code.setWidth 8, 0x00]]
      bus := s.bus ++ l } := rfl

/-- Settles O31, by `xchg_shown`. -/
theorem requestErrorBitFails : Obligations.RequestErrorBitFails := by
  intro i s quiet d irq c rest hrun hv hc
  obtain ⟨ha, hs⟩ := hrun.moves
  obtain ⟨l, hops, hx⟩ := xchg_shown (params := [requestByte s.cfg i]) s.cfg.vFrameShort7 2
    (openAttempt_ready hrun.legal hs hrun.opcode hrun.interval) (Legal.of hrun.legal).capPos hrun.inTime
    hrun.answer hv ha
  refine ⟨l, hops, ?_⟩
  rw [exec_request_err hrun.instr hrun.interval (hx.trans (if_neg hc)), fail_exchanged]
  rfl

/-- Reads of REG_IRQ are counted by their micro-steps. -/
theorem irqReads_eq_count (c : Cfg) (l : List BusStep) :
    irqReads c l = (l.map (·.op)).countP (· == .read c.regIrq) := by
  rw [List.countP_map, irqReads, List.countP_eq_length_filter]
  rfl

/-- A POLL reads REG_IRQ once a round and once more; nothing else in an exchange does. -/
theorem polledOps_irqReads {c : Cfg} (hl : Legal c) (i : Half) (fc icop : Byte) (params : List Byte)
    (q : Nat) : (polledOps c i fc icop params q).countP (· == .read c.regIrq) = q + 1 := by
  have hlen : ¬ c.regFifoLength = c.regIrq := hl.distinct.2.2.1.1
  have hopen : (openingOps c fc icop params).countP (· == .read c.regIrq) = 0 := by
    unfold openingOps
    split <;> simp [hlen]
  have hparams : (parameterOps params).countP (· == .read c.regIrq) = 0 := by
    unfold parameterOps
    split <;> simp
  have hrounds : ((List.replicate q [BusOp.read c.regIrq, .wait i.toNat]).flatten).countP
      (· == .read c.regIrq) = q := by
    induction q with
    | zero => rfl
    | succ q ih =>
      rw [List.replicate_succ, List.flatten_cons, List.countP_append, ih, Nat.add_comm]
      simp
  rw [polledOps, pollOps_eq, List.countP_append, List.countP_append, List.countP_append, hopen, hparams,
    hrounds]
  simp

/-- Settles O32, by `xchg_expired`. -/
theorem silentDeviceTimesOut : Obligations.SilentDeviceTimesOut := by
  intro i s rest hi hlegal ho hp q ⟨ha, hs⟩
  have hl := Legal.of hlegal
  obtain ⟨l, hops, hx⟩ := xchg_expired (params := [requestByte s.cfg i]) (q := q) s.cfg.vFrameShort7 2
    (openAttempt_ready hlegal hs ho hp) hl.capPos rfl ha
  refine ⟨l, ?_, ?_⟩
  · rw [exec_request_err hi hp hx, fail_exchanged]
    rfl
  · rw [irqReads_eq_count, hops]
    exact polledOps_irqReads hl _ _ _ _ q

/-! ### The levels of SELECT that continue -/

/-- The micro-steps of answered levels (R147). -/
def levelOps (c : Cfg) (i : Half) (levels : List Nat) (answers : List Answer) : List BusOp :=
  (List.zipWith (fun level a =>
    exchangeOps c i c.vFrameStd c.icCmdSelect [selectCode c level] a.quiet (min 5 a.bytes.length))
    levels answers).flatten

theorem selectOps_eq (c : Cfg) (i : Half) (answers : List Answer) :
    selectOps c i answers = levelOps c i [1, 2, 3] answers := by
  have hcodes : [c.selCl1, c.selCl2, c.selCl3] = [1, 2, 3].map (selectCode c) := rfl
  rw [selectOps, hcodes, List.zipWith_map_left]
  rfl

/-- A state with other registers of PE, another device and more traffic. -/
def resumed (s : State) (p : Regs) (d : Device) (ms : List EnvMove) (l : List BusStep) : State :=
  { s with pe := p, dev := d, agent := .any ms, bus := s.bus ++ l }

/-- What continuing levels leave of PE and of the device (R147): the UID registers, LEVEL and ELAPSED may
have changed, and of the device what `DeviceKept` names. -/
structure Continued (conts : List Continuing) (s : State) (p : Regs) (d : Device) : Prop where
  pe  : p = { s.pe with
    uid := p.uid, uidLen := p.uidLen, level := p.level, elapsed := s.pe.afterLevels conts }
  dev : DeviceKept s.dev d

/-- A level the device answers in time, and so that the SELECT goes on (R147, R148). -/
structure Continues (s : State) (k : Continuing) : Prop where
  sak    : k.sak &&& s.cfg.mSakCascade ≠ 0
  fits   : (k.answer s.cfg).bytes.length ≤ s.cfg.fifoCap
  inTime : k.quiet ≤ s.pe.pollBudget.toNat / s.pe.pollInterval.toNat + 1

theorem levelOutcome_next {c : Cfg} {level : Nat} {f1 f2 f3 sak : Byte} {more : List Byte}
    (hs : sak &&& c.mSakCascade ≠ 0) (hl : level ≠ 3) :
    levelOutcome c level (c.ct :: f1 :: f2 :: f3 :: sak :: more) = .next f1 f2 f3 := by
  rw [levelOutcome, if_pos hs, if_neg (by simp [hl])]

/-- The state as a level begins (R147). -/
def atLevel (s : State) (level : Nat) : State :=
  { s with pe := { s.pe with level := BitVec.ofNat 2 level } }

/-- PE after a level that continues (R147). -/
def continuedRegs (p : Regs) (level : Nat) (k : Continuing) : Regs :=
  { p with
    uid := uidWrite p.uid p.uidLen.toNat [k.f1, k.f2, k.f3], uidLen := p.uidLen + 3
    level := BitVec.ofNat 2 level, elapsed := p.waited k.quiet }

/-- The device after a level that continues (R128, R147). -/
def continuedDevice (c : Cfg) (d : Device) (k : Continuing) : Device :=
  { d with fifo := k.more, cmd := c.icCmdSelect, irq := c.mDone, frame := c.vFrameStd }

/-- A level that continues (R147): its exchange, and three bytes are kept. -/
theorem selectLevels_next {s : State} {level : Nat} {more : List Nat} {k : Continuing}
    {ms : List EnvMove} (h : Ready s s.cfg.icCmdSelect) (hk : Continues s k) (hlevel : level ≠ 3)
    (ha : s.agent = .any (selectMoves s.cfg [k.answer s.cfg] ++ ms)) :
    ∃ l, l.map (·.op) =
        exchangeOps s.cfg s.pe.pollInterval s.cfg.vFrameStd s.cfg.icCmdSelect [selectCode s.cfg level]
          k.quiet (min 5 (k.answer s.cfg).bytes.length) ∧
      selectLevels (level :: more) s = selectLevels more
        (resumed s (continuedRegs s.pe level k) (continuedDevice s.cfg s.dev k) ms l) := by
  have ha : s.agent = .any (exchangeMoves 1 k.quiet (k.answer s.cfg).bytes s.cfg.mDone ++
      ([.quiet, .quiet] ++ ms)) := by
    simpa [selectMoves, Continuing.answer] using ha
  obtain ⟨l, hops, hx⟩ := xchg_answered (params := [selectCode s.cfg level]) (d := (k.answer s.cfg).bytes)
    (s := atLevel s level) s.cfg.vFrameStd 5
    ⟨h.legal, h.settled, h.opcode, (Legal.of h.legal).capPos, hk.fits, h.clocked, hk.inTime⟩
    (verdict_done (Legal.of h.legal)) ha
  refine ⟨l, hops, (congrArg (Reply.bind · _) hx).trans ?_⟩
  rw [bind_ok]
  simp only [Continuing.answer, List.take_succ_cons, atLevel]
  rw [levelOutcome_next hk.sak hlevel]
  rfl

theorem Continued.nil (s : State) : Continued [] s s.pe s.dev := ⟨rfl, rfl⟩

/-- ELAPSED after continuing levels is what the last of them left (R32). -/
theorem afterLevels_cons {p p' : Regs} {k : Continuing} (more : List Continuing)
    (he : p'.elapsed = p.waited k.quiet) (hi : p'.pollInterval = p.pollInterval) :
    p'.afterLevels more = p.afterLevels (k :: more) := by
  cases more with
  | nil => exact he
  | cons k' more =>
    unfold Regs.afterLevels Regs.waited
    rw [List.getLast?_cons_cons, hi]
    cases h : (k' :: more).getLast? with
    | none => simp at h
    | some _ => rfl

theorem Continued.cons {s : State} {level : Nat} {k : Continuing} {more : List Continuing} {p : Regs}
    {d : Device} {ms : List EnvMove} {l : List BusStep}
    (h : Continued more
      (resumed s (continuedRegs s.pe level k) (continuedDevice s.cfg s.dev k) ms l) p d) :
    Continued (k :: more) s p d := by
  refine ⟨?_, DeviceKept.trans (d' := continuedDevice s.cfg s.dev k) rfl h.dev⟩
  have hel := afterLevels_cons (p := s.pe) (p' := continuedRegs s.pe level k) (k := k) more rfl rfl
  rw [← hel]
  exact h.pe

/-- SELECT over levels that continue, from `level` on (R147): it goes on with the levels after them. -/
theorem selectLevels_continue {ms : List EnvMove} : ∀ (conts : List Continuing) (level rest : Nat)
    (s : State), level + conts.length ≤ 3 → Ready s s.cfg.icCmdSelect → (∀ k ∈ conts, Continues s k) →
    s.agent = .any (selectMoves s.cfg (conts.map (·.answer s.cfg)) ++ ms) →
    ∃ p d l, Continued conts s p d ∧
      l.map (·.op) = levelOps s.cfg s.pe.pollInterval (List.range' level (conts.length + rest))
        (conts.map (·.answer s.cfg)) ∧
      selectLevels (List.range' level (conts.length + rest)) s =
        selectLevels (List.range' (level + conts.length) rest) (resumed s p d ms l)
  | [], level, rest, s, _, _, _, ha => by
    have ha : s.agent = .any ms := ha
    exact ⟨s.pe, s.dev, [], .nil s, by simp [levelOps], by simp [resumed, ← ha]⟩
  | k :: more, level, rest, s, hlevel, h, hk, ha => by
    rw [List.length_cons] at hlevel
    have ha : s.agent = .any (selectMoves s.cfg [k.answer s.cfg] ++
        (selectMoves s.cfg (more.map (·.answer s.cfg)) ++ ms)) := by
      simpa [selectMoves] using ha
    obtain ⟨l₁, hops₁, hx₁⟩ := selectLevels_next
      (more := List.range' (level + 1) (more.length + rest)) h (hk k List.mem_cons_self)
      (show level ≠ 3 by omega) ha
    obtain ⟨p, d, l₂, hc, hops₂, hx₂⟩ := selectLevels_continue (ms := ms) more (level + 1) rest
      (resumed s (continuedRegs s.pe level k) (continuedDevice s.cfg s.dev k)
        (selectMoves s.cfg (more.map (·.answer s.cfg)) ++ ms) l₁) (by omega)
      ⟨h.legal, h.settled, h.opcode, h.clocked⟩
      (fun k' hk' => let h' := hk k' (List.mem_cons_of_mem _ hk'); ⟨h'.sak, h'.fits, h'.inTime⟩) rfl
    have hrange : List.range' level ((k :: more).length + rest) =
        level :: List.range' (level + 1) (more.length + rest) := by
      rw [List.length_cons, Nat.add_right_comm, List.range'_succ]
    refine ⟨p, d, l₁ ++ l₂, hc.cons, ?_, ?_⟩
    · rw [hrange, List.map_append, hops₁, hops₂]
      rfl
    · rw [hrange, hx₁, hx₂, List.length_cons, Nat.add_right_comm level, Nat.add_assoc level]
      simp only [resumed, List.append_assoc]

/-! ### SELECT that ends at a level -/

/-- The state of SELECT as the first level begins (R146). -/
def selecting (s : State) : State := { s with pe := { s.pe with seq := .select } }

/-- A SELECT that its levels end with a code (R147, R150). -/
theorem exec_select_err {s u : State} {c : Result} (hq : s.pe.seq = .request)
    (hp : s.pe.pollInterval ≠ 0) (hx : selectLevels [1, 2, 3] (selecting s) = .err c u) :
    exec .select s = .next (u.fail c) := by
  have hexec : exec .select s = .next (selectLevels [1, 2, 3] (selecting s)).finishAttempt :=
    (if_pos hq).trans (if_neg hp)
  rw [hexec, hx]
  rfl

/-- A level whose exchange ends with a code ends the cascade loop (R147). -/
theorem selectLevels_err {s u : State} {level : Nat} {c : Result} (more : List Nat)
    (hx : xchg s.cfg.vFrameStd s.cfg.icCmdSelect [selectCode s.cfg level] 5 (atLevel s level) =
      .err c u) : selectLevels (level :: more) s = .err c u :=
  congrArg (Reply.bind · _) hx

/-- A SELECT whose first levels continue (R147): it comes to the next level, with PE and the device as
`Continued` says. -/
theorem select_reaches {s : State} {conts : List Continuing} {ms : List EnvMove}
    (hlen : conts.length ≤ 2) (hk : ∀ k ∈ conts, k.sak &&& s.cfg.mSakCascade ≠ 0)
    (h : SelectRun s (conts.map (·.answer s.cfg)) ms) :
    ∃ p d l, Continued conts (selecting s) p d ∧
      l.map (·.op) = selectOps s.cfg s.pe.pollInterval (conts.map (·.answer s.cfg)) ∧
      Ready (atLevel (resumed (selecting s) p d ms l) (conts.length + 1)) s.cfg.icCmdSelect ∧
      ∀ c u, xchg s.cfg.vFrameStd s.cfg.icCmdSelect [selectCode s.cfg (conts.length + 1)] 5
          (atLevel (resumed (selecting s) p d ms l) (conts.length + 1)) = .err c u →
        exec .select s = .next (u.fail c) := by
  obtain ⟨ha, hs⟩ := h.moves
  have hcont : ∀ k ∈ conts, Continues (selecting s) k := fun k hmem =>
    have hans := List.mem_map_of_mem (f := (·.answer s.cfg)) hmem
    ⟨hk k hmem, h.fits _ hans, h.inTime _ hans⟩
  obtain ⟨p, d, l, hc, hops, hx⟩ := selectLevels_continue conts 1 (3 - conts.length) (selecting s)
    (by omega) ⟨h.legal, hs, h.opcode, h.interval⟩ hcont ha
  have hinterval : p.pollInterval = s.pe.pollInterval := by
    rw [hc.pe]
    rfl
  have hall : List.range' 1 (conts.length + (3 - conts.length)) = [1, 2, 3] := by
    rw [show conts.length + (3 - conts.length) = 3 by omega]
    rfl
  have hrest : List.range' (1 + conts.length) (3 - conts.length) =
      (conts.length + 1) :: List.range' (conts.length + 2) (2 - conts.length) := by
    rw [show 3 - conts.length = 2 - conts.length + 1 by omega, List.range'_succ, Nat.add_comm 1]
  rw [hall] at hops
  rw [hall, hrest] at hx
  refine ⟨p, d, l, hc, hops.trans (selectOps_eq _ _ _).symm,
    ⟨h.legal, hs, h.opcode, fun h0 => h.interval (hinterval.symm.trans h0)⟩, fun c u hu => ?_⟩
  exact exec_select_err h.seq h.interval (hx.trans (selectLevels_err _ hu))

theorem Continued.waited {conts : List Continuing} {s : State} {p : Regs} {d : Device}
    (h : Continued conts s p d) : p.waited = s.pe.waited := by
  funext n
  rw [h.pe]
  rfl

/-- `fail` of registers that continuing levels left (R150). -/
theorem Continued.failedRegs {conts : List Continuing} {s : State} {p : Regs} {d : Device}
    (h : Continued conts (selecting s) p d) (level : BitVec 2) (c : Result) (e : BitVec 17) :
    { p.clearTag with
      seq := .failed, level := level, result := c, count := 0, busy := false, elapsed := e } =
    { openedRegs s.pe with
      seq := .failed, level := level, result := c, count := 0, busy := false, elapsed := e } := by
  rw [h.pe]
  rfl

/-- What an exchange sets of the device hides what continuing levels left of it. -/
theorem DeviceKept.set {d d' : Device} (h : DeviceKept d d') (fifo : List Byte) (cmd irq frame : Byte) :
    { d' with fifo := fifo, cmd := cmd, irq := irq, frame := frame } =
      { d with fifo := fifo, cmd := cmd, irq := irq, frame := frame } := by
  rw [h]

/-- `fail` after an exchange at a level of SELECT (R150). -/
theorem fail_exchanged_level {s : State} {conts : List Continuing} {p : Regs} {d : Device}
    (h : Continued conts (selecting s) p d) (level : Nat) (e : BitVec 17) (fifo : List Byte)
    (irq fc icop : Byte) (ms ms' : List EnvMove) (l l' : List BusStep) (c : Result) :
    (exchanged (atLevel (resumed (selecting s) p d ms l) level) e fifo irq fc icop ms' l').fail c =
      { s with
        pe := { openedRegs s.pe with
          seq := .failed, level := BitVec.ofNat 2 level, result := c, count := 0, busy := false
          elapsed := e }
        dev := { s.dev with fifo := fifo, cmd := icop, irq := irq, frame := fc }
        agent := .any ms'
        sent := s.sent ++ [[c.code.setWidth 8, 0x00]]
        bus := s.bus ++ (l ++ l') } := by
  have hdev : { d with fifo := fifo, cmd := icop, irq := irq, frame := fc } =
      { s.dev with fifo := fifo, cmd := icop, irq := irq, frame := fc } := h.dev.set fifo icop irq fc
  rw [← h.failedRegs, ← hdev, ← List.append_assoc]
  rfl

/-! ### A parameter byte the guard keeps out -/

/-- An exchange whose one parameter byte the guard keeps out (R105, R128): PROTO_SHORT without a POLL. -/
theorem xchg_parameterCut {s : State} {cut ms : List EnvMove} {fifo : List Byte} {written : Bool}
    {icop : Byte} (fc byte : Byte) (need : Nat) (h : Ready s icop)
    (hcut : ParameterCut s.cfg cut fifo written) (ha : s.agent = .any (cut ++ ms)) :
    ∃ l, l.map (·.op) =
        openingOps s.cfg fc icop [byte] ++ (if written then [.fifoWrite [byte]] else []) ∧
      xchg fc icop [byte] need s =
        .err .protoShort (exchanged s s.pe.elapsed fifo 0 fc icop ms l) := by
  cases hcut with
  | full bs hfull =>
    rw [List.append_assoc] at ha
    obtain ⟨l, hops, hx⟩ := xchg_cut (params := [byte]) (w := 0) fc need h
      (by rw [Nat.min_eq_right hfull, Nat.sub_self, Nat.min_zero]) (by simp) ha
    exact ⟨l, hops, by rw [hx, List.take_zero, List.append_nil]⟩
  | short =>
    rw [List.append_assoc] at ha
    exact xchg_short (params := [byte]) (k := 0) fc need h (by simp) (Legal.of h.legal).capPos ha

/-- Settles O57: `xchg_parameterCut` ends the exchange, `select_reaches` comes to the level. -/
theorem cutParameterEndsAttempt : Obligations.CutParameterEndsAttempt := by
  intro s cut fifo written rest hlegal hp hcut ops ended
  refine ⟨fun i hi ho ⟨ha, hs⟩ => ?_, fun conts hlen hk hrun => ?_⟩
  · obtain ⟨l, hops, hx⟩ := xchg_parameterCut s.cfg.vFrameShort7 (requestByte s.cfg i) 2
      (openAttempt_ready hlegal hs ho hp) hcut ha
    refine ⟨l, hops, ?_⟩
    rw [exec_request_err hi hp hx, fail_exchanged]
    rfl
  · obtain ⟨p, d, l, hc, hops, hready, hexec⟩ := select_reaches hlen hk hrun
    obtain ⟨l', hops', hx⟩ := xchg_parameterCut s.cfg.vFrameStd
      (selectCode s.cfg (conts.length + 1)) 5 hready hcut rfl
    refine ⟨l ++ l', ?_, ?_⟩
    · rw [List.map_append, hops, hops']
      rfl
    · have hel : p.elapsed = s.pe.afterLevels conts := by
        rw [hc.pe]
        rfl
      rw [hexec _ _ hx, fail_exchanged_level hc, ← hel]
      rfl

/-! ### Every ending -/

/-- A client read whose exchange ends with a code (R175, R177). -/
theorem exec_clientRead_err {i : Instr} {s u : State} {c : Result}
    (hi : (∃ b, i = .rdblk b) ∨ ∃ p, i = .rdpage p) (he : s.cfg.extClient = true)
    (hp : s.pe.pollInterval ≠ 0)
    (hx : xchg s.cfg.vFrameStd (clientReadOf s.cfg i).1 (clientReadOf s.cfg i).2.1
      (clientReadOf s.cfg i).2.2 s = .err c u) : exec i s = .next (u.raiseCode c) := by
  have hread : clientRead (clientReadOf s.cfg i).1 (clientReadOf s.cfg i).2.1
      (clientReadOf s.cfg i).2.2 s = .err c u := by rw [clientRead, hx, bind_err]
  have hexec : exec i s = .next (clientRead (clientReadOf s.cfg i).1 (clientReadOf s.cfg i).2.1
      (clientReadOf s.cfg i).2.2 s).finish := by
    rcases hi with ⟨b, rfl⟩ | ⟨p, rfl⟩
    · exact (if_pos he).trans (if_neg hp)
    · exact (if_pos he).trans (if_neg hp)
  rw [hexec, hread, finish_err]

theorem clientReadOf_pos {c : Cfg} {i : Instr} (hi : (∃ b, i = .rdblk b) ∨ ∃ p, i = .rdpage p) :
    0 < (clientReadOf c i).2.2 := by
  rcases hi with ⟨b, rfl⟩ | ⟨p, rfl⟩ <;> simp [clientReadOf]

theorem fail_pe (s : State) (c : Result) :
    (s.fail c).pe =
      { s.pe.clearTag with seq := .failed, result := c, count := 0, busy := false } := rfl

theorem raiseCode_pe (s : State) (c : Result) :
    (s.raiseCode c).pe = { s.pe with result := c, count := 0, busy := false } := rfl

/-- Settles O58: `xchg_ends` says how the exchange ends, `select_reaches` comes to the level. -/
theorem exchangeErrorEndsOperation : Obligations.ExchangeErrorEndsOperation := by
  intro s n ending c made rest hlegal hp hends after ended
  refine ⟨fun i hi hn ho ⟨ha, hs⟩ => ?_, fun conts hlen hn hk hrun => ?_,
    fun i hi he hn ho ⟨ha, hs⟩ => ?_⟩
  · subst hn
    obtain ⟨u, hx, hu⟩ := xchg_ends (params := [requestByte s.cfg i]) (need := 2) s.cfg.vFrameShort7
      (openAttempt_ready hlegal hs ho hp) (by decide) hends ha
    refine ⟨u.fail c, exec_request_err hi hp hx, ?_, ?_, hu.dev, hu.agent, hu.host, hu.cfg⟩
    · rw [fail_sent, hu.sent]
      rfl
    · rw [fail_pe, hu.pe]
      rfl
  · subst hn
    obtain ⟨p, d, l, hc, _, hready, hexec⟩ := select_reaches hlen hk hrun
    have hends' : ExchangeEnds s.cfg p.pollBudget p.pollInterval 1 ending c made := by
      rw [hc.pe]
      exact hends
    obtain ⟨u, hx, hu⟩ := xchg_ends (params := [selectCode s.cfg (conts.length + 1)]) (need := 5)
      s.cfg.vFrameStd hready (by decide) hends' rfl
    refine ⟨u.fail c, hexec _ _ hx, ?_, ?_, hc.dev.trans hu.dev, hu.agent, hu.host, hu.cfg⟩
    · rw [fail_sent, hu.sent]
      rfl
    · rw [fail_pe, hu.pe]
      change { p.clearTag with
        seq := .failed, level := BitVec.ofNat 2 (conts.length + 1), result := c, count := 0
        busy := false, elapsed := (made.map p.waited).getD p.elapsed } = _
      rw [hc.failedRegs, hc.waited, hc.pe]
      rfl
  · subst hn
    obtain ⟨u, hx, hu⟩ := xchg_ends s.cfg.vFrameStd ⟨hlegal, hs, ho, hp⟩ (clientReadOf_pos hi) hends ha
    refine ⟨u.raiseCode c, exec_clientRead_err hi he hp hx, ?_, ?_, hu.dev, hu.agent, hu.host, hu.cfg⟩
    · rw [raiseCode_sent, hu.sent]
    · rw [raiseCode_pe, hu.pe]

end Sys2Proof.Proofs
end

section
/-! PROOFS. The sequencer against listed moves (spec 43_iso14443a_sequencer.md R141 to R150): requests
whose exchange completes, the cascade decision, and SELECT over levels the device answers. -/

namespace Sys2Proof.Proofs

open Sys2Proof.Machine Sys2Proof.Laws

/-! ### Requests that complete -/

/-- REQA and WUPA in a state whose POLL_INTERVAL R33 (vi) allows (R142, R143). -/
theorem exec_request {i : Instr} {s : State} (hi : i = .reqa ∨ i = .wupa)
    (hp : s.pe.pollInterval ≠ 0) :
    exec i s = .next (request (requestByte s.cfg i) s).finishAttempt := by
  rcases hi with rfl | rfl
  · exact if_neg hp
  · exact if_neg hp

/-- Nothing is drained exactly if nothing was received (R103). -/
theorem min_length_eq_zero {need : Nat} (hneed : need ≠ 0) (d : List Byte) :
    min need d.length = 0 ↔ d = [] := by
  simp [hneed]

/-- A request the device completes (R144, R145): what its exchange drained is read from the state the
exchange left. -/
theorem exec_request_completed {i : Instr} {s : State} {quiet : Nat} {d : List Byte}
    {rest : List EnvMove}
    (h : RequestRun i s quiet d s.cfg.mDone ((if d = [] then [.quiet] else [.quiet, .quiet]) ++ rest)) :
    ∃ l, l.map (·.op) = exchangeOps s.cfg s.pe.pollInterval s.cfg.vFrameShort7 s.cfg.icCmdTransceive
        [requestByte s.cfg i] quiet (min 2 d.length) ∧
      exec i s = .next (requestOutcome (d.take 2)
        (exchanged s.openAttempt (s.pe.waited quiet) (d.drop 2) s.cfg.mDone s.cfg.vFrameShort7
          s.cfg.icCmdTransceive rest l)).finishAttempt := by
  obtain ⟨ha, hs⟩ := h.moves
  have hl := Legal.of h.legal
  obtain ⟨l, hops, hx⟩ := xchg_answered (s := s.openAttempt) (params := [requestByte s.cfg i])
    s.cfg.vFrameShort7 2 ⟨h.legal, hs, h.opcode, hl.capPos, h.answer, h.interval, h.inTime⟩
    (verdict_done hl) (by simp only [min_length_eq_zero two_ne_zero]; exact ha)
  refine ⟨l, hops, ?_⟩
  rw [exec_request h.instr h.interval, request, hx]
  rfl

/-- Settles O28: `exec_request_completed` runs the exchange, `requestOutcome_atqa` reads its answer. -/
theorem requestReadsAtqa : Obligations.RequestReadsAtqa := by
  intro i s quiet d0 d1 more rest hrun hd
  obtain ⟨l, hops, hexec⟩ := exec_request_completed hrun
  refine ⟨l, hops, ?_⟩
  rw [hexec, List.take_succ_cons, List.take_succ_cons, List.take_zero, requestOutcome_atqa hd]
  rfl

/-- No byte and two zero bytes are read alike (R144, R145 (a), (b)). -/
theorem requestOutcome_noTag {d : List Byte} (hd : d = [] ∨ d = [0, 0]) (s : State) :
    requestOutcome d s = .ok { code := .noTag, count := 2, data := [0, 0] }
      { s with pe := { s.pe with atqa := 0, seq := .idle } } := by
  rcases hd with rfl | rfl
  · rfl
  · have hzero : joinBytes 0 0 = 0 := joinBytes_eq_zero.mpr ⟨rfl, rfl⟩
    simp only [requestOutcome, hzero, if_true]

/-- Settles O29: what the exchange drained is no byte or two zero bytes. -/
theorem requestWithoutTag : Obligations.RequestWithoutTag := by
  intro i s quiet d rest hd hrun
  have hdrained : d.take 2 = [] ∨ d.take 2 = [0, 0] := by
    rcases hd with rfl | ⟨more, rfl⟩
    · exact .inl rfl
    · exact .inr rfl
  have hmoves : List.replicate (if d = [] then 1 else 2) EnvMove.quiet =
      if d = [] then [.quiet] else [.quiet, .quiet] := by split <;> rfl
  rw [hmoves] at hrun
  obtain ⟨l, hops, hexec⟩ := exec_request_completed hrun
  refine ⟨l, hops, ?_⟩
  rw [hexec, requestOutcome_noTag hdrained]
  rfl

/-- Settles O30: one byte is no ATQA, and `fail` ends the attempt. -/
theorem requestShortAnswerFails : Obligations.RequestShortAnswerFails := by
  intro i s quiet b rest hrun
  obtain ⟨l, _, hexec⟩ := exec_request_completed hrun
  exact ⟨l, hexec.trans (congrArg Host.Outcome.next (fail_exchanged s _ _ _ _ _ _ l _))⟩

/-! ### Admission and the cascade decision -/

theorem xchgCode_ne_badSeq {c : Result} (h : XchgCode c) : c ≠ .badSeq := by
  rcases h with (rfl | rfl | rfl | rfl) | rfl <;> decide

/-- An admitted SELECT is past the one check that raises BAD_SEQ (R146): the cascade loop never ends with
it, and RESET leaves OK in RESULT (R221). -/
theorem selectLevels_ne_badSeq : ∀ (levels : List Nat) (s : State),
    Post (selectLevels levels s) (fun x _ => x.code ≠ .badSeq) (fun c _ => c ≠ .badSeq)
      fun t => t.pe.result ≠ .badSeq
  | [], _ => nofun
  | level :: more, s => by
    refine (xchg_post _ _ _ _ _).bind (fun c _ h => xchgCode_ne_badSeq h.1) ?_ fun d t _ => ?_
    · rintro _ ⟨u, _, rfl⟩
      nofun
    · dsimp only
      split
      · nofun
      · nofun
      · exact selectLevels_ne_badSeq more _
      · nofun

/-- The end of a sequencer operation writes the code of its reply (R196). -/
theorem finishAttempt_result {r : Reply Response} {c : Result}
    (h : Post r (fun x _ => x.code ≠ c) (fun c' _ => c' ≠ c) fun t => t.pe.result ≠ c) :
    r.finishAttempt.pe.result ≠ c := by
  cases r with
  | ok x u => exact h
  | err c' u => exact h
  | cut u => exact h

/-- SELECT from REQUEST runs the cascade loop (R146, R147). -/
theorem execSelect_admitted {s t : State} (hq : s.pe.seq = .request) (h : exec .select s = .next t) :
    (selectLevels [1, 2, 3] (selecting s)).finishAttempt = t :=
  polling_next ((if_pos hq).symm.trans h)

/-- Settles O34: the refusal is the check of R146; once admitted, `selectLevels_ne_badSeq`. -/
theorem selectRefusedOutOfSequence : Obligations.SelectRefusedOutOfSequence := by
  refine fun s => ⟨fun hq => if_neg hq, fun t hq hexec _ => ?_⟩
  rw [← execSelect_admitted hq hexec]
  exact finishAttempt_result (selectLevels_ne_badSeq _ _)

/-- The cascade bit is clear (R148): final, unless the tag stands where it is not accepted. -/
theorem levelOutcome_clear {c : Cfg} {f0 f1 f2 f3 sak : Byte} (level : Nat) (more : List Byte)
    (hs : sak &&& c.mSakCascade = 0) :
    levelOutcome c level (f0 :: f1 :: f2 :: f3 :: sak :: more) =
      if f0 = c.ct ∧ c.ctFinalAccept = false then .cascade else .final f0 f1 f2 f3 sak :=
  if_neg (not_not.mpr hs)

/-- The cascade bit is set (R148): the next level, unless this is the last or the tag is missing. -/
theorem levelOutcome_set {c : Cfg} {f0 f1 f2 f3 sak : Byte} (level : Nat) (more : List Byte)
    (hs : sak &&& c.mSakCascade ≠ 0) :
    levelOutcome c level (f0 :: f1 :: f2 :: f3 :: sak :: more) =
      if level = 3 ∨ f0 ≠ c.ct then .cascade else .next f1 f2 f3 :=
  if_pos hs

/-- Settles O35: the rows of R148 by the cascade bit, the tag and the level. -/
theorem cascadeDecisionTable : Obligations.CascadeDecisionTable := by
  intro c f0 f1 f2 f3 sak
  refine ⟨fun hs h0 => ?_, fun level hs h0 => ?_, fun level hs h0 => ?_, fun level hs h0 => ?_,
    fun hs => ?_⟩
  · subst h0
    exact ⟨levelOutcome_next hs (by decide), levelOutcome_next hs (by decide)⟩
  · rw [levelOutcome_clear level [] hs, if_neg fun h => h0 h.1]
  · rw [levelOutcome_clear level [] hs]
    cases c.ctFinalAccept <;> simp [h0]
  · rw [levelOutcome_set level [] hs, if_pos (.inr h0)]
  · rw [levelOutcome_set 3 [] hs, if_pos (.inl rfl)]

theorem levelOutcome_short {c : Cfg} {level : Nat} : ∀ {d : List Byte}, d.length < 5 →
    levelOutcome c level d = .short
  | [], _ | [_], _ | [_, _], _ | [_, _, _], _ | [_, _, _, _], _ => rfl
  | _ :: _ :: _ :: _ :: _ :: _, h => absurd h (by simp)

/-- Only the first five bytes of an answer decide (R147). -/
theorem levelOutcome_take (c : Cfg) (level : Nat) : ∀ d : List Byte,
    levelOutcome c level (d.take 5) = levelOutcome c level d
  | [] | [_] | [_, _] | [_, _, _] | [_, _, _, _] | _ :: _ :: _ :: _ :: _ :: _ => rfl

/-! ### The UID registers -/

theorem uidWrite_append : ∀ (bs bs' : List Byte) (u : Vector Byte 10) (k : Nat),
    uidWrite u k (bs ++ bs') = uidWrite (uidWrite u k bs) (k + bs.length) bs'
  | [], _, _, _ => rfl
  | b :: bs, bs', u, k => by
    rw [List.cons_append, uidWrite, uidWrite_append bs, uidWrite, List.length_cons,
      Nat.add_right_comm, Nat.add_assoc]

/-- `UID[at ..] <- bs` where the bytes fit (R23): the bytes before and behind stay. -/
theorem uidWrite_toList : ∀ (bs : List Byte) (u : Vector Byte 10) (k : Nat), k + bs.length ≤ 10 →
    (uidWrite u k bs).toList = u.toList.take k ++ bs ++ u.toList.drop (k + bs.length)
  | [], u, k, _ => by simp [uidWrite]
  | b :: bs, u, k, h => by
    rw [List.length_cons] at h
    have hk : k < u.toList.length := by simp; omega
    have htake : (u.toList.set k b).take (k + 1) = u.toList.take k ++ [b] := by
      rw [List.take_add_one, List.take_set_of_le (Nat.le_refl k), List.getElem?_set_self hk]
      rfl
    rw [uidWrite, uidWrite_toList bs _ (k + 1) (by omega), Vector.toList_setIfInBounds, htake,
      List.drop_set_of_lt (by omega), List.length_cons, Nat.add_right_comm k 1, Nat.add_assoc k]
    simp

/-- The UID bytes continuing levels give, in level order and without a tag (R147, R149). -/
def fragments (conts : List Continuing) : List Byte := conts.flatMap fun k => [k.f1, k.f2, k.f3]

theorem fragments_length (conts : List Continuing) : (fragments conts).length = 3 * conts.length := by
  induction conts with
  | nil => rfl
  | cons k more ih =>
    have hcons : fragments (k :: more) = k.f1 :: k.f2 :: k.f3 :: fragments more := rfl
    rw [hcons, List.length_cons, List.length_cons, List.length_cons, ih, List.length_cons, Nat.mul_add]

/-! ### SELECT over answered levels -/

/-- What a completed level leads to (R147, R148), from the state its exchange left. -/
def levelEnd (level : Nat) (more : List Nat) (d : List Byte) (u : State) : Reply Response :=
  match levelOutcome u.cfg level d with
  | .short => .err .protoShort u
  | .cascade => .err .protoCascade u
  | .next f1 f2 f3 => selectLevels more (u.keepFragment f1 f2 f3)
  | .final f0 f1 f2 f3 sak =>
    .ok (selectResponse (u.keepFinal f0 f1 f2 f3 sak)) (u.keepFinal f0 f1 f2 f3 sak)

theorem selectLevels_cons (level : Nat) (more : List Nat) (s : State) :
    selectLevels (level :: more) s =
      (xchg s.cfg.vFrameStd s.cfg.icCmdSelect [selectCode s.cfg level] 5 (atLevel s level)).bind
        (levelEnd level more) := rfl

/-- A level the device answers in time, with bytes that fit. -/
structure InTime (s : State) (a : Answer) : Prop where
  fits   : a.bytes.length ≤ s.cfg.fifoCap
  inTime : a.quiet ≤ s.pe.pollBudget.toNat / s.pe.pollInterval.toNat + 1

/-- A level whose exchange completes (R147). -/
theorem selectLevels_answered {s : State} {level : Nat} (more : List Nat) {a : Answer}
    {ms : List EnvMove} (h : Ready s s.cfg.icCmdSelect) (hans : InTime s a)
    (ha : s.agent = .any (selectMoves s.cfg [a] ++ ms)) :
    ∃ l, l.map (·.op) =
        exchangeOps s.cfg s.pe.pollInterval s.cfg.vFrameStd s.cfg.icCmdSelect [selectCode s.cfg level]
          a.quiet (min 5 a.bytes.length) ∧
      selectLevels (level :: more) s = levelEnd level more (a.bytes.take 5)
        (exchanged (atLevel s level) (s.pe.waited a.quiet) (a.bytes.drop 5) s.cfg.mDone s.cfg.vFrameStd
          s.cfg.icCmdSelect ms l) := by
  have hl := Legal.of h.legal
  have ha : s.agent = .any (exchangeMoves 1 a.quiet a.bytes s.cfg.mDone ++
      ((if a.bytes = [] then [.quiet] else [.quiet, .quiet]) ++ ms)) := by
    simpa [selectMoves] using ha
  obtain ⟨l, hops, hx⟩ := xchg_answered (s := atLevel s level) (params := [selectCode s.cfg level])
    (d := a.bytes) (ms := ms) s.cfg.vFrameStd 5
    ⟨h.legal, h.settled, h.opcode, hl.capPos, hans.fits, h.clocked, hans.inTime⟩ (verdict_done hl)
    (by simp only [min_length_eq_zero (show (5 : Nat) ≠ 0 by decide)]; exact ha)
  refine ⟨l, hops, ?_⟩
  rw [selectLevels_cons, hx]
  rfl

/-- The UID registers once continuing levels are kept (R147, R149). -/
def assembling (s : State) (conts : List Continuing) : State :=
  { s with pe := { s.pe with
      uid := uidWrite s.pe.uid s.pe.uidLen.toNat (fragments conts)
      uidLen := s.pe.uidLen + BitVec.ofNat 4 (3 * conts.length) } }

/-- Where the exchange of the level after `conts` leaves SELECT: at that level, with their bytes kept. -/
def levelDone (s : State) (conts : List Continuing) (level : Nat) (a : Answer) (ms : List EnvMove)
    (l : List BusStep) : State :=
  exchanged (atLevel (assembling s conts) level) (s.pe.waited a.quiet) (a.bytes.drop 5) s.cfg.mDone
    s.cfg.vFrameStd s.cfg.icCmdSelect ms l

theorem levelDone_nil (s : State) (level : Nat) (a : Answer) (ms : List EnvMove) (l : List BusStep) :
    levelDone s [] level a ms l = exchanged (atLevel s level) (s.pe.waited a.quiet) (a.bytes.drop 5)
      s.cfg.mDone s.cfg.vFrameStd s.cfg.icCmdSelect ms l := by
  have hlen : s.pe.uidLen + BitVec.ofNat 4 (3 * ([] : List Continuing).length) = s.pe.uidLen :=
    BitVec.add_zero _
  rw [levelDone, assembling, hlen]
  rfl

/-- A continuing level and those after it keep their bytes one behind the other (R147). -/
theorem levelDone_cons {s : State} {k : Continuing} {more : List Continuing}
    (hroom : s.pe.uidLen.toNat + 3 * (k :: more).length < 16) (first level : Nat) (a : Answer)
    (ms ms' : List EnvMove) (l l' : List BusStep) :
    levelDone (resumed s (continuedRegs s.pe first k) (continuedDevice s.cfg s.dev k) ms' l) more level a
        ms l' =
      levelDone s (k :: more) level a ms (l ++ l') := by
  rw [List.length_cons] at hroom
  have hstep : (s.pe.uidLen + 3).toNat = s.pe.uidLen.toNat + 3 := by
    rw [BitVec.toNat_add]
    exact Nat.mod_eq_of_lt (show s.pe.uidLen.toNat + 3 < 16 by omega)
  have huid : uidWrite (uidWrite s.pe.uid s.pe.uidLen.toNat [k.f1, k.f2, k.f3])
      (s.pe.uidLen + 3).toNat (fragments more) =
      uidWrite s.pe.uid s.pe.uidLen.toNat (fragments (k :: more)) := by
    rw [hstep]
    exact (uidWrite_append [k.f1, k.f2, k.f3] (fragments more) _ _).symm
  have hlen : s.pe.uidLen + 3 + BitVec.ofNat 4 (3 * more.length) =
      s.pe.uidLen + BitVec.ofNat 4 (3 * (k :: more).length) := by
    rw [BitVec.add_assoc, List.length_cons, Nat.mul_add, Nat.add_comm, BitVec.ofNat_add]
    rfl
  simp only [levelDone, assembling, exchanged, atLevel, resumed, continuedRegs, huid, hlen,
    List.append_assoc]
  rfl

/-- SELECT over continuing levels and one more the device answers, from `level` on (R147): every level
makes its exchange, and the last answer decides. -/
theorem selectLevels_run {a : Answer} {ms : List EnvMove} : ∀ (conts : List Continuing)
    (level rest : Nat) (s : State), level + conts.length ≤ 3 →
    s.pe.uidLen.toNat + 3 * conts.length < 16 → Ready s s.cfg.icCmdSelect →
    (∀ k ∈ conts, Continues s k) → InTime s a →
    s.agent = .any (selectMoves s.cfg (conts.map (·.answer s.cfg) ++ [a]) ++ ms) →
    ∃ l, l.map (·.op) = levelOps s.cfg s.pe.pollInterval (List.range' level (conts.length + 1 + rest))
        (conts.map (·.answer s.cfg) ++ [a]) ∧
      selectLevels (List.range' level (conts.length + 1 + rest)) s =
        levelEnd (level + conts.length) (List.range' (level + conts.length + 1) rest) (a.bytes.take 5)
          (levelDone s conts (level + conts.length) a ms l)
  | [], level, rest, s, _, _, h, _, hans, ha => by
    obtain ⟨l, hops, hx⟩ := selectLevels_answered (level := level) (List.range' (level + 1) rest) h
      hans ha
    have hrange : List.range' level (([] : List Continuing).length + 1 + rest) =
        level :: List.range' (level + 1) rest := by
      rw [List.length_nil, Nat.zero_add, Nat.add_comm, List.range'_succ]
    rw [hrange]
    exact ⟨l, by simp [levelOps, hops], by rw [levelDone_nil]; exact hx⟩
  | k :: more, level, rest, s, hlevel, hroom, h, hk, hans, ha => by
    have hlen : (k :: more).length = more.length + 1 := rfl
    have ha : s.agent = .any (selectMoves s.cfg [k.answer s.cfg] ++
        (selectMoves s.cfg (more.map (·.answer s.cfg) ++ [a]) ++ ms)) := by
      simpa [selectMoves] using ha
    obtain ⟨l₁, hops₁, hx₁⟩ := selectLevels_next
      (more := List.range' (level + 1) (more.length + 1 + rest)) h (hk k List.mem_cons_self)
      (show level ≠ 3 by omega) ha
    have hroom' : (s.pe.uidLen + 3).toNat + 3 * more.length < 16 := by
      rw [BitVec.toNat_add]
      have := Nat.mod_le (s.pe.uidLen.toNat + 3) 16
      simp
      omega
    obtain ⟨l₂, hops₂, hx₂⟩ := selectLevels_run (a := a) (ms := ms) more (level + 1) rest
      (resumed s (continuedRegs s.pe level k) (continuedDevice s.cfg s.dev k)
        (selectMoves s.cfg (more.map (·.answer s.cfg) ++ [a]) ++ ms) l₁) (by omega) hroom'
      ⟨h.legal, h.settled, h.opcode, h.clocked⟩
      (fun k' hk' => have hk := hk k' (List.mem_cons_of_mem _ hk'); ⟨hk.sak, hk.fits, hk.inTime⟩)
      ⟨hans.fits, hans.inTime⟩ rfl
    have hrange : List.range' level ((k :: more).length + 1 + rest) =
        level :: List.range' (level + 1) (more.length + 1 + rest) := by
      rw [hlen, Nat.add_right_comm _ 1 rest, List.range'_succ]
    refine ⟨l₁ ++ l₂, ?_, ?_⟩
    · rw [hrange, List.map_append, hops₁, hops₂]
      rfl
    · rw [hrange, hx₁, hx₂, levelDone_cons hroom, hlen, Nat.add_right_comm level, Nat.add_assoc level]

/-- SELECT from REQUEST over answered levels (R147): the last answer decides how it ends. -/
theorem exec_select_run {s : State} {conts : List Continuing} {a : Answer} {ms : List EnvMove}
    (hlen : conts.length ≤ 2) (hk : ∀ k ∈ conts, k.sak &&& s.cfg.mSakCascade ≠ 0)
    (h : SelectRun s (conts.map (·.answer s.cfg) ++ [a]) ms) :
    ∃ more l, l.map (·.op) =
        selectOps s.cfg s.pe.pollInterval (conts.map (·.answer s.cfg) ++ [a]) ∧
      exec .select s = .next (levelEnd (conts.length + 1) more (a.bytes.take 5)
        (levelDone (selecting s) conts (conts.length + 1) a ms l)).finishAttempt := by
  obtain ⟨ha, hs⟩ := h.moves
  have hans : ∀ b ∈ conts.map (·.answer s.cfg) ++ [a], InTime (selecting s) b := fun b hb =>
    ⟨h.fits b hb, h.inTime b hb⟩
  have hcont : ∀ k ∈ conts, Continues (selecting s) k := fun k hmem =>
    have hin := hans _ (List.mem_append_left _ (List.mem_map_of_mem hmem))
    ⟨hk k hmem, hin.fits, hin.inTime⟩
  have hroom : (selecting s).pe.uidLen.toNat + 3 * conts.length < 16 := by
    have hfresh : (selecting s).pe.uidLen.toNat = 0 := congrArg BitVec.toNat h.fresh
    omega
  obtain ⟨l, hops, hx⟩ := selectLevels_run (a := a) (ms := ms) conts 1 (2 - conts.length) (selecting s)
    (by omega) hroom ⟨h.legal, hs, h.opcode, h.interval⟩ hcont
    (hans a (List.mem_append_right _ (List.mem_singleton_self a))) ha
  have hall : List.range' 1 (conts.length + 1 + (2 - conts.length)) = [1, 2, 3] := by
    rw [show conts.length + 1 + (2 - conts.length) = 3 by omega]
    rfl
  rw [hall] at hops hx
  rw [Nat.add_comm 1] at hx
  have hexec : exec .select s = .next (selectLevels [1, 2, 3] (selecting s)).finishAttempt :=
    (if_pos h.seq).trans (if_neg h.interval)
  rw [hx] at hexec
  exact ⟨_, l, hops.trans (selectOps_eq _ _ _).symm, hexec⟩

/-! ### SELECT that fails at a level -/

theorem levelEnd_short {level : Nat} {d : List Byte} (more : List Nat) (u : State) (h : d.length < 5) :
    levelEnd level more d u = .err .protoShort u := by
  rw [levelEnd, levelOutcome_short h]

theorem levelEnd_cascade {level : Nat} {d : List Byte} (more : List Nat) {u : State}
    (h : levelOutcome u.cfg level d = .cascade) : levelEnd level more d u = .err .protoCascade u := by
  rw [levelEnd, h]

/-- Settles O37: `exec_select_run` comes to the level, whose answer is short or does not fit. -/
theorem selectFailsAtLevel : Obligations.SelectFailsAtLevel := by
  intro s quiet conts d c rest hlen hk hbad answers hrun
  obtain ⟨more, l, hops, hexec⟩ := exec_select_run hlen hk hrun
  have hend : levelEnd (conts.length + 1) more (d.take 5)
      (levelDone (selecting s) conts (conts.length + 1) ⟨quiet, d⟩ rest l) =
      .err c (levelDone (selecting s) conts (conts.length + 1) ⟨quiet, d⟩ rest l) := by
    rcases hbad with ⟨hshort, rfl⟩ | ⟨hcascade, rfl⟩
    · exact levelEnd_short more _ ((List.length_take_le' 5 d).trans_lt hshort)
    · exact levelEnd_cascade more ((levelOutcome_take _ _ d).trans hcascade)
  exact ⟨(levelDone (selecting s) conts (conts.length + 1) ⟨quiet, d⟩ rest l).fail c, l,
    hexec.trans (congrArg (Host.Outcome.next ·.finishAttempt) hend), rfl, rfl, hops, rfl, rfl, rfl, rfl,
    rfl⟩

/-! ### SELECT that completes -/

/-- The state a completed SELECT answers from (R147). -/
theorem levelEnd_final {level : Nat} {f0 f1 f2 f3 sak : Byte} (more : List Nat) {u : State}
    (hs : sak &&& u.cfg.mSakCascade = 0) (h0 : f0 ≠ u.cfg.ct ∨ u.cfg.ctFinalAccept = true) :
    levelEnd level more [f0, f1, f2, f3, sak] u =
      .ok (selectResponse (u.keepFinal f0 f1 f2 f3 sak)) (u.keepFinal f0 f1 f2 f3 sak) := by
  have haccept : ¬ (f0 = u.cfg.ct ∧ u.cfg.ctFinalAccept = false) := by
    rintro ⟨htag, hrefused⟩
    rcases h0 with h0 | h0
    · exact h0 htag
    · rw [h0] at hrefused
      cases hrefused
  rw [levelEnd, levelOutcome_clear level [] hs, if_neg haccept]

section LevelDone

variable (s : State) (conts : List Continuing) (level : Nat) (a : Answer) (ms : List EnvMove)
  (l : List BusStep)

theorem levelDone_uid : (levelDone s conts level a ms l).pe.uid =
    uidWrite s.pe.uid s.pe.uidLen.toNat (fragments conts) := rfl

theorem levelDone_uidLen : (levelDone s conts level a ms l).pe.uidLen =
    s.pe.uidLen + BitVec.ofNat 4 (3 * conts.length) := rfl

theorem levelDone_sent : (levelDone s conts level a ms l).sent = s.sent := rfl

theorem levelDone_host : (levelDone s conts level a ms l).host = s.host := rfl

theorem levelDone_cfg : (levelDone s conts level a ms l).cfg = s.cfg := rfl

end LevelDone

/-- Where a SELECT of `s` stands once its final level is kept, UID registers aside (R147). -/
structure FinalKept (s t : State) (conts : List Continuing) (sak : Byte) (a : Answer)
    (ms : List EnvMove) (l : List BusStep) : Prop where
  pe    : t.pe = { s.pe with
    uid := t.pe.uid, uidLen := t.pe.uidLen, sak := sak, seq := .selected
    level := BitVec.ofNat 2 (conts.length + 1), elapsed := s.pe.waited a.quiet }
  dev   : t.dev = { s.dev with
    fifo := a.bytes.drop 5, cmd := s.cfg.icCmdSelect, irq := s.cfg.mDone, frame := s.cfg.vFrameStd }
  bus   : t.bus = s.bus ++ l
  agent : t.agent = .any ms
  sent  : t.sent = s.sent
  host  : t.host = s.host
  cfg   : t.cfg = s.cfg

theorem keepFinal_finalKept (s : State) (conts : List Continuing) (f0 f1 f2 f3 sak : Byte) (a : Answer)
    (ms : List EnvMove) (l : List BusStep) :
    FinalKept s ((levelDone (selecting s) conts (conts.length + 1) a ms l).keepFinal f0 f1 f2 f3 sak)
      conts sak a ms l where
  pe := rfl
  dev := rfl
  bus := rfl
  agent := rfl
  sent := (keepFinal_sent ..).trans (levelDone_sent ..)
  host := (keepFinal_host ..).trans (levelDone_host ..)
  cfg := (keepFinal_cfg ..).trans (levelDone_cfg ..)

/-- PE once a completed SELECT has answered (R147). -/
theorem FinalKept.respond_pe {s t : State} {conts : List Continuing} {sak : Byte} {a : Answer}
    {ms : List EnvMove} {l : List BusStep} (h : FinalKept s t conts sak a ms l) (x : Response) :
    (t.respond x).pe = { s.pe with
      uid := t.pe.uid, uidLen := t.pe.uidLen, sak := sak, seq := .selected
      level := BitVec.ofNat 2 (conts.length + 1), result := x.code, count := x.count, busy := false
      elapsed := s.pe.waited a.quiet } :=
  congrArg (fun p : Regs => { p with result := x.code, count := x.count, busy := false }) h.pe

/-- The UID of a completed SELECT (R147, R149): what the continuing levels gave, then four bytes. -/
def assembledUid (conts : List Continuing) (f0 f1 f2 f3 : Byte) : List Byte :=
  fragments conts ++ [f0, f1, f2, f3]

theorem assembledUid_length (conts : List Continuing) (f0 f1 f2 f3 : Byte) :
    (assembledUid conts f0 f1 f2 f3).length = 3 * conts.length + 4 := by
  rw [assembledUid, List.length_append, fragments_length]
  rfl

section Final

variable {s : State} {conts : List Continuing} (f0 f1 f2 f3 sak : Byte) (level : Nat) (a : Answer)
  (ms : List EnvMove) (l : List BusStep)

/-- UIDLEN of a completed SELECT: 4, 7 or 10 (R149). -/
theorem keepFinal_uidLen (hfresh : s.pe.uidLen = 0) :
    ((levelDone s conts level a ms l).keepFinal f0 f1 f2 f3 sak).pe.uidLen =
      BitVec.ofNat 4 (assembledUid conts f0 f1 f2 f3).length := by
  rw [keepFinal_pe_uidLen, levelDone_uidLen, hfresh, assembledUid_length, BitVec.ofNat_add]
  exact congrArg (· + 4) (BitVec.zero_add _)

/-- The UID registers of a completed SELECT: the UID, and nothing behind it (R147, R149). -/
theorem keepFinal_uid (hlen : conts.length ≤ 2) (hfresh : s.pe.uidLen = 0)
    (hclear : s.pe.uid = Vector.replicate 10 0) :
    ((levelDone s conts level a ms l).keepFinal f0 f1 f2 f3 sak).pe.uid.toList =
      assembledUid conts f0 f1 f2 f3 ++
        List.replicate (10 - (assembledUid conts f0 f1 f2 f3).length) 0 := by
  have huid := assembledUid_length conts f0 f1 f2 f3
  have hstart : s.pe.uidLen.toNat = 0 := congrArg BitVec.toNat hfresh
  have hkept : (s.pe.uidLen + BitVec.ofNat 4 (3 * conts.length)).toNat = 0 + (fragments conts).length := by
    rw [BitVec.toNat_add, BitVec.toNat_ofNat, hstart, fragments_length]
    omega
  rw [keepFinal_pe_uid, levelDone_uid, levelDone_uidLen, hkept, hstart, ← uidWrite_append, ← assembledUid,
    uidWrite_toList _ _ _ (by omega), hclear, Vector.toList_replicate, List.take_zero, List.nil_append,
    List.drop_replicate, Nat.zero_add]

end Final

/-- A completed SELECT answers its UID and SAK (R147). -/
theorem selectResponse_eq {t : State} {uid : List Byte} (hlen : t.pe.uidLen = BitVec.ofNat 4 uid.length)
    (hle : uid.length ≤ 10) (huid : t.pe.uid.toList = uid ++ List.replicate (10 - uid.length) 0) :
    selectResponse t =
      { code := .ok, count := BitVec.ofNat 8 uid.length, data := uid ++ [t.pe.sak] } := by
  have hnat : t.pe.uidLen.toNat = uid.length := by
    rw [hlen, BitVec.toNat_ofNat]
    omega
  have hcount : t.pe.uidLen.setWidth 8 = BitVec.ofNat 8 uid.length :=
    BitVec.eq_of_toNat_eq (by rw [BitVec.toNat_setWidth, hnat, BitVec.toNat_ofNat])
  rw [selectResponse, hcount, hnat, huid, List.take_left]

/-- Settles O36: `exec_select_run` comes to the final level, `keepFinal_uid` and `keepFinal_uidLen` say
what the UID registers hold then, `keepFinal_finalKept` the rest. -/
theorem selectAssemblesUid : Obligations.SelectAssemblesUid := by
  intro s quiet conts f0 f1 f2 f3 sak more rest hlen hk hs h0 answers hrun uid
  obtain ⟨later, l, hops, hexec⟩ := exec_select_run hlen hk hrun
  let a : Answer := ⟨quiet, f0 :: f1 :: f2 :: f3 :: sak :: more⟩
  let u := levelDone (selecting s) conts (conts.length + 1) a rest l
  let t := u.keepFinal f0 f1 f2 f3 sak
  have huidLen : t.pe.uidLen = BitVec.ofNat 4 uid.length :=
    keepFinal_uidLen f0 f1 f2 f3 sak _ a rest l hrun.fresh
  have huid : t.pe.uid.toList = uid ++ List.replicate (10 - uid.length) 0 :=
    keepFinal_uid f0 f1 f2 f3 sak _ a rest l hlen hrun.fresh hrun.cleared
  have hle : uid.length ≤ 10 := by
    have hexact : uid.length = 3 * conts.length + 4 := assembledUid_length conts f0 f1 f2 f3
    omega
  have hresp : selectResponse t = { code := .ok, count := BitVec.ofNat 8 uid.length, data := uid ++ [sak] } :=
    selectResponse_eq huidLen hle huid
  have hexec' : exec .select s = .next (t.respond (selectResponse t)) :=
    hexec.trans (congrArg (Host.Outcome.next ·.finishAttempt) (levelEnd_final later (u := u) hs h0))
  have ht : FinalKept s t conts sak a rest l := keepFinal_finalKept s conts f0 f1 f2 f3 sak a rest l
  clear_value t
  rw [hresp] at hexec'
  refine ⟨_, l, hexec', ht.bus, hops, huid, ?_, ?_, ht.dev, ht.agent, ht.host, ht.cfg⟩
  · rw [ht.respond_pe, huidLen]
  · rw [respond_sent, ht.sent]
    rfl

end Sys2Proof.Proofs
end

section
/-! PROOFS. The calls of a client operation (spec 45_client_extension.md R179): each call that
completes against listed moves, then all calls of a plan in order. -/

namespace Sys2Proof.Proofs

open Sys2Proof.Machine Sys2Proof.Laws

/-! ### Plans in parts -/

/-- Calls made one after the other: the later ones go on where the earlier ones ended (R179). -/
theorem runClient_append (operands : List Byte) (more : List ClientStep) :
    ∀ (plan : List ClientStep) (acc : List Byte) (s : State),
      runClient operands (plan ++ more) acc s =
        (runClient operands plan acc s).bind (runClient operands more)
  | [], _, _ => rfl
  | step :: plan, acc, s => by
    cases step with
    | clear | poll | drain | readReg | writeReg =>
      simp only [List.cons_append, runClient, bind_assoc, runClient_append operands more plan]
    | command | fill =>
      simp only [List.cons_append, runClient, bind_assoc]
      congr 1
      funext k t
      split
      · rfl
      · exact runClient_append operands more plan acc t

theorem runClient_cons (operands : List Byte) (step : ClientStep) (more : List ClientStep)
    (acc : List Byte) (s : State) :
    runClient operands (step :: more) acc s =
      (runClient operands [step] acc s).bind (runClient operands more) :=
  runClient_append operands more [step] acc s

/-! ### POLL after silent rounds -/

/-- POLL after `q` rounds that show nothing, of which there may be none (R125, R127): one more read
follows. -/
theorem poll_after_rounds {s : State} {q : Nat} {ms : List EnvMove} (hl : Legal s.cfg)
    (hs : s.settle = 0) (hv : q = 0 ∨ irqVerdict s.cfg s.dev.irq = none)
    (hq : q ≤ s.pe.pollBudget.toNat / s.pe.pollInterval.toNat + 1)
    (ha : s.agent = .any (List.replicate (2 * q) EnvMove.quiet ++ ms)) :
    ∃ l fuel, l.map (·.op) =
        (List.replicate q [BusOp.read s.cfg.regIrq, .wait s.pe.pollInterval.toNat]).flatten ∧
      poll s = pollLoop s.pe.pollBudget s.pe.pollInterval (fuel + 1)
        (silenced s (s.pe.waited q) ms l) := by
  rcases hv with rfl | hv
  · have ha : s.agent = .any ms := by simpa using ha
    refine ⟨[], s.pe.pollBudget.toNat / s.pe.pollInterval.toNat + 1, rfl, ?_⟩
    simp [poll, pollReads, silenced, Regs.waited, ← ha]
  · exact poll_rounds hl hs hv hq ha

/-- A bit set on top of IRQ bits that show nothing: completion is seen (R126). -/
theorem verdict_raised {c : Cfg} {irq : Byte} (hl : Legal c) (hv : irqVerdict c irq = none) :
    irqVerdict c (irq ||| c.mDone) = some .ok := by
  obtain ⟨⟨hcoll, hcrc⟩, hdone⟩ : (irq &&& c.mErrColl = 0 ∧ irq &&& c.mErrCrc = 0) ∧
      irq &&& c.mDone = 0 := by
    simpa [BitVec.and_or_distrib_left, BitVec.or_eq_zero_iff] using irqVerdict_none.mp hv
  refine irqVerdict_ok.mpr ⟨?_, ?_, ?_⟩
  · simp [BitVec.and_or_distrib_right, hcoll, hl.doneColl]
  · simp [BitVec.and_or_distrib_right, hcrc, hl.doneCrc]
  · simpa [BitVec.and_or_distrib_right, hdone] using hl.done

/-! ### Calls that complete -/

/-- What a call starts from (R179): under the configuration `c` and the poll registers `b` and `i`, a
settled IC whose device is `d`. -/
structure Stands (c : Cfg) (b i : Half) (d : Device) (s : State) : Prop where
  cfg      : s.cfg = c
  budget   : s.pe.pollBudget = b
  interval : s.pe.pollInterval = i
  settled  : s.settle = 0
  dev      : s.dev = d

/-- The state once calls have been made: of PE only ELAPSED changed (R170). -/
def advanced (s : State) (e : BitVec 17) (d : Device) (ms : List EnvMove) (l : List BusStep) : State :=
  resumed s { s.pe with elapsed := e } d ms l

/-- From `s` the calls of `plan` completed: with exactly the micro-steps `ops`, the moves `ms` being left
and the device being `d`; they collected `a`. -/
def Completes (operands : List Byte) (plan : List ClientStep) (s : State) (ms : List EnvMove)
    (ops : List BusOp) (d : Device) (a : List Byte) : Prop :=
  ∃ l e, l.map (·.op) = ops ∧
    ∀ acc, runClient operands plan acc s = .ok (acc ++ a) (advanced s e d ms l)

section Calls

variable {c : Cfg} {b i : Half} {operands : List Byte} {s : State} {ms : List EnvMove} {d : Device}

theorem Stands.after {d' : Device} (h : Stands c b i d s) (e : BitVec 17) (l : List BusStep) :
    Stands c b i d' (advanced s e d' ms l) :=
  ⟨h.cfg, h.budget, h.interval, h.settled, rfl⟩

theorem Completes.nil (ha : s.agent = .any ms) : Completes operands [] s ms [] s.dev [] :=
  ⟨[], s.pe.elapsed, rfl, fun acc => by simp [runClient, advanced, resumed, ← ha]⟩

/-- A call, and the calls after it on what it left. -/
theorem Completes.cons {step : ClientStep} {more : List ClientStep} {ms' : List EnvMove}
    {ops ops' : List BusOp} {d' e : Device} {a a' : List Byte} (hs : Stands c b i d s)
    (h : Completes operands [step] s ms ops d' a)
    (h' : ∀ u, Stands c b i d' u → u.agent = .any ms → Completes operands more u ms' ops' e a') :
    Completes operands (step :: more) s ms' (ops ++ ops') e (a ++ a') := by
  obtain ⟨l, t, rfl, hrun⟩ := h
  obtain ⟨l', t', rfl, hrun'⟩ := h' _ (hs.after t l) rfl
  refine ⟨l ++ l', t', List.map_append, fun acc => ?_⟩
  rw [runClient_cons, hrun, bind_ok, hrun']
  simp only [advanced, resumed, List.append_assoc]

theorem clear_completes (hl : Legal s.cfg) (hs : s.settle = 0) (ha : s.agent = .any (.quiet :: ms)) :
    Completes operands [.clear] s ms [.write s.cfg.regFifoControl s.cfg.vFifoFlush]
      { s.dev with fifo := [] } [] := by
  refine ⟨[⟨.write s.cfg.regFifoControl s.cfg.vFifoFlush, .done⟩], s.pe.elapsed, rfl, fun acc => ?_⟩
  rw [runClient, clearFifo_quiet hl ha hs, bind_ok, runClient, List.append_nil]
  rfl

/-- A command whose parameters fit behind what the FIFO holds (R120). -/
theorem command_completes {icop : Byte} {params : List ParamByte} {bs : List Byte}
    (hb : bs = layoutBytes operands params) (hl : Legal s.cfg) (hs : s.settle = 0)
    (ho : icop ≠ s.cfg.icCmdSoftReset) (hfit : s.dev.fifo.length + bs.length ≤ s.cfg.fifoCap)
    (ha : s.agent = .any (.quiet :: (if bs = [] then [] else [.quiet, .quiet]) ++ ms)) :
    Completes operands [.command icop params] s ms (.write s.cfg.regCommand icop ::
        (if bs = [] then [] else [.read s.cfg.regFifoLength, .fifoWrite bs]))
      { s.dev with cmd := icop, fifo := s.dev.fifo ++ bs } [] := by
  subst hb
  have hmoves : s.agent = .any ((if layoutBytes operands params = [] then [EnvMove.quiet]
      else if (layoutBytes operands params).length = 0 then [.quiet, .quiet]
      else [.quiet, .quiet, .quiet]) ++ ms) := by
    rw [ha]
    by_cases h0 : layoutBytes operands params = [] <;> simp [h0]
  obtain ⟨l, hops, hwrite⟩ := writeCommand_quiet (w := (layoutBytes operands params).length)
    (by omega) hl ho (by omega) hs hmoves
  refine ⟨l, s.pe.elapsed, ?_, fun acc => ?_⟩
  · rw [hops]
    by_cases h0 : layoutBytes operands params = [] <;> simp [h0]
  · rw [runClient, hwrite, bind_ok, if_neg (Nat.lt_irrefl _), List.take_length, runClient,
      List.append_nil]
    rfl

/-- Bytes that fit behind what the FIFO holds (R105). -/
theorem fill_completes {params : List ParamByte} {bs : List Byte}
    (hb : bs = layoutBytes operands params) (hl : Legal s.cfg) (hs : s.settle = 0)
    (hfit : s.dev.fifo.length + bs.length ≤ s.cfg.fifoCap)
    (ha : s.agent = .any (.quiet :: (if bs = [] then [] else [.quiet]) ++ ms)) :
    Completes operands [.fill params] s ms
      (.read s.cfg.regFifoLength :: (if bs = [] then [] else [.fifoWrite bs]))
      { s.dev with fifo := s.dev.fifo ++ bs } [] := by
  subst hb
  have hmoves : s.agent = .any ((if (layoutBytes operands params).length = 0 then [EnvMove.quiet]
      else [.quiet, .quiet]) ++ ms) := by
    rw [ha]
    by_cases h0 : layoutBytes operands params = [] <;> simp [h0]
  obtain ⟨l, hwrite, hops⟩ := writeFifo_guarded (data := layoutBytes operands params)
    (w := (layoutBytes operands params).length) (by omega) hmoves hs hl.capMax (by omega)
  refine ⟨l, s.pe.elapsed, ?_, fun acc => ?_⟩
  · rw [hops]
    by_cases h0 : layoutBytes operands params = [] <;> simp [h0]
  · rw [runClient, hwrite, bind_ok, if_neg (Nat.lt_irrefl _), List.take_length, runClient,
      List.append_nil]
    rfl

/-- A POLL whose last read, behind `q` silent rounds, shows completion (R125, R126). -/
theorem poll_completes {q : Nat} {st : List DevStep} (hl : Legal s.cfg) (hs : s.settle = 0)
    (hv : q = 0 ∨ irqVerdict s.cfg s.dev.irq = none)
    (hq : q ≤ s.pe.pollBudget.toNat / s.pe.pollInterval.toNat + 1)
    (hd : s.dev.takeSteps s.cfg st = d) (hdone : irqVerdict s.cfg d.irq = some .ok)
    (ha : s.agent = .any (List.replicate (2 * q) .quiet ++ { steps := st } :: ms)) :
    Completes operands [.poll] s ms (pollOps s.cfg s.pe.pollInterval q) d [] := by
  obtain ⟨l, fuel, hops, hpoll⟩ := poll_after_rounds hl hs hv hq ha
  obtain ⟨ans, hlast⟩ := pollLoop_shown (b := s.pe.pollBudget) (i := s.pe.pollInterval) fuel
    (s := silenced s (s.pe.waited q) _ l) hl rfl hd hdone
  refine ⟨l ++ [⟨.read s.cfg.regIrq, ans⟩], s.pe.waited q, ?_, fun acc => ?_⟩
  · rw [List.map_append, hops, pollOps_eq]
    rfl
  · rw [runClient, hpoll, hlast, if_pos rfl, bind_ok, runClient, List.append_nil]
    simp only [passed, silenced, advanced, resumed, List.append_assoc]

/-- A drain takes what there is, up to its size (R102). -/
theorem drain_completes {n : Nat} (hl : Legal s.cfg) (hs : s.settle = 0)
    (hf : s.dev.fifo.length ≤ s.cfg.fifoCap)
    (ha : s.agent =
      .any ((if min n s.dev.fifo.length = 0 then [.quiet] else [.quiet, .quiet]) ++ ms)) :
    Completes operands [.drain n] s ms (.read s.cfg.regFifoLength ::
        (if min n s.dev.fifo.length = 0 then [] else [.fifoRead (min n s.dev.fifo.length)]))
      { s.dev with fifo := s.dev.fifo.drop n } (s.dev.fifo.take n) := by
  obtain ⟨l, hread, hops⟩ := readFifo_quiet ha hs hl.capMax hf
  refine ⟨l, s.pe.elapsed, hops, fun acc => ?_⟩
  rw [runClient, hread, bind_ok, runClient]
  rfl

theorem readReg_completes (r : Byte) (ha : s.agent = .any (.quiet :: ms)) :
    Completes operands [.readReg r] s ms [.read r] s.dev [s.dev.readReg s.cfg r] := by
  refine ⟨[⟨.read r, .value (s.dev.readReg s.cfg r)⟩], s.pe.elapsed, rfl, fun acc => ?_⟩
  rw [runClient, tRead_quiet ha, bind_ok, runClient]
  rfl

theorem writeReg_completes {r v : Byte} (hs : s.settle = 0)
    (hv : ¬ (r = s.cfg.regCommand ∧ v = s.cfg.icCmdSoftReset)) (ha : s.agent = .any (.quiet :: ms)) :
    Completes operands [.writeReg r v] s ms [.write r v] (s.dev.writeReg s.cfg .quiet r v) [] := by
  refine ⟨[⟨.write r v, .done⟩], s.pe.elapsed, rfl, fun acc => ?_⟩
  rw [runClient, tWrite_quiet ha hs hv, bind_ok, runClient, List.append_nil]
  rfl

/-- The calls of a plan, by recursion on the run the environment allows (R179). -/
theorem clientRun_completes {plan : List ClientStep} {moves : List EnvMove} {ops : List BusOp}
    {e : Device} {a : List Byte} (hl : Legal c)
    (hrun : ClientRun c b i operands plan d moves ops e a) :
    ∀ {s : State}, Stands c b i d s → s.agent = .any (moves ++ ms) →
      Completes operands plan s ms ops e a := by
  induction hrun with
  | done d =>
    rintro s ⟨_, _, _, _, rfl⟩ ha
    exact .nil ha
  | clear _ ih =>
    intro s hs ha
    refine .cons (ops := [_]) (a := []) hs ?_ fun u hu hau => ih hu hau
    obtain ⟨rfl, _, _, hset, rfl⟩ := hs
    exact clear_completes hl hset ha
  | command icop params bs hb ho hfit _ ih =>
    intro s hs ha
    rw [List.append_assoc] at ha
    refine .cons (a := []) hs ?_ fun u hu hau => ih hu hau
    obtain ⟨rfl, _, _, hset, rfl⟩ := hs
    exact command_completes hb hl hset ho hfit ha
  | poll quiet hq hv _ ih =>
    intro s hs ha
    rw [List.append_assoc] at ha
    refine .cons (a := []) hs ?_ fun u hu hau => ih hu hau
    obtain ⟨rfl, rfl, rfl, hset, rfl⟩ := hs
    exact poll_completes hl hset (.inr hv) hq rfl (verdict_raised hl hv) ha
  | pollDone hv _ ih =>
    intro s hs ha
    refine .cons (ops := [_]) (a := []) hs ?_ fun u hu hau => ih hu hau
    obtain ⟨rfl, rfl, rfl, hset, rfl⟩ := hs
    exact poll_completes (q := 0) (st := []) hl hset (.inl rfl) (Nat.zero_le _) rfl hv ha
  | drain n hf _ ih =>
    intro s hs ha
    rw [List.append_assoc] at ha
    refine .cons hs ?_ fun u hu hau => ih hu hau
    obtain ⟨rfl, _, _, hset, rfl⟩ := hs
    exact drain_completes hl hset hf ha
  | fill params bs hb hfit _ ih =>
    intro s hs ha
    rw [List.append_assoc] at ha
    refine .cons (a := []) hs ?_ fun u hu hau => ih hu hau
    obtain ⟨rfl, _, _, hset, rfl⟩ := hs
    exact fill_completes hb hl hset hfit ha
  | readReg r _ ih =>
    intro s hs ha
    refine .cons (ops := [_]) (a := [_]) hs ?_ fun u hu hau => ih hu hau
    obtain ⟨rfl, _, _, _, rfl⟩ := hs
    exact readReg_completes r ha
  | writeReg r v hv _ ih =>
    intro s hs ha
    refine .cons (ops := [_]) (a := []) hs ?_ fun u hu hau => ih hu hau
    obtain ⟨rfl, _, _, hset, rfl⟩ := hs
    exact writeReg_completes hset hv ha

end Calls

/-- Settles O59, by `clientRun_completes`. -/
theorem clientPlanRunsInOrder : Obligations.ClientPlanRunsInOrder := by
  intro s operands plan ms ops e a acc rest hlegal _ hrun ⟨ha, hs⟩
  obtain ⟨l, t, hops, hok⟩ :=
    clientRun_completes (Legal.of hlegal) hrun ⟨rfl, rfl, rfl, hs, rfl⟩ ha
  exact ⟨l, _, hok acc, hops, rfl⟩

end Sys2Proof.Proofs
end

section
/-! PROOFS. How a call of a client operation ends it with a code (spec 45_client_extension.md R179;
60_exceptions.md R192 to R194): a primitive that fails, parameters or bytes that do not all go through, a
POLL that expires, fails or reads an error bit. -/

namespace Sys2Proof.Proofs

open Sys2Proof.Machine Sys2Proof.Laws

/-! ### Replies that end with a code -/

/-- A reply from `s` is the code `c`, after exactly the micro-steps `ops`; the moves `ms` are left. -/
def EndsOn {α : Type} (c : Result) (ops : List BusOp) (ms : List EnvMove) (s : State) (r : Reply α) :
    Prop :=
  ∃ l u, r = .err c u ∧ l.map (·.op) = ops ∧ u.bus = s.bus ++ l ∧ u.agent = .any ms

section EndsOn

variable {α β : Type} {c : Result} {ops : List BusOp} {ms : List EnvMove} {s t : State} {r : Reply α}

theorem EndsOn.bind (h : EndsOn c ops ms s r) (f : α → State → Reply β) :
    EndsOn c ops ms s (r.bind f) := by
  obtain ⟨l, u, rfl, h⟩ := h
  exact ⟨l, u, rfl, h⟩

/-- With the traffic `l` before it. -/
theorem EndsOn.after {l : List BusStep} (h : EndsOn c ops ms t r) (hb : t.bus = s.bus ++ l) :
    EndsOn c (l.map (·.op) ++ ops) ms s r := by
  obtain ⟨l', u, hr, rfl, hbus, ha⟩ := h
  exact ⟨l ++ l', u, hr, List.map_append, by rw [hbus, hb, List.append_assoc], ha⟩

/-- A micro-step that failed (R55). -/
theorem endsOn_of_microStep {op : BusOp} {read : BusAnswer → Option α} {u : State}
    (hm : IsMicroStep op read s r) (hr : r = .err .commErr u) (ha : u.agent = .any ms) :
    EndsOn .commErr [op] ms s r := by
  obtain ⟨ans, v, hb, _, _, hv | hv⟩ := hm
  · have huv : u = v := by rw [← ofAnswer_state (read ans) v, ← hv, hr]; rfl
    exact ⟨[⟨op, ans⟩], u, hr, rfl, huv ▸ hb, ha⟩
  · rw [hr] at hv
    cases hv

end EndsOn

/-! ### Primitives that fail -/

theorem written_agent (m : EnvMove) (a v : Byte) (s : State) : (s.written m a v).agent = s.agent := by
  unfold State.written
  split
  · rfl
  split <;> rfl

section Failing

variable {landed : Nat} {ms : List EnvMove} {s : State}

theorem tRead_endsOn (a : Byte) (ha : FailsAfter 0 landed ms s) :
    EndsOn .commErr [.read a] ms s (tRead a s) :=
  endsOn_of_microStep (tRead_isMicroStep a s) (tRead_listed_failed ha a) rfl

/-- A write that fails, of any register and in any state (R55): whatever it left in the device. -/
theorem tWrite_endsOn (a v : Byte) (ha : FailsAfter 0 landed ms s) :
    EndsOn .commErr [.write a v] ms s (tWrite a v s) := by
  have hmove := moveFor_listed (s := s) ha (.write a v)
  refine endsOn_of_microStep (tWrite_isMicroStep a v s)
    (tWrite_failed (by rw [hmove]) (by rw [hmove])) ?_
  rw [record_agent, written_agent, arrive_listed ha]

theorem tFifoRead_endsOn (n : Nat) (hs : s.settle = 0) (ha : FailsAfter 0 landed ms s) :
    EndsOn .commErr [.fifoRead n] ms s (tFifoRead n s) := by
  obtain ⟨u, hr, hu⟩ := tFifoRead_fails (n := n) hs ha
  exact endsOn_of_microStep (tFifoRead_isMicroStep n s) hr hu.agent

theorem tFifoWrite_endsOn (bs : List Byte) (hs : s.settle = 0) (ha : FailsAfter 0 landed ms s) :
    EndsOn .commErr [.fifoWrite bs] ms s (tFifoWrite bs s) := by
  obtain ⟨u, hr, hu⟩ := tFifoWrite_fails (bs := bs) hs ha
  exact endsOn_of_microStep (tFifoWrite_isMicroStep bs s) hr hu.agent

end Failing

/-! ### Calls that end with a code -/

/-- A bulk write within the free capacity, of which the transport may report fewer bytes (R54, R105). -/
theorem tFifoWrite_moved {s : State} {ms : List EnvMove} {bs : List Byte} {moved : Option Nat}
    (ha : s.agent = .any ({ moved := moved } :: ms)) (hs : s.settle = 0)
    (hn : bs.length ≤ s.cfg.fifoCap - s.dev.fifo.length) :
    tFifoWrite bs s = .ok (moved.getD bs.length)
      (passed s ms (.fifoWrite bs) (.count (moved.getD bs.length))
        { s.dev with fifo := s.dev.fifo ++ bs.take (moved.getD bs.length) }) := by
  cases moved with
  | none => simpa using tFifoWrite_quiet ha hs hn
  | some k => exact tFifoWrite_reported ha hs hn

section Calls

variable {operands : List Byte} {s : State} {ms moves : List EnvMove} {ops : List BusOp}
  {code : Result}

/-- What `writeFIFO` does once the length query has gone through (R105): nothing behind a full FIFO,
else a bulk write of what fits. -/
theorem writeFifo_queried {bs : List Byte} (hl : Legal s.cfg) (ha : s.agent = .any (.quiet :: ms)) :
    ∃ v, writeFifo bs s =
      let u := passed s ms (.read s.cfg.regFifoLength) (.value v) s.dev
      let w := min bs.length (s.cfg.fifoCap - s.dev.fifo.length)
      if w = 0 then .ok 0 u
      else (tFifoWrite (bs.take (s.cfg.fifoCap - s.dev.fifo.length)) u).bind fun k t =>
        .ok (min k w) t := by
  obtain ⟨v, hv⟩ := fifoLength_quiet ha hl.capMax
  have hroom : s.cfg.fifoCap - min s.dev.fifo.length s.cfg.fifoCap =
      s.cfg.fifoCap - s.dev.fifo.length := by omega
  have htake : bs.take (min bs.length (s.cfg.fifoCap - s.dev.fifo.length)) =
      bs.take (s.cfg.fifoCap - s.dev.fifo.length) := by
    rw [Nat.min_comm, ← List.take_take, List.take_length]
  refine ⟨v, ?_⟩
  rw [writeFifo, hv, bind_ok]
  simp only [passed_cfg, hroom, htake]

/-- A `writeFIFO` that ends with a code or is cut ends what follows it (R105, R192, R194). -/
theorem fillEnds_endsOn {α : Type} {bs : List Byte} (f : Nat → State → Reply α)
    (h : FillEnds s.cfg s.dev bs moves code ops) (hl : Legal s.cfg) (hs : s.settle = 0)
    (ha : s.agent = .any (moves ++ ms)) :
    EndsOn code ops ms s ((writeFifo bs s).bind fun k t =>
      if k < bs.length then .err .protoShort t else f k t) := by
  cases h with
  | lengthFailed landed => exact (((tRead_endsOn _ ha).bind _).bind _).bind _
  | writeFailed landed hroom hne =>
    have hlen : 0 < bs.length := List.length_pos_of_ne_nil hne
    obtain ⟨v, hw⟩ := writeFifo_queried (bs := bs) hl ha
    rw [hw, if_neg (by omega)]
    exact (((tFifoWrite_endsOn (s := passed _ _ _ _ _) (landed := landed) _ hs rfl).bind _).bind _).after
      (s := s) rfl
  | full hroom hne =>
    have hlen : 0 < bs.length := List.length_pos_of_ne_nil hne
    obtain ⟨v, hw⟩ := writeFifo_queried (bs := bs) hl ha
    rw [hw, if_pos (by omega), bind_ok, if_pos hlen]
    exact ⟨_, _, rfl, rfl, rfl, rfl⟩
  | short moved hroom hne hshort =>
    have hlen : 0 < bs.length := List.length_pos_of_ne_nil hne
    have ha : s.agent = .any (.quiet :: { moved := moved } :: ms) := ha
    obtain ⟨v, hw⟩ := writeFifo_queried (bs := bs) hl ha
    rw [hw, if_neg (by omega), tFifoWrite_moved (s := passed _ _ _ _ _) rfl hs (by simp), bind_ok,
      bind_ok, if_pos]
    · exact ⟨[⟨.read s.cfg.regFifoLength, .value v⟩, ⟨.fifoWrite _, .count _⟩], _, rfl, rfl,
        List.append_assoc s.bus [_] [_], rfl⟩
    · rcases hshort with hfit | ⟨k, rfl, hk⟩
      · omega
      · simp only [Option.getD_some]
        omega

/-- A call whose first primitive fails (R192). -/
theorem firstOp_endsOn {landed : Nat} (step : ClientStep) (acc : List Byte)
    (ha : FailsAfter 0 landed ms s) :
    EndsOn .commErr [step.firstOp s.cfg] ms s (runClient operands [step] acc s) := by
  cases step with
  | clear => exact (tWrite_endsOn _ _ ha).bind _
  | command icop params => exact ((tWrite_endsOn _ _ ha).bind _).bind _
  | poll =>
    have hpoll : EndsOn .commErr [.read s.cfg.regIrq] ms s (poll s) :=
      ⟨_, _, pollLoop_failed _ ha, rfl, rfl, rfl⟩
    exact hpoll.bind _
  | drain n => exact (((tRead_endsOn _ ha).bind _).bind _).bind _
  | fill params => exact (((tRead_endsOn _ ha).bind _).bind _).bind _
  | readReg a => exact (tRead_endsOn _ ha).bind _
  | writeReg a v => exact (tWrite_endsOn _ _ ha).bind _

/-- A POLL that ends with a code at the read after `q` silent rounds (R125). -/
theorem poll_endsOn {q : Nat} (hl : Legal s.cfg) (hs : s.settle = 0)
    (hv : q = 0 ∨ irqVerdict s.cfg s.dev.irq = none)
    (hq : q ≤ s.pe.pollBudget.toNat / s.pe.pollInterval.toNat + 1)
    (ha : s.agent = .any (List.replicate (2 * q) .quiet ++ moves))
    (hlast : ∀ fuel l, EndsOn code [.read s.cfg.regIrq] ms (silenced s (s.pe.waited q) moves l)
      (pollLoop s.pe.pollBudget s.pe.pollInterval (fuel + 1)
        (silenced s (s.pe.waited q) moves l))) (acc : List Byte) :
    EndsOn code (pollOps s.cfg s.pe.pollInterval q) ms s (runClient operands [.poll] acc s) := by
  obtain ⟨l, fuel, hops, hpoll⟩ := poll_after_rounds hl hs hv hq ha
  have hend := (hlast fuel l).after (s := s) rfl
  rw [hops, ← hpoll] at hend
  exact hend.bind _

/-- Every ending of a call with a code (R179, R192 to R194). -/
theorem clientEnds_endsOn {step : ClientStep} (acc : List Byte)
    (h : ClientEnds s.cfg s.pe.pollBudget s.pe.pollInterval operands step s.dev moves code ops)
    (hl : Legal s.cfg) (hp : s.pe.pollInterval ≠ 0) (hs : s.settle = 0)
    (ha : s.agent = .any (moves ++ ms)) :
    EndsOn code ops ms s (runClient operands [step] acc s) := by
  cases h with
  | failed landed => exact firstOp_endsOn step acc ha
  | command icop params ho hne hfill =>
    rw [runClient, writeCommand_params hne, tWrite_quiet ha hs fun h => ho h.2, bind_ok,
      writeReg_command hl _ _ ho]
    exact (fillEnds_endsOn (s := passed s _ (.write s.cfg.regCommand icop) .done
      { s.dev with cmd := icop }) _ hfill hl hs rfl).after (s := s) rfl
  | fill params hfill => exact fillEnds_endsOn _ hfill hl hs ha
  | drainFailed n _ landed hf hne =>
    obtain ⟨v, hv⟩ := fifoLength_quiet ha hl.capMax
    rw [runClient, readFifo, hv, bind_ok, Nat.min_eq_left hf]
    simp only [if_neg hne]
    exact (((tFifoRead_endsOn (s := passed _ _ _ _ _) (landed := landed) _ hs rfl).bind _).bind _).after
      (s := s) rfl
  | pollFailed quiet _ landed hq hv =>
    rw [List.append_assoc] at ha
    exact poll_endsOn hl hs hv hq ha (fun fuel l => ⟨_, _, pollLoop_failed fuel rfl, rfl, rfl, rfl⟩) acc
  | expired _ hv =>
    rw [List.replicate_succ', List.append_assoc] at ha
    refine poll_endsOn hl hs (.inr hv) le_rfl ha (fun fuel l => ?_) acc
    obtain ⟨ans, hx⟩ := pollLoop_expired (b := s.pe.pollBudget) (i := s.pe.pollInterval) fuel
      (s := silenced s _ _ l) hl rfl hv (budget_lt_waited s.pe hp)
    exact ⟨_, _, hx, rfl, rfl, rfl⟩
  | errorBit quiet _ steps _ hq hv hcode hne =>
    rw [List.append_assoc] at ha
    refine poll_endsOn hl hs hv hq ha (fun fuel l => ?_) acc
    obtain ⟨ans, hx⟩ := pollLoop_shown (b := s.pe.pollBudget) (i := s.pe.pollInterval) fuel
      (s := silenced s _ _ l) hl rfl rfl hcode
    exact ⟨_, _, hx.trans (if_neg hne), rfl, rfl, rfl⟩

end Calls

/-- Calls that complete, then one that ends with a code: those behind it are not made (R179). -/
theorem runClient_err {operands before more : List _} {step : ClientStep} {a acc : List Byte}
    {s u v : State} {c : Result} (hok : runClient operands before acc s = .ok a u)
    (herr : runClient operands [step] a u = .err c v) :
    runClient operands (before ++ step :: more) acc s = .err c v := by
  rw [runClient_append, hok, bind_ok, runClient_cons, herr, bind_err]

/-- Settles O60: `clientRun_completes` comes to the call, `clientEnds_endsOn` ends it, and
`runClient_post` says what stayed as it was. -/
theorem clientPlanEndsOnCode : Obligations.ClientPlanEndsOnCode := by
  refine ⟨fun s u v operands before step more a acc c => runClient_err,
    fun s operands before step more ms ms' ops ops' e a acc c rest hlegal hp hrun hends ⟨ha, hs⟩ => ?_⟩
  have hl := Legal.of hlegal
  rw [List.append_assoc] at ha
  obtain ⟨l, t, rfl, hok⟩ := clientRun_completes hl hrun ⟨rfl, rfl, rfl, hs, rfl⟩ ha
  obtain ⟨l', u, herr, rfl, hbus, hagent⟩ :=
    clientEnds_endsOn (s := advanced s t e (ms' ++ rest) l) (acc ++ a) hends hl hp hs rfl
  have hall := runClient_err (more := more) (hok acc) herr
  have hpost := runClient_post operands (before ++ step :: more) acc s
  rw [hall] at hpost
  obtain ⟨_, _, hu⟩ := hpost
  refine ⟨l ++ l', u, hall, List.map_append, ?_, hagent, hu.pe, hu.sent, hu.host, hu.cfg⟩
  rw [hbus]
  exact List.append_assoc s.bus l l'

end Sys2Proof.Proofs
end

section
/-! PROOFS. CONFIGURE (spec 45_client_extension.md R171): the pairs of a profile written in table order,
the readback, and how either ends it. -/

namespace Sys2Proof.Proofs

open Sys2Proof.Machine Sys2Proof.Laws

/-- CONFIGURE of a profile nothing is known of (R171). -/
theorem exec_configure_unknown {profile : Byte} {s : State} (he : s.cfg.extClient = true)
    (hp : profilePairs s.cfg profile = none) :
    exec (.configure profile) s = .next (s.raiseCode .badArg) := by
  refine (if_pos he).trans ?_
  rw [hp]

/-- CONFIGURE of a known profile (R171): all writes, then all readbacks. -/
theorem exec_configure {profile : Byte} {pairs : List ProfilePair} {s : State}
    (he : s.cfg.extClient = true) (hp : profilePairs s.cfg profile = some pairs) :
    exec (.configure profile) s = .next ((writePairs pairs s).bind fun _ s =>
      (checkPairs pairs s).bind fun _ s => freeCount .ok s).finish := by
  refine (if_pos he).trans ?_
  rw [hp]

/-! ### A profile in parts -/

theorem writePairs_append (more : List ProfilePair) : ∀ (pairs : List ProfilePair) (s : State),
    writePairs (pairs ++ more) s = (writePairs pairs s).bind fun _ s => writePairs more s
  | [], _ => rfl
  | p :: pairs, s => by
    simp only [List.cons_append, writePairs, bind_assoc, writePairs_append more pairs]

/-- The readback of the first pair, if there is a value to compare (R171). -/
theorem checkPairs_cons_none {p : ProfilePair} (he : p.expect = none) (more : List ProfilePair)
    (s : State) : checkPairs (p :: more) s = checkPairs more s := by
  rw [checkPairs, he]

theorem checkPairs_cons_some {p : ProfilePair} {e : Byte} (he : p.expect = some e)
    (more : List ProfilePair) (s : State) :
    checkPairs (p :: more) s =
      (tRead p.addr s).bind fun v s => if v = e then checkPairs more s else .err .commErr s := by
  rw [checkPairs, he]

theorem checkPairs_append (more : List ProfilePair) : ∀ (pairs : List ProfilePair) (s : State),
    checkPairs (pairs ++ more) s = (checkPairs pairs s).bind fun _ s => checkPairs more s
  | [], _ => rfl
  | p :: pairs, s => by
    cases he : p.expect with
    | none =>
      rw [List.cons_append, checkPairs_cons_none he, checkPairs_cons_none he,
        checkPairs_append more pairs]
    | some e =>
      rw [List.cons_append, checkPairs_cons_some he, checkPairs_cons_some he, bind_assoc]
      congr 1
      funext v t
      split
      · exact checkPairs_append more pairs t
      · rfl

/-! ### A profile against an environment that lets every primitive through -/

/-- The micro-steps of a profile's writes (R171). -/
def pairWrites (pairs : List ProfilePair) : List BusStep :=
  pairs.map fun p => ⟨.write p.addr p.value, .done⟩

/-- The micro-steps of a profile's readback when each register reads as specified (R171). -/
def pairReads (pairs : List ProfilePair) : List BusStep :=
  pairs.filterMap fun p => p.expect.map fun e => ⟨.read p.addr, .value e⟩

/-- The device after a profile's writes (R52, R171). -/
def pairsWritten (c : Cfg) (pairs : List ProfilePair) (d : Device) : Device :=
  pairs.foldl (fun d p => d.writeReg c .quiet p.addr p.value) d

theorem writePairs_quiet {ms : List EnvMove} : ∀ (pairs : List ProfilePair) (s : State),
    s.settle = 0 → (∀ p ∈ pairs, ¬ (p.addr = s.cfg.regCommand ∧ p.value = s.cfg.icCmdSoftReset)) →
    s.agent = .any (List.replicate pairs.length .quiet ++ ms) →
    writePairs pairs s = .ok () { s with
      dev := pairsWritten s.cfg pairs s.dev, agent := .any ms, bus := s.bus ++ pairWrites pairs }
  | [], s, _, _, ha => by
    have ha : s.agent = .any ms := ha
    simp [writePairs, pairsWritten, pairWrites, ← ha]
  | p :: pairs, s, hs, hv, ha => by
    have ha : s.agent = .any (.quiet :: (List.replicate pairs.length .quiet ++ ms)) := ha
    rw [writePairs, tWrite_quiet ha hs (hv p List.mem_cons_self), bind_ok,
      writePairs_quiet pairs (passed s _ _ _ _) hs (fun q hq => hv q (List.mem_cons_of_mem _ hq)) rfl]
    simp [passed, pairsWritten, pairWrites]

theorem checkPairs_quiet {ms : List EnvMove} : ∀ (pairs : List ProfilePair) (s : State),
    (∀ p ∈ pairs, ∀ e, p.expect = some e → s.dev.readReg s.cfg p.addr = e) →
    s.agent = .any (List.replicate (pairReads pairs).length .quiet ++ ms) →
    checkPairs pairs s = .ok () { s with agent := .any ms, bus := s.bus ++ pairReads pairs }
  | [], s, _, ha => by
    have ha : s.agent = .any ms := ha
    simp [checkPairs, pairReads, ← ha]
  | p :: pairs, s, hv, ha => by
    have htail := fun q hq => hv q (List.mem_cons_of_mem p hq)
    cases he : p.expect with
    | none =>
      have hreads : pairReads (p :: pairs) = pairReads pairs := by simp [pairReads, he]
      rw [hreads] at ha ⊢
      rw [checkPairs_cons_none he, checkPairs_quiet pairs s htail ha]
    | some e =>
      have hreads : pairReads (p :: pairs) = ⟨.read p.addr, .value e⟩ :: pairReads pairs := by
        simp [pairReads, he]
      have hval := hv p List.mem_cons_self e he
      rw [hreads] at ha ⊢
      have ha : s.agent = .any (.quiet :: (List.replicate (pairReads pairs).length .quiet ++ ms)) := ha
      rw [checkPairs_cons_some he, tRead_quiet ha, bind_ok, if_pos hval,
        checkPairs_quiet pairs (passed s _ _ _ _) htail rfl, hval]
      simp [passed]

/-- Settles O50, by `writePairs_quiet` and `checkPairs_quiet`. -/
theorem configureWritesTableInOrder : Obligations.ConfigureWritesTableInOrder := by
  intro s profile pairs rest he hp hv d reads hmatch ⟨ha, hs⟩
  rw [List.replicate_add, List.append_assoc] at ha
  rw [exec_configure he hp, writePairs_quiet pairs s hs hv ha, bind_ok,
    checkPairs_quiet pairs _ hmatch rfl, bind_ok]
  exact ⟨_, rfl, rfl, rfl, rfl, rfl, rfl⟩

/-! ### A profile that does not go through -/

/-- From `s` writes led to `u` with the traffic `l`, the moves `ms` being left; what they did to the device
is open. -/
structure WritesMade (l : List BusStep) (ms : List EnvMove) (s u : State) : Prop where
  pe    : u.pe = s.pe
  sent  : u.sent = s.sent
  bus   : u.bus = s.bus ++ l
  agent : u.agent = .any ms

theorem WritesMade.trans {l l' : List BusStep} {ms ms' : List EnvMove} {s t u : State}
    (h : WritesMade l ms s t) (h' : WritesMade l' ms' t u) : WritesMade (l ++ l') ms' s u :=
  ⟨h'.pe.trans h.pe, h'.sent.trans h.sent, by rw [h'.bus, h.bus, List.append_assoc], h'.agent⟩

/-- A write a listed move lets through or fails, of any register and in any state (R52, R55). -/
theorem tWrite_listed {s : State} {m : EnvMove} {ms : List EnvMove} (ha : s.agent = .any (m :: ms))
    (hr : m.reset = false) (a v : Byte) :
    ∃ u, WritesMade [⟨.write a v, if m.fails then .failed else .done⟩] ms s u ∧
      tWrite a v s = if m.fails then .err .commErr u else .ok () u := by
  have hmove := moveFor_listed ha (.write a v)
  obtain ⟨u, hu, hw⟩ := tWrite_once (s := s) (a := a) (v := v) (by rw [hmove, hr])
  have hagent : (tWrite a v s).state.agent = .any ms := by
    unfold tWrite
    simp only [hmove, arrive_listed ha, conclude, hr]
    split <;> simp [Reply.state, written_agent]
  have hbus := hu.bus
  rw [hmove] at hw hbus
  refine ⟨u, ⟨hu.pe, hu.sent, hbus, ?_⟩, hw⟩
  rw [hw] at hagent
  split at hagent <;> exact hagent

/-- The writes of a profile that nothing fails, in any state (R171). -/
theorem writePairs_made {ms : List EnvMove} : ∀ (pairs : List ProfilePair) (s : State),
    s.agent = .any (List.replicate pairs.length .quiet ++ ms) →
    ∃ u, WritesMade (pairWrites pairs) ms s u ∧ writePairs pairs s = .ok () u
  | [], s, ha => ⟨s, ⟨rfl, rfl, (List.append_nil _).symm, ha⟩, rfl⟩
  | p :: pairs, s, ha => by
    obtain ⟨t, ht, hw⟩ := tWrite_listed (m := .quiet) ha rfl p.addr p.value
    obtain ⟨u, hu, hws⟩ := writePairs_made pairs t ht.agent
    exact ⟨u, ht.trans hu, by rw [writePairs, hw, if_neg (by simp), bind_ok, hws]⟩

/-- A profile one of whose writes fails, in any state (R171, R192). -/
theorem writePairs_failed {pairs more : List ProfilePair} {p : ProfilePair} {landed : Nat}
    {ms : List EnvMove} {s : State} (ha : FailsAfter pairs.length landed ms s) :
    ∃ u, WritesMade (pairWrites pairs ++ [⟨.write p.addr p.value, .failed⟩]) ms s u ∧
      writePairs (pairs ++ p :: more) s = .err .commErr u := by
  obtain ⟨t, ht, hws⟩ := writePairs_made pairs s ha
  obtain ⟨u, hu, hw⟩ := tWrite_listed ht.agent rfl p.addr p.value
  exact ⟨u, ht.trans hu, by rw [writePairs_append, hws, bind_ok, writePairs, hw, if_pos rfl, bind_err]⟩

/-- Writes that completed left PE alone. -/
theorem writePairs_undisturbed : ∀ (pairs : List ProfilePair) {s u : State},
    writePairs pairs s = .ok () u → Undisturbed s u
  | [], s, u, h => by
    cases h
    exact ⟨.refl s, rfl⟩
  | p :: pairs, s, u, h => by
    have hp := tWrite_post p.addr p.value s
    rw [writePairs] at h
    cases hw : tWrite p.addr p.value s with
    | ok x t =>
      rw [hw] at h hp
      obtain ⟨hst, hpe⟩ := writePairs_undisturbed pairs h
      exact ⟨hp.1.reached.trans hst, hpe.trans hp.2⟩
    | err c t => rw [hw] at h; cases h
    | cut t => rw [hw] at h; cases h

/-- A readback that completed left PE alone. -/
theorem checkPairs_undisturbed : ∀ (pairs : List ProfilePair) {s u : State},
    checkPairs pairs s = .ok () u → Undisturbed s u
  | [], s, u, h => by
    cases h
    exact ⟨.refl s, rfl⟩
  | p :: pairs, s, u, h => by
    cases he : p.expect with
    | none =>
      rw [checkPairs_cons_none he] at h
      exact checkPairs_undisturbed pairs h
    | some e =>
      have hp := tRead_post p.addr s
      rw [checkPairs_cons_some he] at h
      cases hr : tRead p.addr s with
      | ok v t =>
        rw [hr] at h hp
        dsimp only [bind_ok] at h
        split at h
        · obtain ⟨hst, hpe⟩ := checkPairs_undisturbed pairs h
          exact ⟨hp.1.reached.trans hst, hpe.trans hp.2⟩
        · cases h
      | err c t => rw [hr] at h; cases h
      | cut t => rw [hr] at h; cases h

/-- A readback that shows another value than the profile specifies (R171, U12). -/
theorem checkPairs_mismatch {pairs more : List ProfilePair} {p : ProfilePair} {e v : Byte}
    {s t u : State} (he : p.expect = some e) (hc : checkPairs pairs s = .ok () t)
    (hr : tRead p.addr t = .ok v u) (hne : v ≠ e) :
    checkPairs (pairs ++ p :: more) s = .err .commErr u := by
  rw [checkPairs_append, hc, bind_ok, checkPairs_cons_some he, hr, bind_ok, if_neg hne]

/-- Settles O51: the table that is not there, `writePairs_failed`, `checkPairs_mismatch`. -/
theorem configureFailures : Obligations.ConfigureFailures := by
  intro s profile he
  refine ⟨exec_configure_unknown he, fun pairs t hp hw => ?_, fun pairs p more landed rest hp ha => ?_,
    fun pairs p more e u v t hp hexp hw hc ⟨w, hr, hne⟩ => ?_⟩
  · rw [exec_configure he hp, hw, bind_err, finish_err, raiseCode_commErr]
  · obtain ⟨u, hu, hw⟩ := writePairs_failed (p := p) (more := more) ha
    rw [exec_configure he hp, hw, bind_err, finish_err, raiseCode_commErr]
    refine ⟨_, rfl, ?_, by rw [← hu.pe], by rw [← hu.sent], hu.agent⟩
    rw [List.append_assoc]
    exact hu.bus
  · obtain ⟨hsu, hpeu⟩ := writePairs_undisturbed _ hw
    obtain ⟨hut, hpet⟩ := checkPairs_undisturbed _ hc
    have hbus := tRead_answer p.addr t
    have hpost := tRead_post p.addr t
    rw [hr] at hbus hpost
    have hsent := sent_of_reached ((hsu.trans hut).trans hpost.1.reached)
    have hpe : w.pe = s.pe := hpost.2.trans (hpet.trans hpeu)
    rw [exec_configure he hp, hw, bind_ok, checkPairs_mismatch hexp hc hr hne, bind_err, finish_err,
      raiseCode_commErr]
    exact ⟨_, rfl, hbus.1, by rw [hpe], by rw [hsent]⟩

end Sys2Proof.Proofs
end

section
/-! PROOFS. The client operations at the host port (spec 45_client_extension.md R170 to R178): refused with
the extension off or with illegal arguments, and what each makes of the replies of its calls. -/

namespace Sys2Proof.Proofs

open Sys2Proof.Machine Sys2Proof.Laws

/-! ### Refusals, and what no client operation touches -/

/-- Settles O48, by `exec_clientOff`. -/
theorem clientOffAnswersBadOp : Obligations.ClientOffAnswersBadOp :=
  fun _ _ hop hoff => exec_clientOff hop hoff

/-- A client operation that answers was reached by micro-steps alone (R170). -/
theorem client_answered {i : Instr} {s t : State} (hop : clientOp i.opcode = true)
    (h : exec i s = .next t) (hs : t.sent ≠ s.sent) : ∃ x u, Reached s u ∧ t = u.respond x := by
  have hends := exec_ends h
  cases i with
  | configure | loadkey | auth | rdblk | wrblk | rdpage | wrpage => exact ends_answered hends hs
  | _ => cases hop

/-- Settles O49: micro-steps touch nothing of PE but ELAPSED, the response writes the rest. -/
theorem clientLeavesSequencer : Obligations.ClientLeavesSequencer := by
  intro i s t hop h hs
  obtain ⟨x, u, ⟨_, hu⟩, rfl⟩ := client_answered hop h hs
  refine ⟨hu.cfg, hu.host, ?_⟩
  have hpe : (u.respond x).pe = { u.pe with result := x.code, count := x.count, busy := false } := rfl
  rw [hpe, hu.pe]

/-- AUTH with arguments R170 or R174 does not allow. -/
theorem exec_auth_refused {keyType blockNum : Byte} {uid : List Byte} {s : State}
    (he : s.cfg.extClient = true) (ha : authArgsLegal keyType uid = false) :
    exec (.auth keyType blockNum uid) s = .next (s.raiseCode .badArg) :=
  (if_pos he).trans (if_neg (by simp [ha]))

/-- Settles O54, by `exec_auth_refused`. -/
theorem authRefusesIllegalArguments : Obligations.AuthRefusesIllegalArguments := by
  intro s keyType blockNum uid he harg
  refine exec_auth_refused he ?_
  rcases harg with hkey | ⟨h4, h7, h10⟩
  · simp [authArgsLegal, show ¬ keyType.toNat ≤ 1 by omega]
  · simp [authArgsLegal, h4, h7, h10]

/-! ### LOADKEY -/

theorem pollingPlan_clocked {s : State} (hp : s.pe.pollInterval ≠ 0) (plan : List ClientStep)
    (t : State) : pollingPlan plan s t = .next t := by
  unfold pollingPlan
  split
  · exact if_neg hp
  · rfl

/-- The calls of LOADKEY (R173). -/
def loadkeyCalls (key : List Byte) (s : State) : Reply (List Byte) :=
  runClient (Instr.loadkey key).operands s.cfg.client.loadKey.steps [] s

theorem exec_loadkey {key : List Byte} {s : State} (he : s.cfg.extClient = true)
    (hp : s.pe.pollInterval ≠ 0) :
    exec (.loadkey key) s = .next
      (loadKeyEnd (s.cfg.client.loadKey.settled s) key (loadkeyCalls key s)).finish :=
  (if_pos he).trans (pollingPlan_clocked hp _ _)

/-- The window closed and no call that resets the device (R226). -/
theorem settled_of_calls {p : ClientPlan} {s : State} (hs : s.settle = 0)
    (hp : ∀ call ∈ p.steps, call.resetsDevice s.cfg = false) : p.settled s = true := by
  simpa [ClientPlan.settled, hs] using hp

/-- Settles O52: what `loadKeyEnd` makes of each way the calls end. -/
theorem loadkeyLoadsKey : Obligations.LoadkeyLoadsKey := by
  intro s u key he hp r
  have hexec := exec_loadkey (key := key) he hp
  refine ⟨fun ⟨a, hr⟩ => ?_, fun ⟨c, hc, hr⟩ => ?_, fun hr => ?_⟩
  · have hcalls : loadkeyCalls key s = .ok a u := hr
    rw [hexec, hcalls, loadKeyEnd]
    cases hheld : s.cfg.client.loadKey.settled s with
    | true => exact ⟨_, rfl, rfl, fun _ _ => rfl, rfl, rfl, rfl⟩
    | false =>
      refine ⟨_, rfl, rfl, fun hs hplan => ?_, rfl, rfl, rfl⟩
      rw [settled_of_calls hs hplan] at hheld
      cases hheld
  · have hcalls : loadkeyCalls key s = .err c u := hr
    rw [hexec, hcalls, loadKeyEnd, if_neg hc]
    exact ⟨_, rfl, rfl, rfl, rfl, rfl⟩
  · have hcalls : loadkeyCalls key s = .err .commErr u := hr
    rw [hexec, hcalls, loadKeyEnd, if_pos rfl]
    exact ⟨_, rfl, rfl, rfl, rfl, rfl⟩

/-! ### AUTH -/

/-- AUTH up to its verdict (R174): its calls, then a POLL. -/
def authPolled (keyType blockNum : Byte) (uid : List Byte) (s : State) : Reply Unit :=
  (runClient (Instr.auth keyType blockNum uid).operands s.cfg.client.auth.steps [] s).bind
    fun _ s => poll s

/-- Neither the calls nor the POLL write the configuration. -/
theorem authPolled_cfg (keyType blockNum : Byte) (uid : List Byte) (s : State) :
    Post (authPolled keyType blockNum uid s) (fun _ u => u.cfg = s.cfg) (fun _ u => u.cfg = s.cfg)
      fun _ => True := by
  refine (runClient_post _ _ [] s).bind (fun _ u h => (pollKept_of_reached h.2).cfg)
    (fun _ _ => trivial) fun _ u h => ?_
  have hu := (pollKept_of_reached h.2).cfg
  exact (poll_post u).mono (fun _ _ h => h.cfg.trans hu) (fun _ _ h => h.2.cfg.trans hu)
    fun _ _ => trivial

theorem authArgsLegal_iff {keyType : Byte} {uid : List Byte} :
    authArgsLegal keyType uid = true ↔
      (keyType = 0 ∨ keyType = 1) ∧ (uid.length = 4 ∨ uid.length = 7 ∨ uid.length = 10) := by
  have hkey : keyType.toNat ≤ 1 ↔ keyType = 0 ∨ keyType = 1 := by
    simp only [← BitVec.toNat_inj, BitVec.ofNat_eq_ofNat, BitVec.toNat_ofNat]
    omega
  simp [authArgsLegal, hkey, or_assoc]

theorem exec_auth {keyType blockNum : Byte} {uid : List Byte} {s : State}
    (he : s.cfg.extClient = true) (hp : s.pe.pollInterval ≠ 0)
    (ha : authArgsLegal keyType uid = true) :
    exec (.auth keyType blockNum uid) s = .next
      (authEnd ((authPolled keyType blockNum uid s).bind fun _ s => authVerdict s)).finish := by
  rw [authPolled, bind_assoc]
  exact (if_pos he).trans ((if_pos ha).trans (if_neg hp))

/-- The code AUTH reports for a code met on the way (R174, log entry 17), by cases. -/
theorem authCode_eq (cfg : Cfg) (c : Result) :
    authCode cfg c = if c = .commErr then .commErr
      else if c = .timeout ∧ cfg.client.authTimeoutRejects = false then .timeout
      else .authRejected := by
  cases c with
  | timeout => cases h : cfg.client.authTimeoutRejects <;> simp [authCode, h]
  | _ => simp [authCode]

/-- The verdict read in a quiet environment (R174): OK or a rejection, with a free COUNT. -/
theorem authVerdict_quiet {s : State} {ms : List EnvMove} (ha : s.agent = .any (.quiet :: ms)) :
    ∃ l, authVerdict s = freeCount
      (if s.dev.readReg s.cfg s.cfg.client.authReg &&& s.cfg.client.authMask ≠ 0 then .ok
        else .authRejected) { s with agent := .any ms, bus := s.bus ++ l } := by
  refine ⟨[⟨.read s.cfg.client.authReg,
    .value (s.dev.readReg s.cfg s.cfg.client.authReg)⟩], ?_⟩
  rw [authVerdict, tRead_quiet ha, bind_ok]
  exact (apply_ite (freeCount · _) _ _ _).symm

/-- AUTH as a code ends it (R174, R195, R196): a rejection has a free COUNT, any other code COUNT 0. -/
theorem authEnd_err (c : Result) (s : State) :
    ∃ n k, (authCode s.cfg c ≠ .authRejected → n = 0) ∧ (authEnd (.err c s)).finish = { s with
      pe := { s.pe with result := authCode s.cfg c, count := n, busy := false }
      drawn := k
      sent := s.sent ++ [[(authCode s.cfg c).code.setWidth 8, n]] } := by
  rw [authEnd]
  by_cases hc : authCode s.cfg c = .authRejected
  · rw [if_pos hc, hc]
    exact ⟨_, _, fun h => absurd rfl h, rfl⟩
  · rw [if_neg hc]
    exact ⟨0, s.drawn, fun _ => rfl, rfl⟩

/-- Settles O53: the verdict is read where calls and POLL completed (`authVerdict_quiet`); a code met on
the way, or at the verdict, is reported as `authEnd_err` says. -/
theorem authReportsVerdict : Obligations.AuthReportsVerdict := by
  intro s keyType blockNum uid he hp hkey huid r reported
  have hexec := exec_auth (blockNum := blockNum) he hp (authArgsLegal_iff.mpr ⟨hkey, huid⟩)
  have hkept := authPolled_cfg keyType blockNum uid s
  have polled {a : List Byte} {u : State} (hr : r = .ok a u) :
      authPolled keyType blockNum uid s = poll u := congrArg (Reply.bind · _) hr
  refine ⟨fun u v a rest hr hpoll ⟨ha, _⟩ => ?_, fun u c h => ?_,
    fun u v a landed rest hr hpoll ha => ?_⟩
  · have hok := (polled hr).trans hpoll
    obtain ⟨l, hv⟩ := authVerdict_quiet ha
    rw [hok] at hkept hexec
    have hcfg : v.cfg = s.cfg := hkept
    rw [hexec, bind_ok, hv, ← hcfg]
    exact ⟨_, rfl, rfl, rfl, rfl⟩
  · have herr : authPolled keyType blockNum uid s = .err c u := by
      rcases h with hr | ⟨a, v, hr, hpoll⟩
      · exact congrArg (Reply.bind · _) hr
      · exact (polled hr).trans hpoll
    rw [herr] at hkept hexec
    have hcode : authCode u.cfg c = reported c := by rw [hkept, authCode_eq]
    obtain ⟨n, k, hn, hfin⟩ := authEnd_err c u
    rw [hcode] at hn hfin
    rw [hexec, bind_err, hfin]
    exact ⟨_, rfl, rfl, rfl, rfl, rfl, hn⟩
  · have hok := (polled hr).trans hpoll
    rw [hok] at hkept hexec
    have hcfg : v.cfg = s.cfg := hkept
    rw [hexec, bind_ok, authVerdict, tRead_listed_failed ha, bind_err, hcfg]
    exact ⟨_, rfl, rfl, rfl, rfl, rfl⟩

/-! ### RDBLK and RDPAGE -/

theorem exec_clientRead {i : Instr} {s : State} (hi : (∃ b, i = .rdblk b) ∨ ∃ p, i = .rdpage p)
    (he : s.cfg.extClient = true) (hp : s.pe.pollInterval ≠ 0) :
    exec i s = .next (clientRead (clientReadOf s.cfg i).1 (clientReadOf s.cfg i).2.1
      (clientReadOf s.cfg i).2.2 s).finish := by
  rcases hi with ⟨b, rfl⟩ | ⟨p, rfl⟩
  · exact (if_pos he).trans (if_neg hp)
  · exact (if_pos he).trans (if_neg hp)

/-- Settles O55: `xchg_answered` is the exchange; whether it drained enough decides the answer. -/
theorem clientReadsPayload : Obligations.ClientReadsPayload := by
  intro i s quiet d rest hi icop params n he hlegal ho hfit hd hp hq ⟨ha, hs⟩
  have hn : n ≠ 0 := (clientReadOf_pos hi).ne'
  simp only [← min_length_eq_zero hn d, List.append_assoc] at ha
  obtain ⟨l, hops, hx⟩ := xchg_answered s.cfg.vFrameStd n ⟨hlegal, hs, ho, hfit, hd, hp, hq⟩
    (verdict_done (Legal.of hlegal)) ha
  rw [exec_clientRead hi he hp, clientRead, hx, bind_ok]
  have hlen : (d.take n).length = min n d.length := List.length_take
  by_cases hshort : d.length < n
  · rw [if_pos (by omega)]
    exact ⟨_, l, rfl, rfl, hops, rfl, rfl, rfl, rfl, fun h => absurd hshort (Nat.not_lt.mpr h),
      fun _ => ⟨rfl, rfl⟩⟩
  · have hcount : (d.take n).length = n := by omega
    rw [if_neg (by omega), finish_ok, respond_dataResponse, hcount]
    exact ⟨_, l, rfl, rfl, hops, rfl, rfl, rfl, rfl, fun _ => ⟨rfl, rfl⟩, fun h => absurd h hshort⟩

/-! ### WRBLK and WRPAGE -/

theorem exec_clientWrite {i : Instr} {s : State} (hi : (∃ b d, i = .wrblk b d) ∨ ∃ p d, i = .wrpage p d)
    (he : s.cfg.extClient = true) (hp : s.pe.pollInterval ≠ 0) :
    exec i s = .next (clientWrite i.operands (clientWriteOf s.cfg i).1 (clientWriteOf s.cfg i).2.1
      (clientWriteOf s.cfg i).2.2 s).finish := by
  rcases hi with ⟨b, d, rfl⟩ | ⟨p, d, rfl⟩
  · exact (if_pos he).trans (pollingPlan_clocked hp _ _)
  · exact (if_pos he).trans (pollingPlan_clocked hp _ _)

section ClientWrite

variable {operands : List Byte} {plan : List ClientStep} {ack : Option (List Byte)} {n : Nat}
  {s u : State} {a : List Byte}

theorem clientWrite_accepted (hr : runClient operands plan [] s = .ok a u)
    (hack : ack = none ∨ ack = some a) :
    clientWrite operands plan ack n s = .ok (countResponse n) u := by
  rw [clientWrite, hr, bind_ok]
  rcases hack with rfl | rfl
  · rfl
  · exact if_pos rfl

theorem clientWrite_refused {b : List Byte} (hr : runClient operands plan [] s = .ok a u)
    (hack : ack = some b) (hne : a ≠ b) :
    clientWrite operands plan ack n s = .err .protoShort u := by
  rw [clientWrite, hr, bind_ok, hack]
  exact if_neg hne

end ClientWrite

/-- Settles O56, by `clientWrite_accepted` and `clientWrite_refused`; a code passes through. -/
theorem clientWritesPayload : Obligations.ClientWritesPayload := by
  intro i s u hi he hp plan ack n
  have hexec := exec_clientWrite hi he hp
  refine ⟨fun a hr hack => ?_, fun a b hr hack hne => ?_, fun c hr => ?_⟩
  · rw [hexec, clientWrite_accepted hr hack, finish_ok, respond_countResponse]
  · rw [hexec, clientWrite_refused hr hack hne, finish_err]
    rfl
  · rw [hexec, clientWrite, hr, bind_err, finish_err]
    rfl

end Sys2Proof.Proofs
end

section
/-! PROOFS. Failures (spec 60_exceptions.md R191, R192, R196): the first primitive of a sequencer operation
fails; and, against any device, COMM_ERR and a failed last micro-step go together. -/

namespace Sys2Proof.Proofs

open Sys2Proof.Machine Sys2Proof.Laws

/-! ### The first primitive of an attempt fails -/

/-- An exchange whose clear fails ends there (R128, R192), against any device, where RESET does not
follow. -/
theorem xchg_clear_fails {s : State}
    (hf : (s.moveFor (.write s.cfg.regFifoControl s.cfg.vFifoFlush)).fails = true)
    (hr : (s.moveFor (.write s.cfg.regFifoControl s.cfg.vFifoFlush)).reset = false)
    (fc icop : Byte) (params : List Byte) (need : Nat) :
    ∃ u, xchg fc icop params need s = .err .commErr u ∧ u.sent = s.sent ∧ u.pe = s.pe ∧
      u.bus = s.bus ++ [⟨.write s.cfg.regFifoControl s.cfg.vFifoFlush, .failed⟩] := by
  obtain ⟨u, hu, hwrite⟩ := tWrite_once hr
  have hbus := hu.bus
  rw [if_pos hf] at hwrite hbus
  exact ⟨u, by rw [xchg, clearFifo, hwrite, bind_err], hu.sent, hu.pe, hbus⟩

/-- Settles O33: `xchg_clear_fails`, from the attempt that a request opens and from the first level of
a SELECT. -/
theorem firstFailureEndsAttempt : Obligations.FirstFailureEndsAttempt := by
  intro i s hi hp op hf hr
  rcases or_assoc.mpr hi with hi | ⟨rfl, hq⟩
  · have hne : i ≠ .select := by rcases hi with rfl | rfl <;> decide
    obtain ⟨u, hx, hsent, hpe, hbus⟩ := xchg_clear_fails (s := s.openAttempt) hf hr
      s.cfg.vFrameShort7 s.cfg.icCmdTransceive [requestByte s.cfg i] 2
    refine ⟨u.fail .commErr, exec_request_err hi hp hx, hbus, ?_, ?_⟩
    · rw [fail_sent, hsent]
      rfl
    · rw [fail_pe, hpe, if_neg hne]
      rfl
  · obtain ⟨u, hx, hsent, hpe, hbus⟩ := xchg_clear_fails (s := atLevel (selecting s) 1) hf hr
      s.cfg.vFrameStd s.cfg.icCmdSelect [selectCode s.cfg 1] 5
    refine ⟨u.fail .commErr, exec_select_err hq hp (selectLevels_err [2, 3] hx), hbus, ?_, ?_⟩
    · rw [fail_sent, hsent]
      rfl
    · rw [fail_pe, hpe]
      rfl

/-! ### Traffic in which nothing, or only the last micro-step, failed -/

/-- From `s` to `t` no micro-step failed. -/
def AllSucceed (s t : State) : Prop := ∃ l, t.bus = s.bus ++ l ∧ ∀ b ∈ l, b.answer ≠ .failed

/-- From `s` to `t` the last micro-step failed, and no other. -/
def LastFails (s t : State) : Prop :=
  ∃ l b, t.bus = s.bus ++ (l ++ [b]) ∧ (∀ b ∈ l, b.answer ≠ .failed) ∧ b.answer = .failed

theorem AllSucceed.refl (s : State) : AllSucceed s s := ⟨[], by simp, by simp⟩

theorem AllSucceed.trans {s t u : State} (h : AllSucceed s t) (h' : AllSucceed t u) :
    AllSucceed s u := by
  obtain ⟨l, hl, hs⟩ := h
  obtain ⟨l', hl', hs'⟩ := h'
  refine ⟨l ++ l', by rw [hl', hl, List.append_assoc], fun b hb => ?_⟩
  exact (List.mem_append.mp hb).elim (hs b) (hs' b)

theorem AllSucceed.lastFails {s t u : State} (h : AllSucceed s t) (h' : LastFails t u) :
    LastFails s u := by
  obtain ⟨l, hl, hs⟩ := h
  obtain ⟨l', b, hl', hs', hb⟩ := h'
  refine ⟨l ++ l', b, by rw [hl', hl, List.append_assoc, List.append_assoc], fun b hb => ?_, hb⟩
  exact (List.mem_append.mp hb).elim (hs b) (hs' b)

/-- What the reply `r` of a procedure from `s` has to do with failures (R191, R192), against any device: a
value is `good` and nothing failed; a code is COMM_ERR where the last micro-step failed, the only one that
did, or one of `codes` where none failed. -/
def StopsAtFailure {α : Type} (codes : Result → Prop) (good : α → Prop) (s : State) (r : Reply α) :
    Prop :=
  Post r (fun a t => good a ∧ AllSucceed s t ∧ t.sent = s.sent)
    (fun c t => ((c = .commErr ∧ LastFails s t) ∨ (codes c ∧ AllSucceed s t)) ∧ t.sent = s.sent)
    fun t => t.sent = s.sent

/-- A procedure that stops at a failure, whatever its value. -/
abbrev Prompt {α : Type} (codes : Result → Prop) (s : State) (r : Reply α) : Prop :=
  StopsAtFailure codes (fun _ => True) s r

/-- An operation that stops at a failure and answers with one of `codes` where nothing failed. -/
abbrev PromptAnswer (codes : Result → Prop) (s : State) (r : Reply Response) : Prop :=
  StopsAtFailure codes (fun x => codes x.code) s r

/-- A code that is not COMM_ERR: the only ones that do not report a failure, but for CONFIGURE. -/
abbrev NotCommErr (c : Result) : Prop := c ≠ .commErr

section Replies

variable {α β : Type} {codes : Result → Prop} {good : α → Prop} {s t : State} {r : Reply α}

theorem stops_ok {a : α} (ha : good a) (s : State) : StopsAtFailure codes good s (.ok a s) :=
  ⟨ha, .refl s, rfl⟩

theorem stops_err {c : Result} (hc : codes c) (s : State) :
    StopsAtFailure codes good s (.err c s : Reply α) := ⟨.inr ⟨hc, .refl s⟩, rfl⟩

/-- A reply from a state that was reached without a failure. -/
theorem StopsAtFailure.after (h : StopsAtFailure codes good t r) (hst : AllSucceed s t)
    (hs : t.sent = s.sent) : StopsAtFailure codes good s r :=
  h.mono (fun _ _ ⟨ha, hl, hsent⟩ => ⟨ha, hst.trans hl, hsent.trans hs⟩)
    (fun _ _ ⟨hc, hsent⟩ =>
      ⟨hc.imp (.imp_right hst.lastFails) (.imp_right hst.trans), hsent.trans hs⟩)
    fun _ hsent => hsent.trans hs

/-- Writing PE's registers or the key slot between two micro-steps is no traffic. -/
theorem StopsAtFailure.of_traffic (h : StopsAtFailure codes good t r) (hb : t.bus = s.bus)
    (hs : t.sent = s.sent) : StopsAtFailure codes good s r :=
  h.after ⟨[], by simp [hb], by simp⟩ hs

/-- Nothing follows a failure, so what follows a value follows successes. -/
theorem StopsAtFailure.bind {good' : β → Prop} {f : α → State → Reply β}
    (h : StopsAtFailure codes good s r) (hf : ∀ a t, StopsAtFailure codes good' t (f a t)) :
    StopsAtFailure codes good' s (r.bind f) :=
  Post.bind h (fun _ _ h => h) (fun _ h => h) fun a t ⟨_, hl, hs⟩ => (hf a t).after hl hs

end Replies

/-! ### The micro-steps -/

section MicroSteps

variable {α : Type} {codes : Result → Prop} {s u : State}

/-- A micro-step that completes. -/
theorem conclude_prompt_ok (hu : Untouched s u) (m : EnvMove) (op : BusOp) {ans : BusAnswer}
    (hans : ans ≠ .failed) (a : α) : Prompt codes s (conclude m (.ok a (u.record m op ans))) := by
  have hsent : (u.record m op ans).sent = s.sent := by rw [record_sent, hu.sent]
  unfold conclude
  split
  · exact hsent
  · exact ⟨trivial, ⟨[⟨op, ans⟩], by rw [record_bus, hu.bus], by simpa using hans⟩, hsent⟩

/-- A micro-step that fails. -/
theorem conclude_prompt_failed (hu : Untouched s u) (m : EnvMove) (op : BusOp) :
    Prompt codes s (conclude m (.err .commErr (u.record m op .failed) : Reply α)) := by
  have hsent : (u.record m op .failed).sent = s.sent := by rw [record_sent, hu.sent]
  unfold conclude
  split
  · exact hsent
  · exact ⟨.inl ⟨rfl, [], ⟨op, .failed⟩, by rw [record_bus, hu.bus]; rfl, by simp, rfl⟩, hsent⟩

theorem tRead_prompt (a : Byte) (s : State) : Prompt codes s (tRead a s) := by
  have hu := arrive_untouched (.read a) s
  unfold tRead
  dsimp only
  split
  · exact conclude_prompt_failed hu _ _
  · exact conclude_prompt_ok hu _ _ (by simp) _

theorem tWrite_prompt (a v : Byte) (s : State) : Prompt codes s (tWrite a v s) := by
  have hu := (arrive_untouched (.write a v) s).trans
    (written_untouched (s.moveFor (.write a v)) a v _)
  unfold tWrite
  dsimp only
  split
  · exact conclude_prompt_failed hu _ _
  · exact conclude_prompt_ok hu _ _ (by simp) _

theorem tFifoRead_prompt (n : Nat) (s : State) : Prompt codes s (tFifoRead n s) := by
  have hu := (arrive_untouched (.fifoRead n) s).trans
    (fifoTaken_untouched (s.moveFor (.fifoRead n)) n _)
  unfold tFifoRead
  dsimp only
  split
  · exact conclude_prompt_failed hu _ _
  · exact conclude_prompt_ok hu _ _ (by simp) _

theorem tFifoWrite_prompt (bs : List Byte) (s : State) : Prompt codes s (tFifoWrite bs s) := by
  have hu := (arrive_untouched (.fifoWrite bs) s).trans
    (fifoFilled_untouched (s.moveFor (.fifoWrite bs)) bs _)
  unfold tFifoWrite
  dsimp only
  split
  · exact conclude_prompt_failed hu _ _
  · exact conclude_prompt_ok hu _ _ (by simp) _

theorem waitTicks_prompt (n : Nat) (s : State) : Prompt codes s (waitTicks n s) := by
  have hu := arrive_untouched (.wait n) s
  exact conclude_prompt_ok (u := { s.arrive (.wait n) with settle := (s.arrive (.wait n)).settle - n })
    ⟨hu.cfg, hu.host, hu.sent, hu.pe, hu.bus, hu.dev⟩ _ _ (by simp) _

/-! ### The procedures -/

theorem fifoLength_prompt (s : State) : Prompt codes s (fifoLength s) :=
  (tRead_prompt _ s).bind fun _ t => stops_ok trivial t

theorem readFifo_prompt (maxLen : Nat) (s : State) : Prompt codes s (readFifo maxLen s) := by
  refine (fifoLength_prompt s).bind fun occ t => ?_
  dsimp only
  split
  · exact stops_ok trivial t
  · exact (tFifoRead_prompt _ t).bind fun _ u => stops_ok trivial u

theorem writeFifo_prompt (data : List Byte) (s : State) : Prompt codes s (writeFifo data s) := by
  refine (fifoLength_prompt s).bind fun occ t => ?_
  dsimp only
  split
  · exact stops_ok trivial t
  · exact (tFifoWrite_prompt _ t).bind fun _ u => stops_ok trivial u

theorem clearFifo_prompt (s : State) : Prompt codes s (clearFifo s) := tWrite_prompt _ _ s

theorem writeCommand_prompt (icop : Byte) (params : List Byte) (s : State) :
    Prompt codes s (writeCommand icop params s) := by
  refine (tWrite_prompt _ _ s).bind fun _ t => ?_
  split
  · exact stops_ok trivial t
  · exact writeFifo_prompt params t

end MicroSteps

theorem irqVerdict_ne_commErr {c : Cfg} {v : Byte} : irqVerdict c v ≠ some .commErr := by
  unfold irqVerdict
  split_ifs <;> simp

/-- The loop of POLL (R125): COMM_ERR is a failed read; the IRQ bits and the budget give other codes. -/
theorem pollLoop_prompt (b i : Half) : ∀ (fuel : Nat) (s : State),
    Prompt NotCommErr s (pollLoop b i fuel s)
  | 0, s => stops_err (by decide) s
  | fuel + 1, s => by
    refine (tRead_prompt _ s).bind fun v t => ?_
    dsimp only
    split
    · exact stops_ok trivial t
    next c _ hv => exact stops_err (fun hc => irqVerdict_ne_commErr (hc ▸ hv)) t
    · split
      · exact stops_err (by decide) t
      · exact (waitTicks_prompt _ t).bind fun _ u =>
          (pollLoop_prompt b i fuel _).of_traffic rfl rfl

theorem poll_prompt (s : State) : Prompt NotCommErr s (poll s) :=
  (pollLoop_prompt _ _ _ _).of_traffic rfl rfl

theorem xchg_prompt (fc icop : Byte) (params : List Byte) (need : Nat) (s : State) :
    Prompt NotCommErr s (xchg fc icop params need s) := by
  refine (clearFifo_prompt s).bind fun _ s => (tWrite_prompt _ _ s).bind fun _ s =>
    (tWrite_prompt _ _ s).bind fun _ s => (writeCommand_prompt _ _ s).bind fun k s => ?_
  split
  · exact stops_err (by decide) s
  · exact (poll_prompt s).bind fun _ => readFifo_prompt need

/-- The calls of a client operation (R179). -/
theorem runClient_prompt (operands : List Byte) : ∀ (plan : List ClientStep) (acc : List Byte)
    (s : State), Prompt NotCommErr s (runClient operands plan acc s)
  | [], _, s => stops_ok trivial s
  | .clear :: more, acc, s => (clearFifo_prompt s).bind fun _ => runClient_prompt operands more acc
  | .command icop params :: more, acc, s => (writeCommand_prompt _ _ s).bind fun k t => by
    split
    · exact stops_err (by decide) t
    · exact runClient_prompt operands more acc t
  | .poll :: more, acc, s => (poll_prompt s).bind fun _ => runClient_prompt operands more acc
  | .drain n :: more, acc, s =>
    (readFifo_prompt n s).bind fun d => runClient_prompt operands more (acc ++ d)
  | .fill params :: more, acc, s => (writeFifo_prompt _ s).bind fun k t => by
    split
    · exact stops_err (by decide) t
    · exact runClient_prompt operands more acc t
  | .readReg a :: more, acc, s =>
    (tRead_prompt a s).bind fun b => runClient_prompt operands more (acc ++ [b])
  | .writeReg a v :: more, acc, s =>
    (tWrite_prompt a v s).bind fun _ => runClient_prompt operands more acc

theorem writePairs_prompt {codes : Result → Prop} : ∀ (pairs : List ProfilePair) (s : State),
    Prompt codes s (writePairs pairs s)
  | [], s => stops_ok trivial s
  | p :: more, s => (tWrite_prompt p.addr p.value s).bind fun _ => writePairs_prompt more

/-- The readback of a profile (R171): a mismatch is COMM_ERR too, though nothing failed. -/
theorem checkPairs_prompt {codes : Result → Prop} (hc : codes .commErr) :
    ∀ (pairs : List ProfilePair) (s : State), Prompt codes s (checkPairs pairs s)
  | [], s => stops_ok trivial s
  | p :: more, s => by
    unfold checkPairs
    split
    · exact checkPairs_prompt hc more s
    · refine (tRead_prompt p.addr s).bind fun v t => ?_
      split
      · exact checkPairs_prompt hc more t
      · exact stops_err hc t

/-! ### The operations' replies -/

theorem freeCount_prompt {codes : Result → Prop} {c : Result} (hc : codes c) (s : State) :
    PromptAnswer codes s (freeCount c s) :=
  ⟨hc, .refl s, rfl⟩

theorem requestOutcome_prompt (d : List Byte) (s : State) :
    PromptAnswer NotCommErr s (requestOutcome d s) := by
  unfold requestOutcome
  split
  · dsimp only
    split
    · exact (stops_ok (by simp) _).of_traffic rfl rfl
    · exact (stops_ok (by simp) _).of_traffic rfl rfl
  · exact (stops_ok (by decide) _).of_traffic rfl rfl
  · exact stops_err (by decide) s

theorem request_prompt (cmd : Byte) (s : State) : PromptAnswer NotCommErr s (request cmd s) :=
  ((xchg_prompt _ _ _ _ s.openAttempt).bind requestOutcome_prompt).of_traffic (openAttempt_bus s)
    (openAttempt_sent s)

theorem selectLevels_prompt : ∀ (levels : List Nat) (s : State),
    PromptAnswer NotCommErr s (selectLevels levels s)
  | [], s => stops_err (by decide) s
  | level :: more, s => by
    refine ((xchg_prompt _ _ _ _ (atLevel s level)).bind fun d t => ?_).of_traffic rfl rfl
    dsimp only
    split
    · exact stops_err (by decide) t
    · exact stops_err (by decide) t
    · exact (selectLevels_prompt more _).of_traffic (keepFragment_bus ..) (keepFragment_sent ..)
    · exact (stops_ok (by simp [selectResponse]) _).of_traffic (keepFinal_bus ..)
        (keepFinal_sent ..)

/-- LOADKEY's end (R173): a code other than COMM_ERR is answered OK, so COMM_ERR stays a failure. -/
theorem loadKeyEnd_prompt (held : Bool) (key : List Byte) {s : State} {r : Reply (List Byte)}
    (h : Prompt NotCommErr s r) : PromptAnswer NotCommErr s (loadKeyEnd held key r) := by
  cases r with
  | ok a t =>
    obtain ⟨_, hl, hs⟩ := h
    cases held
    · exact (freeCount_prompt (by decide) t.keyLost).after hl hs
    · exact (freeCount_prompt (by decide) _).after hl hs
  | err c t =>
    obtain ⟨⟨rfl, hl⟩ | ⟨hc, hl⟩, hs⟩ := h
    · exact ⟨.inl ⟨rfl, hl⟩, hs⟩
    · simp only [loadKeyEnd, if_neg hc]
      exact (freeCount_prompt (by decide) t.keyLost).after hl hs
  | cut t => exact h

theorem authVerdict_prompt (s : State) : PromptAnswer NotCommErr s (authVerdict s) := by
  refine (tRead_prompt _ s).bind fun v t => ?_
  split
  · exact freeCount_prompt (by decide) t
  · exact freeCount_prompt (by decide) t

/-- AUTH's end (R174): COMM_ERR is reported as it is, and nothing else as COMM_ERR. -/
theorem authEnd_prompt {s : State} {r : Reply Response} (h : PromptAnswer NotCommErr s r) :
    PromptAnswer NotCommErr s (authEnd r) := by
  cases r with
  | ok x t => exact h
  | cut t => exact h
  | err c t =>
    obtain ⟨⟨rfl, hl⟩ | ⟨hc, hl⟩, hs⟩ := h
    · exact ⟨.inl ⟨rfl, hl⟩, hs⟩
    · have hcode : NotCommErr (authCode t.cfg c) := by
        rw [authCode_eq, if_neg hc]
        split <;> decide
      unfold authEnd
      dsimp only
      split
      · exact (freeCount_prompt (by decide) t).after hl hs
      · exact (stops_err hcode t).after hl hs

theorem clientRead_prompt (icop : Byte) (params : List Byte) (need : Nat) (s : State) :
    PromptAnswer NotCommErr s (clientRead icop params need s) := by
  refine (xchg_prompt _ _ _ _ s).bind fun d t => ?_
  split
  · exact stops_err (by decide) t
  · exact stops_ok (by simp [dataResponse]) t

theorem clientWrite_prompt (operands : List Byte) (plan : List ClientStep) (ack : Option (List Byte))
    (n : Nat) (s : State) : PromptAnswer NotCommErr s (clientWrite operands plan ack n s) := by
  refine (runClient_prompt operands plan [] s).bind fun a t => ?_
  split
  · exact stops_ok (by simp [countResponse]) t
  · split
    · exact stops_ok (by simp [countResponse]) t
    · exact stops_err (by decide) t

/-! ### What an operation reports -/

/-- The codes an operation may report though nothing failed: any but COMM_ERR, which CONFIGURE alone has a
second ground for, a readback mismatch (R171). -/
def unfailedCodes : Instr → Result → Prop
  | .configure _ => fun _ => True
  | _ => NotCommErr

/-- An operation from `s` to `t` that was answered: COMM_ERR where its last micro-step failed, the only one
that did; one of `codes` where none failed. -/
def FailureReported (codes : Result → Prop) (s t : State) : Prop :=
  (t.pe.result = .commErr ∧ LastFails s t) ∨ (codes t.pe.result ∧ AllSucceed s t)

section Reports

variable {codes : Result → Prop} {s t : State} {r : Reply Response}

theorem raiseCode_reports {c : Result} (hc : codes c) (s : State) :
    FailureReported codes s (s.raiseCode c) := .inr ⟨hc, .refl s⟩

theorem StopsAtFailure.finish (h : PromptAnswer codes s r) (hs : r.finish.sent ≠ s.sent) :
    FailureReported codes s r.finish := by
  cases r with
  | ok x u => exact .inr ⟨h.1, h.2.1⟩
  | err c u => exact h.1
  | cut u => exact absurd h hs

theorem StopsAtFailure.finishAttempt (h : PromptAnswer codes s r)
    (hs : r.finishAttempt.sent ≠ s.sent) : FailureReported codes s r.finishAttempt := by
  cases r with
  | ok x u => exact .inr ⟨h.1, h.2.1⟩
  | err c u => exact h.1
  | cut u => exact absurd h hs

/-- A raw operation: a procedure, and an OK response made of its value. -/
theorem raw_reports {α : Type} {r : Reply α} {f : α → Response} (h : Prompt NotCommErr s r)
    (hf : ∀ a, (f a).code = .ok) (ht : .next (r.bind fun a u => .ok (f a) u).finish =
      (.next t : Host.Outcome State Fault Refusal)) (hs : t.sent ≠ s.sent) :
    FailureReported NotCommErr s t := by
  obtain rfl := Host.Outcome.next.inj ht
  exact (h.bind fun a u => stops_ok (by simp [hf a]) u).finish hs

theorem execSreset_reports (h : execSreset s = .next t) (hs : t.sent ≠ s.sent) :
    FailureReported NotCommErr s t := by
  rw [execSreset_eq] at h
  obtain rfl := Host.Outcome.next.inj h
  have hp := writeCommand_prompt (codes := NotCommErr) s.cfg.icCmdSoftReset [] s
  cases hr : writeCommand s.cfg.icCmdSoftReset [] s with
  | ok k u => rw [hr] at hp; exact .inr ⟨by simp [closeSreset], hp.2.1⟩
  | err c u => rw [hr] at hp; exact hp.1
  | cut u => rw [hr] at hp hs; exact absurd hp hs

theorem execSelect_reports (h : execSelect s = .next t) (hs : t.sent ≠ s.sent) :
    FailureReported NotCommErr s t := by
  unfold execSelect at h
  split at h
  · obtain rfl := polling_next h
    exact ((selectLevels_prompt [1, 2, 3] (selecting s)).of_traffic rfl rfl).finishAttempt hs
  · obtain rfl := Host.Outcome.next.inj h
    exact raiseCode_reports (by decide) s

/-- A client operation (R170): BAD_OP without a micro-step, or what it reports with the extension on. -/
theorem ifClient_reports {f : Host.Outcome State Fault Refusal} (h : ifClient s f = .next t)
    (hoff : codes .badOp) (hf : f = .next t → FailureReported codes s t) :
    FailureReported codes s t := by
  unfold ifClient at h
  split at h
  · exact hf h
  · exact Host.Outcome.next.inj h ▸ raiseCode_reports hoff s

theorem execConfigure_reports {profile : Byte} (h : execConfigure profile s = .next t)
    (hs : t.sent ≠ s.sent) : FailureReported (fun _ => True) s t := by
  refine ifClient_reports h trivial fun h => ?_
  obtain rfl := Host.Outcome.next.inj h
  revert hs
  split
  · exact fun _ => raiseCode_reports trivial s
  next pairs _ =>
    refine StopsAtFailure.finish ((writePairs_prompt pairs s).bind fun _ u => ?_)
    exact (checkPairs_prompt trivial pairs u).bind fun _ => freeCount_prompt trivial

theorem execAuth_reports {keyType blockNum : Byte} {uid : List Byte}
    (h : execAuth keyType blockNum uid s = .next t) (hs : t.sent ≠ s.sent) :
    FailureReported NotCommErr s t := by
  refine ifClient_reports h (by decide) fun h => ?_
  split at h
  · obtain rfl := polling_next h
    refine (authEnd_prompt ((runClient_prompt _ _ [] s).bind fun _ u => ?_)).finish hs
    exact (poll_prompt u).bind fun _ => authVerdict_prompt
  · exact Host.Outcome.next.inj h ▸ raiseCode_reports (by decide) s

/-- Every operation that writes RESULT reports failures so, against any device, unless RESET strikes. -/
theorem exec_reports {i : Instr} (hi : allowedCodes s.cfg i ≠ []) (h : exec i s = .next t)
    (hs : t.sent ≠ s.sent) : FailureReported (unfailedCodes i) s t := by
  cases i with
  | wrcmd => exact raw_reports (writeCommand_prompt _ _ s) (fun _ => rfl) h hs
  | fifolen => exact raw_reports (fifoLength_prompt s) (fun _ => rfl) h hs
  | fiford => exact raw_reports (readFifo_prompt _ s) (fun _ => rfl) h hs
  | fifowr => exact raw_reports (writeFifo_prompt _ s) (fun _ => rfl) h hs
  | fifoclr => exact raw_reports (clearFifo_prompt s) (fun _ => rfl) h hs
  | getstat => exact raw_reports (tRead_prompt _ s) (fun _ => rfl) h hs
  | sreset => exact execSreset_reports h hs
  | reqa | wupa =>
    obtain rfl := polling_next h
    exact (request_prompt _ s).finishAttempt hs
  | select => exact execSelect_reports h hs
  | rdctl | wrctl => exact absurd rfl hi
  | configure => exact execConfigure_reports h hs
  | loadkey key =>
    refine ifClient_reports (codes := NotCommErr) h (by decide) fun h => ?_
    obtain rfl := pollingPlan_next h
    exact (loadKeyEnd_prompt _ key (runClient_prompt _ _ [] s)).finish hs
  | auth => exact execAuth_reports h hs
  | rdblk | rdpage =>
    refine ifClient_reports (codes := NotCommErr) h (by decide) fun h => ?_
    obtain rfl := polling_next h
    exact (clientRead_prompt _ _ _ s).finish hs
  | wrblk | wrpage =>
    refine ifClient_reports (codes := NotCommErr) h (by decide) fun h => ?_
    obtain rfl := pollingPlan_next h
    exact (clientWrite_prompt _ _ _ _ s).finish hs

end Reports

theorem unfailedCodes_commErr {i : Instr} (h : unfailedCodes i .commErr) :
    ∃ profile, i = .configure profile := by
  cases i with
  | configure profile => exact ⟨profile, rfl⟩
  | _ => exact absurd rfl h

/-- Settles O40, by `exec_reports`: either the last micro-step failed and COMM_ERR says so, or none
failed. -/
theorem failureEndsOperation : Obligations.FailureEndsOperation := by
  intro i s t hi h hs
  rcases exec_reports hi h hs with ⟨hc, l, b, hl, hbefore, hb⟩ | ⟨hcode, l, hl, hnone⟩
  · have hlast : (l ++ [b]).getLast? = some b := List.getLast?_concat
    exact ⟨l ++ [b], hl, by rwa [List.dropLast_concat], fun _ => hc, fun _ _ => ⟨b, hlast, hb⟩⟩
  · refine ⟨l, hl, fun b hb => hnone b (List.mem_of_mem_dropLast hb), fun ⟨b, hlast, hb⟩ => ?_,
      fun hconf hc => ?_⟩
    · exact absurd hb (hnone b (List.mem_of_getLast? hlast))
    · obtain ⟨profile, rfl⟩ := unfailedCodes_commErr (hc ▸ hcode)
      exact absurd rfl (hconf profile)

end Sys2Proof.Proofs
end

section
/-! PROOFS. Reset and hazards (spec 70_reset_and_hazards.md): RESET at the host port (R220, R221), and the
settle window that SRESET opens and passing ticks close (R226). -/

namespace Sys2Proof.Proofs

open Sys2Proof.Machine Sys2Proof.Laws

/-! ### Events at the host port -/

section Events

variable {s : State} {more : List HostEvent}

/-- One step is the next event at the host port. -/
theorem step_event {e : HostEvent} (he : s.host = e :: more) :
    step s = State.hostEvent e { s with host := more } := by
  unfold step
  rw [he]

/-- RESET between two words (R220). -/
theorem step_reset (he : s.host = .reset :: more) :
    step s = .next (State.resetPe { s with host := more }) := step_event he

/-- Ticks the host lets pass (R226). -/
theorem step_wait {ticks : Nat} (he : s.host = .wait ticks :: more) :
    step s = .next (State.idleTicks ticks { s with host := more }) := step_event he

end Events

/-- Settles O9: `step_reset`, and `Regs.afterReset` is R45's list. -/
theorem resetEventResetsPeOnly : Obligations.ResetEventResetsPeOnly :=
  fun _ _ he => step_reset he

/-! ### The settle window -/

/-- RESET after a micro-step leaves the window as it is (R220). -/
@[simp] theorem conclude_settle {α : Type} (m : EnvMove) (r : Reply α) :
    (conclude m r).state.settle = r.state.settle := by
  unfold conclude
  split <;> rfl

/-- The reset command opens the window for T_SETTLE ticks (R226). -/
theorem settleAfter_reset (c : Cfg) (left : Nat) :
    settleAfter c c.regCommand c.icCmdSoftReset left = c.tSettle := if_pos ⟨rfl, rfl⟩

/-- A write that takes effect moves the window as its register and value say (R226), and so does one
inside an open window (U4). -/
theorem written_settle {m : EnvMove} (hf : m.fails = false) (a v : Byte) (s : State) :
    (s.written m a v).settle = settleAfter s.cfg a v s.settle := by
  unfold State.written
  split
  · rfl
  · rw [if_neg (by simp [hf])]

/-- A write that does not fail, whether or not RESET follows it. -/
theorem tWrite_settle {a v : Byte} {s : State} (hf : (s.moveFor (.write a v)).fails = false) :
    (tWrite a v s).state.settle = settleAfter s.cfg a v s.settle := by
  have hwritten := written_settle hf a v (s.arrive (.write a v))
  rw [arrive_cfg, arrive_settle] at hwritten
  unfold tWrite
  dsimp only
  rw [if_neg (by simp [hf]), conclude_settle]
  exact hwritten

/-- The answer of SRESET, and RESET in its place, leave the window as the write left it (R123). -/
@[simp] theorem closeSreset_settle (r : Reply Nat) : (closeSreset r).settle = r.state.settle := by
  cases r <;> rfl

/-- `writeCommand` without parameters ends in the state of its one write (R120). -/
theorem writeCommand_nil_state (icop : Byte) (s : State) :
    (writeCommand icop [] s).state = (tWrite s.cfg.regCommand icop s).state := by
  rw [writeCommand_nil]
  cases tWrite s.cfg.regCommand icop s <;> rfl

/-- After a SRESET whose write did not fail the window is open for T_SETTLE ticks (R226). -/
theorem exec_sreset_settle {s t : State}
    (hf : (s.moveFor (.write s.cfg.regCommand s.cfg.icCmdSoftReset)).fails = false)
    (h : exec .sreset s = .next t) : t.settle = s.cfg.tSettle := by
  obtain rfl := Host.Outcome.next.inj ((execSreset_eq s).symm.trans h)
  rw [closeSreset_settle, writeCommand_nil_state, tWrite_settle hf, settleAfter_reset]

/-- RDCTL is answered in every state, and what it does is of PE and the responses alone (R129). -/
theorem exec_rdctl_frame (idx : Byte) (s : State) :
    ∃ u, exec (.rdctl idx) s = .next u ∧ u.settle = s.settle ∧ u.dev = s.dev ∧ u.bus = s.bus := by
  obtain ⟨_, _, _, _, hu⟩ := execRdctl_ends idx s rfl
  exact ⟨_, rfl, by rw [hu]; rfl, by rw [hu]; rfl, by rw [hu]; rfl⟩

/-- Settles O21: `exec_sreset_settle` opens the window, `step_wait` runs it down, `exec_rdctl_frame`
answers inside it. -/
theorem settleWindowOpensAndCloses : Obligations.SettleWindowOpensAndCloses := by
  intro s t ticks more hf hexec hhost
  have hopen : t.settle = s.cfg.tSettle := exec_sreset_settle hf hexec
  refine ⟨hopen, ?_, fun idx => exec_rdctl_frame idx t⟩
  rw [step_wait hhost, ← hopen]
  rfl

end Sys2Proof.Proofs
end
